-- ==== Sys2Proof/Word.lean ====
section
/-!
DEFINITION. The machine's bit-vector types (spec 00_scope.md R7..R9,
20_memory.md R80, R81, R105).
Bit `i` of a word is bit `i` of the spec, counted from 0 at the least significant end (R8).
-/

namespace Sys2Proof

/-- A 48-bit data or instruction word (`WORD_BITS`, R7). -/
abbrev Word := BitVec 48

/-- A 24-bit instruction half (`HALF_BITS`, R150). -/
abbrev Half := BitVec 24

/-- A 15-bit logical word address; its arithmetic is modulo 2^15, the spec's `ADDR` (R9, R80). -/
abbrev Addr := BitVec 15

/-- A 16-bit resolved address: bit 15 is the supervisor-space bit (R81). -/
abbrev Key := BitVec 16

/-- A physical word address: an 11-bit page number above a 10-bit offset (R83, R90). -/
abbrev Phys := BitVec 21

/-- A memory tag (`TAG_BITS`, R105). -/
abbrev Tag := BitVec 2

/-- The 4-bit index-register field `r` of an instruction half (R151). -/
abbrev Idx := BitVec 4

/-- The tag of an instruction word (R105). -/
def tagInsn : Tag := 1

/-- The tag of a number word (R105). -/
def tagNumber : Tag := 2

end Sys2Proof
end

