-- ==== Sys2Proof/Syntax.lean ====
section
/-!
DEFINITION. The instructions: the operation codes, the extracodes, and `Instr`, one constructor per row of
spec/opcode_table.json (30_encoding.md R157, R158).
Every instruction carries its index-register field `r` (R151) and its assembled 15-bit `addr_field` (R152, R153).
-/

namespace Sys2Proof

/-- The 80 operations: 64 short opcodes in the order of R157, then 16 long opcodes in the order of R158. -/
inductive Op where
  | atx
  | stx
  | mod
  | xts
  | addX
  | subX
  | rsubX
  | amx
  | xta
  | aax
  | aex
  | arx
  | avx
  | aox
  | divX
  | mulX
  | apx
  | aux
  | acx
  | anx
  | eaddX
  | esubX
  | asx
  | xtr
  | rte
  | yta
  | ext32
  | ext33
  | eaddN
  | esubN
  | asn
  | ntr
  | ati
  | sti
  | ita
  | its
  | mtj
  | jaddM
  | e46
  | e47
  | e50
  | e51
  | e52
  | e53
  | e54
  | e55
  | e56
  | e57
  | e60
  | e61
  | e62
  | e63
  | e64
  | e65
  | e66
  | e67
  | e70
  | e71
  | e72
  | e73
  | e74
  | e75
  | e76
  | e77
  | e20
  | e21
  | utc
  | wtc
  | vtm
  | utm
  | uza
  | u1a
  | uj
  | vjm
  | ij
  | stop
  | vzm
  | v1m
  | e36
  | vlm
  deriving DecidableEq, Repr, Inhabited

/-- The 30 extracodes that have a vector (46_extracode_and_return.md R387). -/
inductive Extracode where
  | e20 | e21 | e36 | stop | e46 | e47
  | e50 | e51 | e52 | e53 | e54 | e55 | e56 | e57
  | e60 | e61 | e62 | e63 | e64 | e65 | e66 | e67
  | e70 | e71 | e72 | e73 | e74 | e75 | e76 | e77
  deriving DecidableEq, Repr, Inhabited

/-- An instruction half, decoded. `addr` is the spec's `addr_field`, before any modification (R152, R153). -/
inductive Instr where
  /-- `ATX`: store ACC (R274); short, S = 000. -/
  | atx (r : Idx) (addr : Addr)
  /-- `STX`: store ACC, then pop into ACC (R275); short, S = 001. -/
  | stx (r : Idx) (addr : Addr)
  /-- `MOD`: privileged special-register operation (R340); short, S = 002. -/
  | mod (r : Idx) (addr : Addr)
  /-- `XTS`: push ACC, then load (R276); short, S = 003. -/
  | xts (r : Idx) (addr : Addr)
  /-- `A+X`: add (R230); short, S = 004. -/
  | addX (r : Idx) (addr : Addr)
  /-- `A-X`: subtract (R231); short, S = 005. -/
  | subX (r : Idx) (addr : Addr)
  /-- `X-A`: reverse subtract (R232); short, S = 006. -/
  | rsubX (r : Idx) (addr : Addr)
  /-- `AMX`: difference of magnitudes (R233); short, S = 007. -/
  | amx (r : Idx) (addr : Addr)
  /-- `XTA`: load ACC (R273); short, S = 010. -/
  | xta (r : Idx) (addr : Addr)
  /-- `AAX`: and (R250); short, S = 011. -/
  | aax (r : Idx) (addr : Addr)
  /-- `AEX`: exclusive or (R251); short, S = 012. -/
  | aex (r : Idx) (addr : Addr)
  /-- `ARX`: end-around-carry add (R246); short, S = 013. -/
  | arx (r : Idx) (addr : Addr)
  /-- `AVX`: sign change by operand (R234); short, S = 014. -/
  | avx (r : Idx) (addr : Addr)
  /-- `AOX`: or (R252); short, S = 015. -/
  | aox (r : Idx) (addr : Addr)
  /-- `A/X`: divide, the spec's `A/X` (R241); short, S = 016. -/
  | divX (r : Idx) (addr : Addr)
  /-- `A*X`: multiply (R240); short, S = 017. -/
  | mulX (r : Idx) (addr : Addr)
  /-- `APX`: pack (R255); short, S = 020. -/
  | apx (r : Idx) (addr : Addr)
  /-- `AUX`: unpack (R256); short, S = 021. -/
  | aux (r : Idx) (addr : Addr)
  /-- `ACX`: count ones and add (R253); short, S = 022. -/
  | acx (r : Idx) (addr : Addr)
  /-- `ANX`: leading-zero count (R254); short, S = 023. -/
  | anx (r : Idx) (addr : Addr)
  /-- `E+X`: exponent add from word (R242); short, S = 024. -/
  | eaddX (r : Idx) (addr : Addr)
  /-- `E-X`: exponent subtract from word (R243); short, S = 025. -/
  | esubX (r : Idx) (addr : Addr)
  /-- `ASX`: shift by word exponent (R257); short, S = 026. -/
  | asx (r : Idx) (addr : Addr)
  /-- `XTR`: load arithmetic mode from word (R260); short, S = 027. -/
  | xtr (r : Idx) (addr : Addr)
  /-- `RTE`: read arithmetic mode into exponent (R259); short, S = 030. -/
  | rte (r : Idx) (addr : Addr)
  /-- `YTA`: read remainder (R262); short, S = 031. -/
  | yta (r : Idx) (addr : Addr)
  /-- `EXT32`: external-device command (R358); short, S = 032. -/
  | ext32 (r : Idx) (addr : Addr)
  /-- `EXT33`: external-device command (R358); short, S = 033. -/
  | ext33 (r : Idx) (addr : Addr)
  /-- `E+N`: exponent add literal (R244); short, S = 034. -/
  | eaddN (r : Idx) (addr : Addr)
  /-- `E-N`: exponent subtract literal (R245); short, S = 035. -/
  | esubN (r : Idx) (addr : Addr)
  /-- `ASN`: shift by literal (R258); short, S = 036. -/
  | asn (r : Idx) (addr : Addr)
  /-- `NTR`: load arithmetic mode from literal (R261); short, S = 037. -/
  | ntr (r : Idx) (addr : Addr)
  /-- `ATI`: ACC to index register (R280); short, S = 040. -/
  | ati (r : Idx) (addr : Addr)
  /-- `STI`: ACC to index register, then pop (R281); short, S = 041. -/
  | sti (r : Idx) (addr : Addr)
  /-- `ITA`: index register to ACC (R282); short, S = 042. -/
  | ita (r : Idx) (addr : Addr)
  /-- `ITS`: push ACC, then index register to ACC (R283); short, S = 043. -/
  | its (r : Idx) (addr : Addr)
  /-- `MTJ`: register to register (R284); short, S = 044. -/
  | mtj (r : Idx) (addr : Addr)
  /-- `J+M`: add register to register (R285); short, S = 045. -/
  | jaddM (r : Idx) (addr : Addr)
  /-- `E46`: extracode (R381); short, S = 046. -/
  | e46 (r : Idx) (addr : Addr)
  /-- `E47`: extracode (R381); short, S = 047. -/
  | e47 (r : Idx) (addr : Addr)
  /-- `E50`: extracode (R382); short, S = 050. -/
  | e50 (r : Idx) (addr : Addr)
  /-- `E51`: extracode (R382); short, S = 051. -/
  | e51 (r : Idx) (addr : Addr)
  /-- `E52`: extracode (R382); short, S = 052. -/
  | e52 (r : Idx) (addr : Addr)
  /-- `E53`: extracode (R382); short, S = 053. -/
  | e53 (r : Idx) (addr : Addr)
  /-- `E54`: extracode (R382); short, S = 054. -/
  | e54 (r : Idx) (addr : Addr)
  /-- `E55`: extracode (R382); short, S = 055. -/
  | e55 (r : Idx) (addr : Addr)
  /-- `E56`: extracode (R382); short, S = 056. -/
  | e56 (r : Idx) (addr : Addr)
  /-- `E57`: extracode (R382); short, S = 057. -/
  | e57 (r : Idx) (addr : Addr)
  /-- `E60`: extracode (R382); short, S = 060. -/
  | e60 (r : Idx) (addr : Addr)
  /-- `E61`: extracode (R382); short, S = 061. -/
  | e61 (r : Idx) (addr : Addr)
  /-- `E62`: extracode (R382); short, S = 062. -/
  | e62 (r : Idx) (addr : Addr)
  /-- `E63`: extracode (R382); short, S = 063. -/
  | e63 (r : Idx) (addr : Addr)
  /-- `E64`: extracode (R382); short, S = 064. -/
  | e64 (r : Idx) (addr : Addr)
  /-- `E65`: extracode (R382); short, S = 065. -/
  | e65 (r : Idx) (addr : Addr)
  /-- `E66`: extracode (R382); short, S = 066. -/
  | e66 (r : Idx) (addr : Addr)
  /-- `E67`: extracode (R382); short, S = 067. -/
  | e67 (r : Idx) (addr : Addr)
  /-- `E70`: extracode (R382); short, S = 070. -/
  | e70 (r : Idx) (addr : Addr)
  /-- `E71`: extracode (R382); short, S = 071. -/
  | e71 (r : Idx) (addr : Addr)
  /-- `E72`: extracode (R382); short, S = 072. -/
  | e72 (r : Idx) (addr : Addr)
  /-- `E73`: extracode (R382); short, S = 073. -/
  | e73 (r : Idx) (addr : Addr)
  /-- `E74`: extracode (R382); short, S = 074. -/
  | e74 (r : Idx) (addr : Addr)
  /-- `E75`: extracode (R382); short, S = 075. -/
  | e75 (r : Idx) (addr : Addr)
  /-- `E76`: extracode (R382); short, S = 076. -/
  | e76 (r : Idx) (addr : Addr)
  /-- `E77`: extracode (R382); short, S = 077. -/
  | e77 (r : Idx) (addr : Addr)
  /-- `E20`: extracode (R383); long, L = 0. -/
  | e20 (r : Idx) (addr : Addr)
  /-- `E21`: extracode (R383); long, L = 1. -/
  | e21 (r : Idx) (addr : Addr)
  /-- `UTC`: modify next by address (R330); long, L = 2. -/
  | utc (r : Idx) (addr : Addr)
  /-- `WTC`: modify next by memory word (R331); long, L = 3. -/
  | wtc (r : Idx) (addr : Addr)
  /-- `VTM`: literal to index register (R286); long, L = 4. -/
  | vtm (r : Idx) (addr : Addr)
  /-- `UTM`: add literal to index register (R287); long, L = 5. -/
  | utm (r : Idx) (addr : Addr)
  /-- `UZA`: branch on zero (R311); long, L = 6. -/
  | uza (r : Idx) (addr : Addr)
  /-- `U1A`: branch on non-zero (R312); long, L = 7. -/
  | u1a (r : Idx) (addr : Addr)
  /-- `UJ`: jump (R313); long, L = 8. -/
  | uj (r : Idx) (addr : Addr)
  /-- `VJM`: jump and link (R314); long, L = 9. -/
  | vjm (r : Idx) (addr : Addr)
  /-- `IJ`: return from extracode or interrupt (R385); long, L = 10. -/
  | ij (r : Idx) (addr : Addr)
  /-- `STOP`: stop, an extracode outside supervisor mode (R386); long, L = 11. -/
  | stop (r : Idx) (addr : Addr)
  /-- `VZM`: branch if index register zero (R315); long, L = 12. -/
  | vzm (r : Idx) (addr : Addr)
  /-- `V1M`: branch if index register non-zero (R316); long, L = 13. -/
  | v1m (r : Idx) (addr : Addr)
  /-- `E36`: extracode (R384); long, L = 14. -/
  | e36 (r : Idx) (addr : Addr)
  /-- `VLM`: loop (R317); long, L = 15. -/
  | vlm (r : Idx) (addr : Addr)
  deriving DecidableEq, Repr, Inhabited

/-- An instruction's operation. -/
def Instr.op : Instr → Op
  | .atx _ _ => .atx
  | .stx _ _ => .stx
  | .mod _ _ => .mod
  | .xts _ _ => .xts
  | .addX _ _ => .addX
  | .subX _ _ => .subX
  | .rsubX _ _ => .rsubX
  | .amx _ _ => .amx
  | .xta _ _ => .xta
  | .aax _ _ => .aax
  | .aex _ _ => .aex
  | .arx _ _ => .arx
  | .avx _ _ => .avx
  | .aox _ _ => .aox
  | .divX _ _ => .divX
  | .mulX _ _ => .mulX
  | .apx _ _ => .apx
  | .aux _ _ => .aux
  | .acx _ _ => .acx
  | .anx _ _ => .anx
  | .eaddX _ _ => .eaddX
  | .esubX _ _ => .esubX
  | .asx _ _ => .asx
  | .xtr _ _ => .xtr
  | .rte _ _ => .rte
  | .yta _ _ => .yta
  | .ext32 _ _ => .ext32
  | .ext33 _ _ => .ext33
  | .eaddN _ _ => .eaddN
  | .esubN _ _ => .esubN
  | .asn _ _ => .asn
  | .ntr _ _ => .ntr
  | .ati _ _ => .ati
  | .sti _ _ => .sti
  | .ita _ _ => .ita
  | .its _ _ => .its
  | .mtj _ _ => .mtj
  | .jaddM _ _ => .jaddM
  | .e46 _ _ => .e46
  | .e47 _ _ => .e47
  | .e50 _ _ => .e50
  | .e51 _ _ => .e51
  | .e52 _ _ => .e52
  | .e53 _ _ => .e53
  | .e54 _ _ => .e54
  | .e55 _ _ => .e55
  | .e56 _ _ => .e56
  | .e57 _ _ => .e57
  | .e60 _ _ => .e60
  | .e61 _ _ => .e61
  | .e62 _ _ => .e62
  | .e63 _ _ => .e63
  | .e64 _ _ => .e64
  | .e65 _ _ => .e65
  | .e66 _ _ => .e66
  | .e67 _ _ => .e67
  | .e70 _ _ => .e70
  | .e71 _ _ => .e71
  | .e72 _ _ => .e72
  | .e73 _ _ => .e73
  | .e74 _ _ => .e74
  | .e75 _ _ => .e75
  | .e76 _ _ => .e76
  | .e77 _ _ => .e77
  | .e20 _ _ => .e20
  | .e21 _ _ => .e21
  | .utc _ _ => .utc
  | .wtc _ _ => .wtc
  | .vtm _ _ => .vtm
  | .utm _ _ => .utm
  | .uza _ _ => .uza
  | .u1a _ _ => .u1a
  | .uj _ _ => .uj
  | .vjm _ _ => .vjm
  | .ij _ _ => .ij
  | .stop _ _ => .stop
  | .vzm _ _ => .vzm
  | .v1m _ _ => .v1m
  | .e36 _ _ => .e36
  | .vlm _ _ => .vlm

/-- An instruction's index-register field. -/
def Instr.r : Instr → Idx
  | .atx r _ | .stx r _ | .mod r _ | .xts r _ | .addX r _
  | .subX r _ | .rsubX r _ | .amx r _ | .xta r _ | .aax r _
  | .aex r _ | .arx r _ | .avx r _ | .aox r _ | .divX r _
  | .mulX r _ | .apx r _ | .aux r _ | .acx r _ | .anx r _
  | .eaddX r _ | .esubX r _ | .asx r _ | .xtr r _ | .rte r _
  | .yta r _ | .ext32 r _ | .ext33 r _ | .eaddN r _ | .esubN r _
  | .asn r _ | .ntr r _ | .ati r _ | .sti r _ | .ita r _
  | .its r _ | .mtj r _ | .jaddM r _ | .e46 r _ | .e47 r _
  | .e50 r _ | .e51 r _ | .e52 r _ | .e53 r _ | .e54 r _
  | .e55 r _ | .e56 r _ | .e57 r _ | .e60 r _ | .e61 r _
  | .e62 r _ | .e63 r _ | .e64 r _ | .e65 r _ | .e66 r _
  | .e67 r _ | .e70 r _ | .e71 r _ | .e72 r _ | .e73 r _
  | .e74 r _ | .e75 r _ | .e76 r _ | .e77 r _ | .e20 r _
  | .e21 r _ | .utc r _ | .wtc r _ | .vtm r _ | .utm r _
  | .uza r _ | .u1a r _ | .uj r _ | .vjm r _ | .ij r _
  | .stop r _ | .vzm r _ | .v1m r _ | .e36 r _ | .vlm r _ => r

/-- An instruction's address field. -/
def Instr.addr : Instr → Addr
  | .atx _ a | .stx _ a | .mod _ a | .xts _ a | .addX _ a
  | .subX _ a | .rsubX _ a | .amx _ a | .xta _ a | .aax _ a
  | .aex _ a | .arx _ a | .avx _ a | .aox _ a | .divX _ a
  | .mulX _ a | .apx _ a | .aux _ a | .acx _ a | .anx _ a
  | .eaddX _ a | .esubX _ a | .asx _ a | .xtr _ a | .rte _ a
  | .yta _ a | .ext32 _ a | .ext33 _ a | .eaddN _ a | .esubN _ a
  | .asn _ a | .ntr _ a | .ati _ a | .sti _ a | .ita _ a
  | .its _ a | .mtj _ a | .jaddM _ a | .e46 _ a | .e47 _ a
  | .e50 _ a | .e51 _ a | .e52 _ a | .e53 _ a | .e54 _ a
  | .e55 _ a | .e56 _ a | .e57 _ a | .e60 _ a | .e61 _ a
  | .e62 _ a | .e63 _ a | .e64 _ a | .e65 _ a | .e66 _ a
  | .e67 _ a | .e70 _ a | .e71 _ a | .e72 _ a | .e73 _ a
  | .e74 _ a | .e75 _ a | .e76 _ a | .e77 _ a | .e20 _ a
  | .e21 _ a | .utc _ a | .wtc _ a | .vtm _ a | .utm _ a
  | .uza _ a | .u1a _ a | .uj _ a | .vjm _ a | .ij _ a
  | .stop _ a | .vzm _ a | .v1m _ a | .e36 _ a | .vlm _ a => a

/-- The instruction of an operation and its fields. -/
def Instr.ofOp (r : Idx) (a : Addr) : Op → Instr
  | .atx => .atx r a
  | .stx => .stx r a
  | .mod => .mod r a
  | .xts => .xts r a
  | .addX => .addX r a
  | .subX => .subX r a
  | .rsubX => .rsubX r a
  | .amx => .amx r a
  | .xta => .xta r a
  | .aax => .aax r a
  | .aex => .aex r a
  | .arx => .arx r a
  | .avx => .avx r a
  | .aox => .aox r a
  | .divX => .divX r a
  | .mulX => .mulX r a
  | .apx => .apx r a
  | .aux => .aux r a
  | .acx => .acx r a
  | .anx => .anx r a
  | .eaddX => .eaddX r a
  | .esubX => .esubX r a
  | .asx => .asx r a
  | .xtr => .xtr r a
  | .rte => .rte r a
  | .yta => .yta r a
  | .ext32 => .ext32 r a
  | .ext33 => .ext33 r a
  | .eaddN => .eaddN r a
  | .esubN => .esubN r a
  | .asn => .asn r a
  | .ntr => .ntr r a
  | .ati => .ati r a
  | .sti => .sti r a
  | .ita => .ita r a
  | .its => .its r a
  | .mtj => .mtj r a
  | .jaddM => .jaddM r a
  | .e46 => .e46 r a
  | .e47 => .e47 r a
  | .e50 => .e50 r a
  | .e51 => .e51 r a
  | .e52 => .e52 r a
  | .e53 => .e53 r a
  | .e54 => .e54 r a
  | .e55 => .e55 r a
  | .e56 => .e56 r a
  | .e57 => .e57 r a
  | .e60 => .e60 r a
  | .e61 => .e61 r a
  | .e62 => .e62 r a
  | .e63 => .e63 r a
  | .e64 => .e64 r a
  | .e65 => .e65 r a
  | .e66 => .e66 r a
  | .e67 => .e67 r a
  | .e70 => .e70 r a
  | .e71 => .e71 r a
  | .e72 => .e72 r a
  | .e73 => .e73 r a
  | .e74 => .e74 r a
  | .e75 => .e75 r a
  | .e76 => .e76 r a
  | .e77 => .e77 r a
  | .e20 => .e20 r a
  | .e21 => .e21 r a
  | .utc => .utc r a
  | .wtc => .wtc r a
  | .vtm => .vtm r a
  | .utm => .utm r a
  | .uza => .uza r a
  | .u1a => .u1a r a
  | .uj => .uj r a
  | .vjm => .vjm r a
  | .ij => .ij r a
  | .stop => .stop r a
  | .vzm => .vzm r a
  | .v1m => .v1m r a
  | .e36 => .e36 r a
  | .vlm => .vlm r a

end Sys2Proof
end

