-- ==== Sys2Proof/Config.lean ====
section
/-!
DEFINITION. The OPEN parameters of the spec (00_scope.md R7) and the free values (R13), as constants WITHOUT a body:
nothing in Lean can evaluate one, so a statement that mentions one holds for every value of it (log 9).
Where the spec constrains a parameter, the parameter is a structure that carries the constraint as a proof. The
default values of such a structure only show that the constraint can be met; no constant below has them as its value.
-/

namespace Sys2Proof

/-- The internal causes (60_exceptions.md R401). -/
inductive Cause where
  | illegalOpcode | privilege | insnCheck | ramCheck | insnProt | operandProt | breakpoint | watchpoint
  | overflow | divZero
  deriving DecidableEq, Repr, Inhabited

/-- What has a bit of its own in GRP: each internal cause (R401) and the interval timer (R432). -/
inductive GrpSource where
  | cause (c : Cause)
  | timer
  deriving DecidableEq, Repr, Inhabited

/-- The kind of a mailbox byte (R350, R440). -/
inductive MsgKind where
  | request | response
  deriving DecidableEq, Repr, Inhabited

/-- A number in 0..29 for each extracode, to state that the vectors form a contiguous range. -/
def Extracode.number : Extracode → Fin 30
  | .e20 => 0 | .e21 => 1 | .e36 => 2 | .stop => 3 | .e46 => 4 | .e47 => 5
  | .e50 => 6 | .e51 => 7 | .e52 => 8 | .e53 => 9 | .e54 => 10 | .e55 => 11 | .e56 => 12 | .e57 => 13
  | .e60 => 14 | .e61 => 15 | .e62 => 16 | .e63 => 17 | .e64 => 18 | .e65 => 19 | .e66 => 20 | .e67 => 21
  | .e70 => 22 | .e71 => 23 | .e72 => 24 | .e73 => 25 | .e74 => 26 | .e75 => 27 | .e76 => 28 | .e77 => 29

/-- The trap vectors: all distinct, the 30 extracode vectors a contiguous range in an OPEN order (R387, R402). -/
structure Vectors where
  /-- `VEC_INT`. -/
  vecInt : Addr := 0
  /-- `VEC_EXT`. -/
  vecExt : Addr := 1
  /-- The lowest extracode vector. -/
  xcBase : Nat := 2
  /-- The place of an extracode in the range. -/
  xcPlace : Extracode → Fin 30 := Extracode.number
  /-- The range lies inside the address space. -/
  inSpace : xcBase + 30 ≤ 2 ^ 15 := by decide
  /-- No two extracodes share a vector. -/
  placeInjective : ∀ x y, xcPlace x = xcPlace y → x = y := by
    intro x y h; cases x <;> cases y <;> first | rfl | (exact absurd h (by decide))
  /-- The two interrupt vectors differ. -/
  intNeExt : vecInt ≠ vecExt := by decide
  /-- The internal vector lies outside the extracode range. -/
  intOutside : vecInt.toNat < xcBase ∨ xcBase + 30 ≤ vecInt.toNat := by decide
  /-- The external vector lies outside the extracode range. -/
  extOutside : vecExt.toNat < xcBase ∨ xcBase + 30 ≤ vecExt.toNat := by decide
  deriving Inhabited

/-- `VEC_INT`, `VEC_EXT` and `VEC_XC(x)` (R387, R402). -/
opaque Config.vectors : Vectors

/-- `VEC_INT` (R402). -/
def Config.vecInt : Addr := Config.vectors.vecInt

/-- `VEC_EXT` (R402). -/
def Config.vecExt : Addr := Config.vectors.vecExt

/-- `VEC_XC(x)` (R387). -/
def Config.vecXc (x : Extracode) : Addr :=
  BitVec.ofNat 15 (Config.vectors.xcBase + (Config.vectors.xcPlace x).val)

/-- A bit range of a 48-bit register: bits `lo` to `lo + width - 1`. -/
structure BitRange where
  lo : Nat
  width : Nat
  deriving DecidableEq, Repr, Inhabited

/-- The bits of a range as a mask. -/
def BitRange.mask (f : BitRange) : Word :=
  BitVec.ofNat 48 ((2 ^ f.width - 1) * 2 ^ f.lo)

/-- The default place of each source's bit, to show that distinct places exist. -/
def GrpSource.number : GrpSource → Fin 48
  | .cause .illegalOpcode => 0 | .cause .privilege => 1 | .cause .insnCheck => 2 | .cause .ramCheck => 3
  | .cause .insnProt => 4 | .cause .operandProt => 5 | .cause .breakpoint => 6 | .cause .watchpoint => 7
  | .cause .overflow => 8 | .cause .divZero => 9 | .timer => 10

/-- The layout of GRP: distinct cause bits, and auxiliary fields that overlap none of them (R401, R432). -/
structure GrpLayout where
  /-- The bit of `CAUSE_BIT(c)`. -/
  bit : GrpSource → Fin 48 := GrpSource.number
  /-- `AUX_FIELD(c)` where the cause has one. -/
  aux : Cause → Option BitRange := fun _ => none
  /-- The bits are distinct. -/
  bitInjective : ∀ x y, bit x = bit y → x = y := by
    intro x y h
    rcases x with c | _ <;> rcases y with d | _ <;>
      first | rfl | (cases c <;> first | (exact absurd h (by decide)) | (cases d <;> first | rfl | (exact absurd h (by decide)))) |
        (cases d <;> exact absurd h (by decide))
  /-- A field lies inside the register. -/
  auxInside : ∀ c f, aux c = some f → f.lo + f.width ≤ 48 := by intro c f h; simp at h
  /-- No field overlaps a cause bit. -/
  auxDisjoint : ∀ c f x, aux c = some f → (bit x).val < f.lo ∨ f.lo + f.width ≤ (bit x).val := by
    intro c f x h; simp at h
  deriving Inhabited

/-- `CAUSE_BIT(c)` and `AUX_FIELD(c)` (R401). -/
opaque Config.grpLayout : GrpLayout

/-- `CAUSE_BIT(x)` as a one-bit mask of GRP (R401, R432). -/
def Config.causeBit (x : GrpSource) : Word := BitVec.twoPow 48 (Config.grpLayout.bit x).val

/-- `AUX_FIELD(c)` (R401). -/
def Config.auxField (c : Cause) : Option BitRange := Config.grpLayout.aux c

/-- The bit of `PRP_CAUSE(kind, src)` (R440). -/
opaque Config.prpCauseBit : MsgKind → Nat → Fin 48

/-- `PRP_DATA(kind, src)`: the lowest of the four data bits (R440). -/
opaque Config.prpDataBit : MsgKind → Nat → Fin 45

/-- The special-register sub-operations whose selector the spec leaves OPEN (45_special_register.md R341), but
PTR_WRITE_S, which takes eight selectors. -/
inductive OpenSubop where
  | prpRead | flush | sendReq | sendRsp | recvReq | recvRsp | cpuId | timer | claim
  deriving DecidableEq, Repr, Inhabited

/-- The selectors the spec assigns by number: WB_WRITE, PTR_WRITE_U, PROT_WRITE and the interrupt registers,
CONTROL, the unimplemented range, WB_READ, GRP_READ (R341). -/
def knownSelector (s : BitVec 8) : Bool :=
  decide (s.toNat < 0o010) || (decide (0o020 ≤ s.toNat) && decide (s.toNat < 0o040)) ||
  (decide (0o100 ≤ s.toNat) && decide (s.toNat < 0o210)) || s == 0o237

/-- The OPEN selectors: distinct from each other and from the numbered rows (R341). -/
structure SubopCodes where
  /-- `SUBOP_CODE(PTR_WRITE_S)`, the selector for register 0; register `i` has this plus `i`. -/
  ptrWriteS : BitVec 8 := 0o010
  /-- The selector of each other OPEN sub-operation. -/
  code : OpenSubop → BitVec 8 := fun
    | .prpRead => 0o040 | .flush => 0o041 | .sendReq => 0o042 | .sendRsp => 0o043 | .recvReq => 0o044
    | .recvRsp => 0o045 | .cpuId => 0o046 | .timer => 0o047 | .claim => 0o050
  /-- The eight PTR_WRITE_S selectors are selectors. -/
  ptrInRange : ptrWriteS.toNat + 8 ≤ 256 := by decide
  /-- None of them is a numbered row. -/
  ptrFree : ∀ i : Fin 8, knownSelector (BitVec.ofNat 8 (ptrWriteS.toNat + i.val)) = false := by decide
  /-- No other OPEN selector is a numbered row. -/
  codeFree : ∀ o, knownSelector (code o) = false := by intro o; cases o <;> decide
  /-- No other OPEN selector is a PTR_WRITE_S selector. -/
  codeNotPtr : ∀ o, (code o).toNat < ptrWriteS.toNat ∨ ptrWriteS.toNat + 8 ≤ (code o).toNat := by
    intro o; cases o <;> decide
  /-- The other OPEN selectors are distinct. -/
  codeInjective : ∀ x y, code x = code y → x = y := by
    intro x y h; cases x <;> cases y <;> first | rfl | (exact absurd h (by decide))
  deriving Inhabited

/-- `SUBOP_CODE(name)` (R341). -/
opaque Config.subopCodes : SubopCodes

/-- The processors: `N_CPUS ≥ 1`, which of them this one is, and their distinct identities (R7, R442). -/
structure Topology where
  /-- `N_CPUS`. -/
  nCpus : Nat := 1
  /-- The number of this processor. -/
  self : Nat := 0
  /-- `CPU_ID(k)`. -/
  cpuId : Nat → Word := fun _ => 0
  /-- This processor exists. -/
  selfExists : self < nCpus := by decide
  /-- "`CPU_ID(self)` is distinct per processor" (R442). -/
  idInjective : ∀ j k, j < nCpus → k < nCpus → cpuId j = cpuId k → j = k := by intro j k hj hk _; omega
  deriving Inhabited

/-- `N_CPUS`, `CPU_ID(k)` and the number of this processor (R7). -/
opaque Config.topology : Topology

/-- `IPC_DST(EA, ACC)`: the processor a send names (R350). -/
opaque Config.ipcDst : Addr → Word → Nat

/-- `IPC_SRC(EA, ACC)`: the processor a receive names (R351). -/
opaque Config.ipcSrc : Addr → Word → Nat

/-- `EXEMPT_LIMIT` (R101). -/
opaque Config.exemptLimit : Nat

/-- `CLAIM_BIT` (R357). -/
opaque Config.claimBit : Fin 48

/-- `TIMER_TICKS(v)` (R353). -/
opaque Config.timerTicks : Word → Nat

/-- The lowest resolved address of `DIAG_RANGE` (R114). -/
opaque Config.diagLow : Key

/-- The highest resolved address of `DIAG_RANGE` (R114). -/
opaque Config.diagHigh : Key

/-- `TIMING(op)`: the control-unit and arithmetic-unit estimates, for a half that transferred control and for one
that did not (R195). -/
opaque Config.timing : Op → Bool → Nat × Nat

/-! ## The arithmetic primitives (41_arithmetic.md R220)

Each depends on RAU, ACC, RMR and its argument alone. The result types say which primitive may overflow and which
may report a zero divisor. -/

/-- The result of a primitive that may overflow. -/
inductive ArithResult where
  | ok (acc rmr : Word)
  | overflow
  deriving DecidableEq, Repr, Inhabited

/-- The result of the division primitive. -/
inductive DivResult where
  | ok (acc rmr : Word)
  | overflow
  | divZero
  deriving DecidableEq, Repr, Inhabited

/-- `F_ADD`: ACC + X. -/
opaque Config.fAdd : BitVec 6 → Word → Word → Word → ArithResult

/-- `F_SUB`: ACC - X. -/
opaque Config.fSub : BitVec 6 → Word → Word → Word → ArithResult

/-- `F_RSUB`: X - ACC. -/
opaque Config.fRsub : BitVec 6 → Word → Word → Word → ArithResult

/-- `F_AMX`: the difference of magnitudes. -/
opaque Config.fAmx : BitVec 6 → Word → Word → Word → ArithResult

/-- `F_SIGN`: the sign change by operand. -/
opaque Config.fSign : BitVec 6 → Word → Word → Word → ArithResult

/-- `F_MUL`. -/
opaque Config.fMul : BitVec 6 → Word → Word → Word → ArithResult

/-- `F_DIV` on a non-zero operand; a zero operand is `DivZero` by R241 (log 11). -/
opaque Config.fDiv : BitVec 6 → Word → Word → Word → DivResult

/-- `F_EADD`: exponent adjustment by an integer. -/
opaque Config.fEadd : BitVec 6 → Word → Word → Int → ArithResult

/-- `F_YTA`: the remainder with its exponent adjusted. -/
opaque Config.fYta : BitVec 6 → Word → Word → Int → ArithResult

/-- `F_SHIFT`: ACC' and RMR' of a shift. -/
opaque Config.fShift : BitVec 6 → Word → Word → Int → Word × Word

/-- `F_PACK`: ACC' and RMR' of a pack. -/
opaque Config.fPack : BitVec 6 → Word → Word → Word → Word × Word

/-- `F_UNPACK`: ACC' and RMR' of an unpack. -/
opaque Config.fUnpack : BitVec 6 → Word → Word → Word → Word × Word

/-- `F_LZC`: ACC' and RMR' of a leading-zero count. -/
opaque Config.fLzc : BitVec 6 → Word → Word → Word → Word × Word

/-! ## Free values -/

/-- The free values the spec calls draws (R13): the `n`-th one used is `Config.draw n` (log 7). -/
opaque Config.draw : Nat → Word

end Sys2Proof
end

