-- ==== Sys2Proof/Machine/State.lean ====
section
/-!
DEFINITION. The machine state (10_state.md), the ways a step can stop, and the state right after reset
(70_reset_and_hazards.md R460). State is plain data.
-/

namespace Sys2Proof.Machine

/-- The internal part of the control-mode register (R40). -/
structure Ruu where
  /-- `EXTRACODE`: extracode mode. -/
  extracode : Bool
  /-- `INTERRUPT`: interrupt mode. -/
  interrupt : Bool
  /-- `RIGHT`: the right half is live. -/
  right : Bool
  /-- `MOD_PENDING`: the next half's address field is modified. -/
  modPending : Bool
  /-- `AVOST_DISABLE`: stored, without a function (90_conflicts.md C2). -/
  avostDisable : Bool
  /-- `CONVOL_RIGHT`: selects the tag written by stores. -/
  convolRight : Bool
  /-- `CONVOL_LEFT`: selects the tag written by stores. -/
  convolLeft : Bool
  deriving DecidableEq, Repr

/-- A write-buffer line (R45). -/
structure WbLine where
  valid : Bool
  key : Key
  phys : Phys
  word : Word
  tag : Tag
  deriving DecidableEq, Repr

/-- The write buffer: 8 lines, 28 pair bits (bit of `(i, j)`, `i < j`, set when line `i` is the more recent), and
the cached oldest pointer (R45, R130). -/
structure WriteBuffer where
  lines : Vector WbLine 8
  newer : BitVec 28
  oldest : Fin 8
  deriving DecidableEq, Repr

/-- A prefetch-cache line (R46). -/
structure PfLine where
  valid : Bool
  key : Key
  word : Word
  tag : Tag
  deriving DecidableEq, Repr

/-- The prefetch cache: 4 lines, 6 pair bits, and the cached oldest pointer (R46, R130). -/
structure Prefetch where
  lines : Vector PfLine 4
  newer : BitVec 6
  oldest : Fin 4
  deriving DecidableEq, Repr

/-- One cell of physical memory: a word with its tag (R47). -/
structure MemCell where
  word : Word
  tag : Tag
  deriving DecidableEq, Repr

/-- Physical memory: the cells that differ from what an unlisted address reads as, addresses strictly rising (log 1). -/
abbrev Memory := List (Nat × MemCell)

/-- The in-flight stack correction, an integer in -1, 0, +1 (R49). -/
inductive Corr where
  | minusOne | zero | plusOne
  deriving DecidableEq, Repr

/-- The interval timer (R52). -/
structure Timer where
  armed : Bool
  deadline : Nat
  deriving DecidableEq, Repr

/-- One byte of a mailbox with its full flag (R53). -/
structure MailByte where
  byte : BitVec 8
  full : Bool
  deriving DecidableEq, Repr

/-- The mailbox of one source processor (R53). -/
structure Mailbox where
  request : MailByte
  response : MailByte
  deriving DecidableEq, Repr

/-- An entry of the channel for the ordered processor pair `(src, dst)` (R440). -/
structure Message where
  src : Nat
  dst : Nat
  kind : MsgKind
  byte : BitVec 8
  deriving DecidableEq, Repr

/-- A register of 10_state.md with the value the host gives it (R434, R466; log 38). -/
inductive HostWrite where
  | acc (v : Word)
  | rmr (v : Word)
  | m (j : BitVec 5) (v : Key)
  | pc (v : Addr)
  | rau (v : BitVec 6)
  | ruu (v : Ruu)
  | grp (v : Word)
  | mgrp (v : Word)
  | prp (v : Word)
  | mprp (v : Word)
  | rpU (i : Fin 8) (v : Word)
  | rpS (i : Fin 8) (v : Word)
  | rz (v : BitVec 32)
  | trapping (v : Bool)
  | clock (v : Nat)
  | timer (v : Timer)
  deriving DecidableEq, Repr

/-- What an agent does at its turn (R30, R442; log 14). -/
inductive Input where
  /-- The processor takes a step. -/
  | cpu
  /-- Devices set bits of GRP and PRP (R430). That any bit may be a device's is the model's choice (log 42). -/
  | device (grp prp : Word)
  /-- Another processor's send puts an entry in its channel (R350, R440). That the entry may name any sender and any
  receiver is the model's choice (log 43). -/
  | send (m : Message)
  /-- The delivery agent removes the oldest entry of the channel `(src, dst)` and delivers it (R440). -/
  | deliver (src dst : Nat)
  /-- Another processor, or the host, writes a cell of the shared memory (R141, R466). -/
  | memWrite (p : Phys) (c : MemCell)
  /-- The host halts the processor (R434); one that is halted already gets the code `HOST`, the model's choice (log 41). -/
  | hostHalt
  /-- The host resets the processor (R460). -/
  | hostReset
  /-- The host resumes a halted processor, its state unchanged but for the halt record, whose stop code is dropped
  (R51, R420; log 36, log 41). -/
  | hostResume
  /-- The host sets a register of the halted processor (R434, R466; log 38). -/
  | hostSet (w : HostWrite)
  deriving DecidableEq, Repr

/-- The stop codes (R193, R420). -/
inductive StopCode where
  /-- The stop instruction in supervisor mode (R386). -/
  | stop
  /-- Falling past the end of the address space (R188). -/
  | runout
  /-- A fault while one is being delivered (R416). -/
  | doubleFault
  /-- A case the reference declines to implement (R347); the model refuses it and never records this code (log 19). -/
  | unimplemented
  /-- A host-requested halt (R434). -/
  | host
  /-- An internal cause redirected to a halt (R421). -/
  | haltOn (c : Cause)
  deriving DecidableEq, Repr

/-- The two OPEN parameters of R7 that the machine computes with, held as data so that every statement over all states
holds for every value of them. No step changes them (log 10). -/
structure Setup where
  /-- The base-2 logarithm of `PHYS_PAGES`, "a power of two"; an 11-bit page number reaches 2048 pages (R7, R90). -/
  pagesLog : Fin 12
  /-- `GRP_WIRED`: the GRP bits that the clear sub-operation cannot clear (R7, R345). -/
  grpWired : Word
  deriving DecidableEq, Repr

/-- Why the model has no meaning for a step. -/
inductive Refusal where
  /-- Raised by `exec` for an instruction without a meaning yet. Safe. -/
  | notModelled (mnemonic : String)
  /-- Raised by `EXT32` and `EXT33` in supervisor mode: "the half is refused ...: device I/O is outside the core"
  (R358). Safe. -/
  | deviceCommand
  /-- Raised by `MOD` with a selector in 0140..0177: "a model should treat reaching this stop as a refusal" (R347).
  Safe. -/
  | unimplementedSubop
  /-- Raised in disable-cache mode by a store whose resolved address lies in `DIAG_RANGE` (R114). Safe. -/
  | diagnosticStore
  deriving DecidableEq, Repr

/-- The state of one processor with the shared memory and the channels it takes part in (10_state.md R30..R53). -/
structure State where
  /-- The parameters of the machine that stand in State (R7, log 10). -/
  setup : Setup
  /-- The accumulator (R31). -/
  acc : Word
  /-- The remainder register (R31). -/
  rmr : Word
  /-- `M[001]`..`M[017]`, `M[i]` at index `i - 1`; index 14 is the stack pointer (R32). `M[000]` has no storage. -/
  gen : Vector Addr 15
  /-- `M[020]`: the address-modifier register (R32). -/
  mod : Addr
  /-- `M[021]`: the control-mode register, software-visible part (R36). -/
  psw : Addr
  /-- `M[022]`: plain storage (R32). -/
  m22 : Addr
  /-- `M[023]`: plain storage (R32). -/
  m23 : Addr
  /-- `M[024]`: plain storage (R32). -/
  m24 : Addr
  /-- `M[025]`: plain storage (R32). -/
  m25 : Addr
  /-- `M[026]`: plain storage (R32). -/
  m26 : Addr
  /-- `M[027]`: the saved control-mode snapshot (R38). -/
  spsw : Addr
  /-- `M[030]`: a return register (R32). -/
  ret0 : Addr
  /-- `M[031]`: a return register (R32). -/
  ret1 : Addr
  /-- `M[032]`: the extracode return address (R32). -/
  eret : Addr
  /-- `M[033]`: the interrupt return address (R32). -/
  iret : Addr
  /-- `M[034]`: the instruction-breakpoint address, 16 bits (R32). -/
  ibp : Key
  /-- `M[035]`: the data-watchpoint address, 16 bits (R32). -/
  dwp : Key
  /-- `M[036]`: plain storage (R32). -/
  m36 : Addr
  /-- `M[037]`: plain storage (R32). -/
  m37 : Addr
  /-- The program counter: the word address of the live half (R34). -/
  pc : Addr
  /-- The arithmetic-mode register (R35). -/
  rau : BitVec 6
  /-- The internal part of the control-mode register (R40). -/
  ruu : Ruu
  /-- The main interrupt register (R41). -/
  grp : Word
  /-- The mask of GRP (R41). -/
  mgrp : Word
  /-- The peripheral interrupt register (R42). -/
  prp : Word
  /-- The mask of PRP (R42). -/
  mprp : Word
  /-- `RP_U[0..7]`: the packed user page table (R43). -/
  rpU : Vector Word 8
  /-- `RP_S[0..7]`: the packed supervisor page table (R43). -/
  rpS : Vector Word 8
  /-- The protection register (R44). -/
  rz : BitVec 32
  /-- The write buffer (R45). -/
  wb : WriteBuffer
  /-- The prefetch cache (R46). -/
  pf : Prefetch
  /-- Physical memory (R47). -/
  mem : Memory
  /-- `TRAPPING`: an internal fault is being delivered (R48). -/
  trapping : Bool
  /-- `CORR`: the stack correction of the current half (R49). -/
  corr : Corr
  /-- `NEXT_MOD`: the modifier the current half installs at commit (R50). -/
  nextMod : Option Addr
  /-- `JUMPED`: the current half transferred control (R50). -/
  jumped : Bool
  /-- `HALTED` with `STOP_CODE` (R51): `some code` when halted. That no code is held while not halted, after reset and
  after a resume alike, is the model's choice (log 41). -/
  halted : Option StopCode
  /-- The refusal mark with its reason, "kept for the whole state" (R194, R460; log 19). -/
  refusalMark : Option Refusal
  /-- `CLOCK` in event ticks (R52). -/
  clock : Nat
  /-- `TIMER` (R52). -/
  timer : Timer
  /-- `MBOX_IN[src]`: the mailboxes that are not empty and unwritten, sources strictly rising (R53). -/
  mbox : List (Nat × Mailbox)
  /-- The channels to and from this processor, oldest entry first (R440). -/
  chan : List Message
  /-- The model's own counter of free values used (R13, log 7). -/
  draws : Nat
  /-- The model's own tape of who moves next; an empty tape is the processor's turn (log 14). -/
  inputs : List Input
  deriving DecidableEq, Repr

/-- Why a step stops the machine. -/
inductive Fault where
  /-- Raised by `step` on a halted processor: "a halted processor takes no step" (R51, R420; 93 U21). Safe: the
  model goes nowhere where the hardware waits for its host. -/
  | halted (code : StopCode)
  deriving DecidableEq, Repr

/-- What a cell reads as that memory does not list (log 1). -/
def MemCell.unlisted : MemCell := ⟨0, 0⟩

/-- The mailbox of a source that has delivered nothing since reset (R53; the bytes are log 5). -/
def Mailbox.empty : Mailbox := ⟨⟨0, false⟩, ⟨0, false⟩⟩

/-- An invalid write-buffer line after reset (R45; its contents are log 4). -/
def WbLine.empty : WbLine := ⟨false, 0, 0, 0, 0⟩

/-- An invalid prefetch line after reset (R46; its contents are log 4). -/
def PfLine.empty : PfLine := ⟨false, 0, 0, 0⟩

/-- The write buffer after reset (R45). -/
def WriteBuffer.empty : WriteBuffer := ⟨Vector.replicate 8 WbLine.empty, 0, 0⟩

/-- The prefetch cache after reset (R46). -/
def Prefetch.empty : Prefetch := ⟨Vector.replicate 4 PfLine.empty, 0, 0⟩

/-- The machine right after reset (R460). The values the spec leaves open are named in log 1 to 7,
10 (the setup), 14 (the tape), 15 (the channels) and 41 (no stop code). -/
def State.reset : State where
  setup := ⟨10, 0⟩
  acc := 0
  rmr := 0
  gen := Vector.replicate 15 0
  mod := 0
  psw := 0o2017
  m22 := 0
  m23 := 0
  m24 := 0
  m25 := 0
  m26 := 0
  spsw := 0o2007
  ret0 := 0
  ret1 := 0
  eret := 0
  iret := 0
  ibp := 0
  dwp := 0
  m36 := 0
  m37 := 0
  pc := 1
  rau := 0
  ruu := ⟨true, false, false, false, true, false, false⟩
  grp := 0
  mgrp := 0
  prp := 0
  mprp := 0
  rpU := Vector.replicate 8 0
  rpS := Vector.replicate 8 0
  rz := 0
  wb := WriteBuffer.empty
  pf := Prefetch.empty
  mem := []
  trapping := false
  corr := .zero
  nextMod := none
  jumped := false
  halted := none
  refusalMark := none
  clock := 0
  timer := ⟨false, 0⟩
  mbox := []
  chan := []
  draws := 0
  inputs := []

/-- An internal fault on its way to the recovery point: its cause and its auxiliary data (R12). -/
structure Trap where
  cause : Cause
  aux : Option Nat
  deriving DecidableEq, Repr

/-- How a part of a half ends: with a value, or with a fault raised in the state reached so far (R12, R187). -/
inductive Res (α : Type) where
  | ok (a : α) (s : State)
  | raised (f : Trap) (s : State)
  deriving Repr

end Sys2Proof.Machine
end

