-- ==== Sys2Proof/Machine/Params.lean ====
section
/-!
DEFINITION. The parameters of 00_scope.md R7 that the spec does not leave to Config. `PHYS_PAGES` and `GRP_WIRED` are OPEN
and stand in `State.setup`. Each other one stands at the default the spec gives it; where the spec names another value,
the code that reads the parameter covers it (log 10).
-/

namespace Sys2Proof.Machine

/-- `PHYS_PAGES`, "a power of two" (R7): the OPEN value that the setup holds. -/
def physPages (s : State) : Nat := 2 ^ s.setup.pagesLog.val

/-- `MEM_WORDS` (R7). -/
def memWords (s : State) : Nat := physPages s * 1024

/-- The readings of `PROT_INDEX` (R102). -/
inductive ProtIndexKind where
  | logical | physical
  deriving DecidableEq, Repr

/-- `PROT_INDEX` (R102, D15). -/
def Params.protIndex : ProtIndexKind := .logical

/-- `ACCEPTED_LOAD_TAGS`: NUMBER and 0 (R106, D26). -/
def Params.acceptedLoadTag (t : Tag) : Bool := t == tagNumber || t == 0

/-- `LOAD_ZERO`: what a load from logical address 0 returns (R115, D27). -/
def Params.loadZero : MemCell := ⟨0, tagNumber⟩

/-- `LOAD_WATCH`: loads compare the watchpoint register (R103, D28). -/
def Params.loadWatch : Bool := true

/-- `LOAD_HIT_REFRESH`: a load hit refreshes recency (R115, D21). -/
def Params.loadHitRefresh : Bool := false

/-- `PF_OLDEST_QUIRK`: a prefetch hit on the oldest line is not refreshed (R121, D22). -/
def Params.pfOldestQuirk : Bool := false

/-- `FETCH_SEES_WB`: a fetch miss consults the write buffer (R121, D23). -/
def Params.fetchSeesWb : Bool := false

/-- `STORE_INVALIDATES_PF`: a store clears a matching prefetch line (R143, D23). -/
def Params.storeInvalidatesPf : Bool := false

/-- `WB_ENABLED`: the write buffer is in use (R114, D24). -/
def Params.wbEnabled : Bool := true

/-- `RESET_WB`: a reset flushes the write buffer rather than discarding it (R460, 90_conflicts.md C8). -/
def Params.resetFlushes : Bool := true

/-- `BANK_OF(p)`: the bank index a load check reports (R106, D56). -/
def Params.bankOf (p : Phys) : Nat := p.toNat / 1024

end Sys2Proof.Machine
end

