-- ==== Sys2Proof/Machine/Memory.lean ====
section
/-!
DEFINITION. Physical memory and the mailboxes as sparse lists in one canonical form: keys strictly rising, no entry
equal to what an unlisted key reads as (log 1, log 5).
-/

namespace Sys2Proof.Machine

/-- The value of a key, `d` where the list has none. -/
def sparseGet {α : Type} (d : α) : List (Nat × α) → Nat → α
  | [], _ => d
  | (k, v) :: l, n => if n = k then v else sparseGet d l n

/-- The list with a key given a value; giving a key the value `d` removes it. -/
def sparseSet {α : Type} [DecidableEq α] (d : α) (n : Nat) (v : α) : List (Nat × α) → List (Nat × α)
  | [] => if v = d then [] else [(n, v)]
  | (k, w) :: l =>
    if n < k then (if v = d then (k, w) :: l else (n, v) :: (k, w) :: l)
    else if n = k then (if v = d then l else (n, v) :: l)
    else (k, w) :: sparseSet d n v l

/-- The canonical form. -/
abbrev sparseWf {α : Type} [DecidableEq α] (d : α) (l : List (Nat × α)) : Prop :=
  l.Pairwise (fun a b => a.1 < b.1) ∧ ∀ c ∈ l, c.2 ≠ d

/-- Memory has its canonical form. -/
abbrev Memory.wf (m : Memory) : Prop := sparseWf MemCell.unlisted m

/-- `MemRead(p, 1)` (R11, R47). -/
def memRead (p : Phys) (s : State) : MemCell := sparseGet MemCell.unlisted s.mem p.toNat

/-- `MemWrite(p, 1, (w, t))` (R11, R47). -/
def memWrite (p : Phys) (c : MemCell) (s : State) : State :=
  { s with mem := sparseSet MemCell.unlisted p.toNat c s.mem }

/-- `MBOX_IN[src]` (R53). -/
def mailbox (src : Nat) (s : State) : Mailbox := sparseGet Mailbox.empty s.mbox src

/-- `MBOX_IN[src]` written. -/
def setMailbox (src : Nat) (b : Mailbox) (s : State) : State :=
  { s with mbox := sparseSet Mailbox.empty src b s.mbox }

/-- The byte of a kind in a mailbox (R53). -/
def Mailbox.byteOf (b : Mailbox) : MsgKind → MailByte
  | .request => b.request
  | .response => b.response

/-- The byte of a kind in a mailbox written. -/
def Mailbox.withByte (b : Mailbox) (k : MsgKind) (v : MailByte) : Mailbox :=
  match k with
  | .request => { b with request := v }
  | .response => { b with response := v }

end Sys2Proof.Machine
end

