-- ==== Sys2Proof/Machine/Bits.lean ====
section
/-!
DEFINITION. Bit-field helpers and the exact 48-bit sums of the arithmetic rules (R246, R253).
-/

namespace Sys2Proof.Machine

/-- One bit of a flag word set or cleared. -/
def putBit {w : Nat} (v : BitVec w) (i : Nat) (b : Bool) : BitVec w :=
  if b then v ||| BitVec.twoPow w i else v &&& ~~~(BitVec.twoPow w i)

/-- A flag as a one-bit number in bit `i` of a word of width `w`. -/
def flagBit (w i : Nat) (b : Bool) : BitVec w :=
  if b then BitVec.twoPow w i else 0

/-- 48-bit addition with the carry out of bit 47 added back in at bit 0 (R246, R253). -/
def endAroundAdd (a b : Word) : Word :=
  let s : BitVec 49 := a.setWidth 49 + b.setWidth 49
  s.setWidth 48 + (if s.getLsbD 48 then 1 else 0)

/-- The number of one bits of a word (R253). -/
def popcount (w : Word) : Nat :=
  (List.range 48).countP fun i => w.getLsbD i

end Sys2Proof.Machine
end

