-- ==== Sys2Proof/Machine/Regs.lean ====
section
/-!
DEFINITION. The register file and the fields of the mode registers (10_state.md R32..R40).
-/

namespace Sys2Proof.Machine

/-- `PSW.MMAP_DISABLE` (R36). -/
def mmapDisable (s : State) : Bool := s.psw.getLsbD 0

/-- `PSW.PROT_DISABLE` (R36). -/
def protDisable (s : State) : Bool := s.psw.getLsbD 1

/-- `PSW.INTR_HALT` (R36). -/
def intrHalt (s : State) : Bool := s.psw.getLsbD 2

/-- `PSW.CHECK_HALT` (R36). -/
def checkHalt (s : State) : Bool := s.psw.getLsbD 3

/-- `PSW.WRITE_WATCH` (R36). -/
def writeWatch (s : State) : Bool := s.psw.getLsbD 4

/-- `PSW.INTR_DISABLE` (R36). -/
def intrDisable (s : State) : Bool := s.psw.getLsbD 10

/-- The three PSW bits that trap entry saves and sets and that the return restores (R36, R411). -/
def pswDisables : Addr := 0o2003

/-- PSW with its three disable bits written (R286, R287, R385). -/
def pswWithDisables (psw : Addr) (mmap prot intr : Bool) : Addr :=
  putBit (putBit (putBit psw 0 mmap) 1 prot) 10 intr

/-- "supervisor mode is true iff either the extracode or interrupt mode bit is set" (R40). -/
def supervisor (s : State) : Bool := s.ruu.extracode || s.ruu.interrupt

/-- `M[r]` for the 4-bit index field; `M[0]` reads 0 (R33). -/
def idx (r : Idx) (s : State) : Addr :=
  if r = 0 then 0 else s.gen[r.toNat - 1]'(by have := r.isLt; omega)

/-- `M[r] <- v` for the 4-bit index field; a write to `M[0]` is discarded (R33). -/
def setIdx (r : Idx) (v : Addr) (s : State) : State :=
  if r = 0 then s else { s with gen := s.gen.set (r.toNat - 1) v (by have := r.isLt; omega) }

/-- The index field of the stack pointer. -/
def spIdx : Idx := 15

/-- The stack pointer `M[017]` (R32). -/
def sp (s : State) : Addr := idx spIdx s

/-- `SP <- v`. -/
def setSp (v : Addr) (s : State) : State := setIdx spIdx v s

/-- `M[j]` for a 5-bit selector, as 16 bits: only IBP and DWP can have bit 15 (R32, R33). -/
def readM (j : BitVec 5) (s : State) : Key :=
  match j.toNat with
  | 0o20 => s.mod.setWidth 16
  | 0o21 => s.psw.setWidth 16
  | 0o22 => s.m22.setWidth 16
  | 0o23 => s.m23.setWidth 16
  | 0o24 => s.m24.setWidth 16
  | 0o25 => s.m25.setWidth 16
  | 0o26 => s.m26.setWidth 16
  | 0o27 => s.spsw.setWidth 16
  | 0o30 => s.ret0.setWidth 16
  | 0o31 => s.ret1.setWidth 16
  | 0o32 => s.eret.setWidth 16
  | 0o33 => s.iret.setWidth 16
  | 0o34 => s.ibp
  | 0o35 => s.dwp
  | 0o36 => s.m36.setWidth 16
  | 0o37 => s.m37.setWidth 16
  | _ => (idx (j.setWidth 4) s).setWidth 16

/-- `M[j] <- v` for a 5-bit selector; "writes to 15-bit slots keep the low 15 bits" (R33). -/
def writeM (j : BitVec 5) (v : Key) (s : State) : State :=
  match j.toNat with
  | 0o20 => { s with mod := v.setWidth 15 }
  | 0o21 => { s with psw := v.setWidth 15 }
  | 0o22 => { s with m22 := v.setWidth 15 }
  | 0o23 => { s with m23 := v.setWidth 15 }
  | 0o24 => { s with m24 := v.setWidth 15 }
  | 0o25 => { s with m25 := v.setWidth 15 }
  | 0o26 => { s with m26 := v.setWidth 15 }
  | 0o27 => { s with spsw := v.setWidth 15 }
  | 0o30 => { s with ret0 := v.setWidth 15 }
  | 0o31 => { s with ret1 := v.setWidth 15 }
  | 0o32 => { s with eret := v.setWidth 15 }
  | 0o33 => { s with iret := v.setWidth 15 }
  | 0o34 => { s with ibp := v }
  | 0o35 => { s with dwp := v }
  | 0o36 => { s with m36 := v.setWidth 15 }
  | 0o37 => { s with m37 := v.setWidth 15 }
  | _ => setIdx (j.setWidth 4) (v.setWidth 15) s

/-- The register a transfer instruction selects: the low 5 bits of an address in supervisor mode, the low 4
otherwise (R33). -/
def selector (x : Addr) (s : State) : BitVec 5 :=
  if supervisor s then x.setWidth 5 else (x.setWidth 4).setWidth 5

/-- The return register the low two bits of the index field select (R385). -/
def returnRegister (r : Idx) (s : State) : Addr :=
  match (r.setWidth 2).toNat with
  | 0 => s.ret0
  | 1 => s.ret1
  | 2 => s.eret
  | _ => s.iret

end Sys2Proof.Machine
end

