-- ==== Sys2Proof/Machine/Mmu.lean ====
section
/-!
DEFINITION. Address resolution, the page tables, translation, and the checks of an access (20_memory.md R81..R107).
-/

namespace Sys2Proof.Machine

/-- `Resolve(a)` (R82). -/
def resolve (a : Addr) (s : State) : Key :=
  if supervisor s || mmapDisable s then 0o100000#16 ||| a.setWidth 16 else a.setWidth 16

/-- `entry(R, e)` of the layout `PTR_LAYOUT` (R90). -/
def pageEntry (R : Word) (e : Nat) : BitVec 11 :=
  BitVec.ofBool (R.getLsbD (44 + e)) ++ BitVec.ofBool (R.getLsbD (40 + e)) ++ BitVec.ofBool (R.getLsbD (36 + e)) ++
  BitVec.ofBool (R.getLsbD (32 + e)) ++ BitVec.ofBool (R.getLsbD (28 + e)) ++ BitVec.ofBool (R.getLsbD (24 + e)) ++
  R.extractLsb' (5 * e) 5

/-- Nibble `h` of a packed register: high bit `h` of each of the four entries (R92). -/
def packNibble (p0 p1 p2 p3 : BitVec 11) (h : Nat) : BitVec 4 :=
  BitVec.ofBool (p3.getLsbD (5 + h)) ++ BitVec.ofBool (p2.getLsbD (5 + h)) ++ BitVec.ofBool (p1.getLsbD (5 + h)) ++
  BitVec.ofBool (p0.getLsbD (5 + h))

/-- `pack(p0, p1, p2, p3)` (R92). -/
def packEntries (p0 p1 p2 p3 : BitVec 11) : Word :=
  packNibble p0 p1 p2 p3 5 ++ packNibble p0 p1 p2 p3 4 ++ packNibble p0 p1 p2 p3 3 ++ packNibble p0 p1 p2 p3 2 ++
  packNibble p0 p1 p2 p3 1 ++ packNibble p0 p1 p2 p3 0 ++ 0#4 ++
  p3.extractLsb' 0 5 ++ p2.extractLsb' 0 5 ++ p1.extractLsb' 0 5 ++ p0.extractLsb' 0 5

/-- `PHYS_PAGES - 1` as the mask of a page number (R91). -/
def pageMask (s : State) : BitVec 11 := BitVec.ofNat 11 (physPages s - 1)

/-- The logical page of a resolved address: bits 14..10 (R83). -/
def pageOf (k : Key) : BitVec 5 := k.extractLsb' 10 5

/-- An entry of the table unpacked from the registers `rp` (R91). -/
def tlbEntry (rp : Vector Word 8) (page : BitVec 5) (s : State) : BitVec 11 :=
  pageEntry (rp[page.toNat / 4]'(by have := page.isLt; omega)) (page.toNat % 4) &&& pageMask s

/-- The packed registers of the table a resolved address goes through (R83). -/
def tableOf (k : Key) (s : State) : Vector Word 8 := if k.getLsbD 15 then s.rpS else s.rpU

/-- `Translate(k)` (R83). -/
def translate (k : Key) (s : State) : Phys :=
  tlbEntry (tableOf k s) (pageOf k) s ++ k.extractLsb' 0 10

/-- `Exempt(a)` (R101). -/
def exempt (a : Addr) (s : State) : Bool :=
  supervisor s && mmapDisable s && decide (a.toNat < Config.exemptLimit)

/-- `ProtIndex(a)` (R102). -/
def protIndex (a : Addr) (s : State) : Option Nat :=
  match Params.protIndex with
  | .logical => some (a.extractLsb' 10 5).toNat
  | .physical =>
    let p := (translate (resolve a s) s).toNat / 1024
    if p < 32 then some p else none

/-- `ProtCheck(a)`: the fault it raises (R100). -/
def protFault (a : Addr) (s : State) : Option Trap :=
  if protDisable s then none
  else if exempt a s then none
  else match protIndex a s with
    | some i => if s.rz.getLsbD i then some ⟨.operandProt, some i⟩ else none
    | none => none

/-- `WatchCheck(k)`: the fault it raises (R103). -/
def watchFault (k : Key) (s : State) : Option Trap :=
  if writeWatch s && s.dwp == k then some ⟨.watchpoint, none⟩ else none

/-- `StoreTag()` (R107). -/
def storeTag (s : State) : Tag :=
  tagNumber ^^^ (BitVec.ofBool s.ruu.convolLeft ++ BitVec.ofBool s.ruu.convolRight)

end Sys2Proof.Machine
end

