-- ==== Sys2Proof/Machine/Recency.lean ====
section
/-!
DEFINITION. The pairwise recency relation of the two caches (20_memory.md R130..R132), for `n` lines.
-/

namespace Sys2Proof.Machine

/-- The number of the pair `(i, j)`, `i < j`, in lexicographic order (R130). -/
def pairIndex (n i j : Nat) : Nat := i * n - i * (i + 1) / 2 + (j - i - 1)

/-- Line `i` is more recent than line `j`, for `i ≠ j` (R130). -/
def newer {w : Nat} (n : Nat) (bits : BitVec w) (i j : Nat) : Bool :=
  if i < j then bits.getLsbD (pairIndex n i j) else !bits.getLsbD (pairIndex n j i)

/-- The pair bits that say "line `i` is more recent" when set: those of the pairs `(i, j)`. -/
def onesOf (n w i : Nat) : BitVec w :=
  (List.range n).foldl (fun b j => if i < j then b ||| BitVec.twoPow w (pairIndex n i j) else b) 0

/-- The pair bits that say "line `i` is more recent" when clear: those of the pairs `(j, i)`. -/
def zerosOf (n w i : Nat) : BitVec w :=
  (List.range n).foldl (fun b j => if j < i then b ||| BitVec.twoPow w (pairIndex n j i) else b) 0

/-- "For every line `j ≠ i`, set 'i more recent than j'" (R131). -/
def touchBits {w : Nat} (n : Nat) (bits : BitVec w) (i : Nat) : BitVec w :=
  (bits ||| onesOf n w i) &&& ~~~(zerosOf n w i)

/-- Every other line is more recent than line `o` (R132). -/
def isOldest {w : Nat} (n : Nat) (bits : BitVec w) (o : Nat) : Bool :=
  (List.range n).all fun j => j == o || newer n bits j o

/-- The line every other line is more recent than (R132); the pointer stays where the relation has none (log 21). -/
def oldestOf {w : Nat} (n : Nat) (bits : BitVec w) (current : Fin n) : Fin n :=
  match (List.range n).find? (isOldest n bits) with
  | some o => if h : o < n then ⟨o, h⟩ else current
  | none => current

/-- `Touch(WB, i)` (R131). -/
def wbTouch (i : Fin 8) (b : WriteBuffer) : WriteBuffer :=
  let bits := touchBits 8 b.newer i
  { b with newer := bits, oldest := oldestOf 8 bits b.oldest }

/-- `Touch(PF, i)` (R131). -/
def pfTouch (i : Fin 4) (c : Prefetch) : Prefetch :=
  let bits := touchBits 4 c.newer i
  { c with newer := bits, oldest := oldestOf 4 bits c.oldest }

end Sys2Proof.Machine
end

