-- ==== Sys2Proof/Machine/Cache.lean ====
section
/-!
DEFINITION. The store, load and fetch paths with the write buffer and the prefetch cache
(20_memory.md R110..R122, R143).
-/

namespace Sys2Proof.Machine

/-- The write-buffer line numbers in order. -/
def wbLines : List (Fin 8) := [0, 1, 2, 3, 4, 5, 6, 7]

/-- The prefetch line numbers in order. -/
def pfLines : List (Fin 4) := [0, 1, 2, 3]

/-- The valid write-buffer line that holds a resolved address (R110). -/
def wbFind (k : Key) (s : State) : Option (Fin 8) :=
  wbLines.find? fun i => s.wb.lines[i.val].valid && s.wb.lines[i.val].key == k

/-- The valid prefetch line that holds a resolved address (R121). -/
def pfFind (k : Key) (s : State) : Option (Fin 4) :=
  pfLines.find? fun i => s.pf.lines[i.val].valid && s.pf.lines[i.val].key == k

/-- A write-buffer line replaced; recency unchanged. -/
def setWbLine (i : Fin 8) (l : WbLine) (s : State) : State :=
  { s with wb := { s.wb with lines := s.wb.lines.set i.val l } }

/-- A prefetch line replaced; recency unchanged. -/
def setPfLine (i : Fin 4) (l : PfLine) (s : State) : State :=
  { s with pf := { s.pf with lines := s.pf.lines.set i.val l } }

/-- `Touch(WB, i)` on the state (R131). -/
def touchWb (i : Fin 8) (s : State) : State := { s with wb := wbTouch i s.wb }

/-- `Touch(PF, i)` on the state (R131). -/
def touchPf (i : Fin 4) (s : State) : State := { s with pf := pfTouch i s.pf }

/-! ## Stores -/

/-- A line written to memory through its allocation-time physical address, if it is valid (R112, R113). -/
def writeBack (i : Fin 8) (s : State) : State :=
  let l := s.wb.lines[i.val]
  if l.valid then memWrite l.phys ⟨l.word, l.tag⟩ s else s

/-- `Flush(WB, i)` (R113). -/
def flushLine (i : Fin 8) (s : State) : State :=
  let t := writeBack i s
  setWbLine i { t.wb.lines[i.val] with valid := false } t

/-- `FlushAll`: lines 0..7 in index order (R113). -/
def flushAll (s : State) : State := wbLines.foldl (fun t i => flushLine i t) s

/-- `StoreHit(i, w, t)`: no refresh of the oldest line (R111). -/
def storeHit (i : Fin 8) (w : Word) (t : Tag) (s : State) : State :=
  let u := setWbLine i { s.wb.lines[i.val] with word := w, tag := t } s
  if i = s.wb.oldest then u else touchWb i u

/-- `StoreMiss(k, w, t)`: evict the oldest line, install the new one as most recent (R112). -/
def storeMiss (k : Key) (w : Word) (t : Tag) (s : State) : State :=
  let o := s.wb.oldest
  touchWb o (setWbLine o ⟨true, k, translate k s, w, t⟩ (writeBack o s))

/-- `STORE_INVALIDATES_PF`: the prefetch line of a stored address loses its valid bit (R143). -/
def invalidatePf (k : Key) (s : State) : State :=
  match pfFind k s with
  | some i => setPfLine i { s.pf.lines[i.val] with valid := false } s
  | none => s

/-- What a store whose checks pass does at its resolved address (R110, R114, R143). -/
def storeAt (k : Key) (w : Word) (s : State) : State :=
  let u :=
    if Params.wbEnabled then
      match wbFind k s with
      | some i => storeHit i w (storeTag s) s
      | none => storeMiss k w (storeTag s) s
    else memWrite (translate k s) ⟨w, storeTag s⟩ s
  if Params.storeInvalidatesPf then invalidatePf k u else u

/-- The fault of a store's checks, in the order protection, watchpoint (R110, R403). -/
def storeFault (a : Addr) (s : State) : Option Trap :=
  if a = 0 then none
  else match protFault a s with
    | some f => some f
    | none => watchFault (resolve a s) s

/-- `Store(a, w)` (R110). -/
def store (a : Addr) (w : Word) (s : State) : Res Unit :=
  if a = 0 then .ok () s
  else match storeFault a s with
    | some f => .raised f s
    | none => .ok () (storeAt (resolve a s) w s)

/-- The store that disable-cache mode refuses: one whose checks pass and whose resolved address lies in
`DIAG_RANGE` (R114). -/
def storeRefused (a : Addr) (s : State) : Bool :=
  !Params.wbEnabled && a != 0 && (storeFault a s).isNone &&
  decide (Config.diagLow ≤ resolve a s) && decide (resolve a s ≤ Config.diagHigh)

/-! ## Loads -/

/-- The cell a load finds: the buffered word and tag on a hit, the memory cell on a miss, with the auxiliary value a
load check would report (R106, R115). -/
def loadCell (k : Key) (s : State) : MemCell × Nat :=
  match wbFind k s with
  | some i => (⟨s.wb.lines[i.val].word, s.wb.lines[i.val].tag⟩, i.val)
  | none => (memRead (translate k s) s, Params.bankOf (translate k s))

/-- What a load does to recency (R115; nothing at the default of `LOAD_HIT_REFRESH`). -/
def loadEffect (k : Key) (s : State) : State :=
  if Params.loadHitRefresh then
    match wbFind k s with
    | some i => if i = s.wb.oldest then s else touchWb i s
    | none => s
  else s

/-- The fault of a load's checks, in the order protection, watchpoint, tag (R115, R403). -/
def loadFault (a : Addr) (s : State) : Option Trap :=
  if a = 0 then none
  else match protFault a s with
    | some f => some f
    | none =>
      match if Params.loadWatch then watchFault (resolve a s) s else none with
      | some f => some f
      | none =>
        let (c, aux) := loadCell (resolve a s) s
        if Params.acceptedLoadTag c.tag then none else some ⟨.ramCheck, some aux⟩

/-- The word a load without a fault returns (R115). -/
def loadWord (a : Addr) (s : State) : Word :=
  if a = 0 then Params.loadZero.word else (loadCell (resolve a s) s).1.word

/-- `Load(a)` (R115). The recency effect of a hit comes before the tag check, so it remains when that check fails. -/
def load (a : Addr) (s : State) : Res Word :=
  match loadFault a s with
  | some f => .raised f (if f.cause = .ramCheck then loadEffect (resolve a s) s else s)
  | none => .ok (loadWord a s) (if a = 0 then s else loadEffect (resolve a s) s)

/-! ## Fetches -/

/-- `PrefetchLookup(k)`: the word and tag a fetch finds (R121). -/
def fetchCell (k : Key) (s : State) : MemCell :=
  match pfFind k s with
  | some i => ⟨s.pf.lines[i.val].word, s.pf.lines[i.val].tag⟩
  | none =>
    match if Params.fetchSeesWb then wbFind k s else none with
    | some j => ⟨s.wb.lines[j.val].word, s.wb.lines[j.val].tag⟩
    | none => memRead (translate k s) s

/-- `PrefetchCommit`: refresh a hit, or install a miss in the oldest line (R121). -/
def fetchCommit (k : Key) (s : State) : State :=
  match pfFind k s with
  | some i => if Params.pfOldestQuirk && decide (i = s.pf.oldest) then s else touchPf i s
  | none =>
    let c := fetchCell k s
    let o := s.pf.oldest
    touchPf o (setPfLine o ⟨true, k, c.word, c.tag⟩ s)

/-- The fault of a fetch's checks, in the order address 0, user page, breakpoint, tag (R120, R122, R403). -/
def fetchFault (a : Addr) (s : State) : Option Trap :=
  if a = 0 then some ⟨.insnCheck, some 0⟩
  else
    let k := resolve a s
    if !supervisor s && tlbEntry (tableOf k s) (pageOf k) s == 0 then some ⟨.insnProt, some (pageOf k).toNat⟩
    else if s.ibp == k then some ⟨.breakpoint, none⟩
    else if (fetchCell k s).tag == tagInsn then none
    else some ⟨.insnCheck, some 0⟩

/-- `Fetch(a)`; "a fetch that faults changes no cache state" (R120, R121). -/
def fetch (a : Addr) (s : State) : Res Word :=
  match fetchFault a s with
  | some f => .raised f s
  | none => .ok (fetchCell (resolve a s) s).word (fetchCommit (resolve a s) s)

end Sys2Proof.Machine
end

