-- ==== Sys2Proof/Machine/Ops.lean ====
section
/-!
DEFINITION. The engine's shared operations: stops, TAKING AN EXCEPTION (internal, external and extracode entry), the
return from one, commit, and the run of one half around an instruction's own effect
(40_engine.md R182..R189, 46_extracode_and_return.md R380, R385, 60_exceptions.md R410..R421).
-/

namespace Sys2Proof.Machine

/-- Go on with a part's value unless it raised a fault (R187). -/
def Res.bind {α β : Type} (x : Res α) (f : α → State → Res β) : Res β :=
  match x with
  | .ok a s => f a s
  | .raised t s => .raised t s

/-- `stop code` (R12, R420). -/
def stopWith (c : StopCode) (s : State) : State := { s with halted := some c }

/-- The refusal mark set by a step that the model refuses; such a step does nothing else (R194, log 19). -/
def markRefused (r : Refusal) (s : State) : State := { s with refusalMark := some r }

/-! ## Taking an exception -/

/-- The class of a cause for the halt policy (R401). -/
def Cause.isArith : Cause → Bool
  | .overflow | .divZero => true
  | _ => false

/-- "check/parity-class" causes (R401). -/
def Cause.isCheck : Cause → Bool
  | .insnCheck | .ramCheck => true
  | _ => false

/-- `RAU.OVF_DISABLE` (R35). -/
def ovfDisable (s : State) : Bool := s.rau.getLsbD 5

/-- `HaltOn(c)` (R421). -/
def haltOn (c : Cause) (s : State) : Bool :=
  if Cause.isArith c then !ovfDisable s && (intrHalt s || checkHalt s)
  else if Cause.isCheck c then intrHalt s || checkHalt s
  else intrHalt s

/-- The part of SPSW that every entry saves: the PSW disables and the mode before the entry (R380, R411, R413). -/
def savedMode (s : State) : Addr :=
  (s.psw &&& pswDisables) ||| flagBit 15 2 s.ruu.extracode ||| flagBit 15 3 s.ruu.interrupt

/-- A field of a register replaced by a value (R411). -/
def replaceField (g : Word) (f : BitRange) (v : Nat) : Word :=
  (g &&& ~~~f.mask) ||| ((BitVec.ofNat 48 v <<< f.lo) &&& f.mask)

/-- GRP with the cause bit set and, where the cause has a field, its auxiliary data in it (R411; log 23). -/
def grpWithCause (f : Trap) (g : Word) : Word :=
  let g := g ||| Config.causeBit (.cause f.cause)
  match Config.auxField f.cause, f.aux with
  | some r, some v => replaceField g r v
  | _, _ => g

/-- The save and mode change that internal and external entry share: SPSW, IRET, PSW, RUU; the pc goes to `vec`
(R411, R413). -/
def interruptEntry (vec : Addr) (s : State) : State :=
  { s with
    spsw := savedMode s ||| flagBit 15 4 s.ruu.modPending ||| flagBit 15 8 s.ruu.right
    iret := s.pc
    psw := s.psw ||| pswDisables
    ruu := { s.ruu with extracode := false, interrupt := true, right := false, modPending := false }
    pc := vec }

/-- `InternalEntry(c, aux)` (R411). -/
def internalEntry (f : Trap) (s : State) : State :=
  { interruptEntry Config.vecInt s with grp := grpWithCause f s.grp, trapping := true }

/-- `ExternalEntry()`; RIGHT is 0 at a boundary (R413). -/
def externalEntry (s : State) : State := interruptEntry Config.vecExt s

/-- The condition of the interrupt boundary (R181). -/
def externalPending (s : State) : Bool :=
  !s.ruu.right && !s.trapping && !intrDisable s && (s.grp &&& s.mgrp != 0 || s.prp &&& s.mprp != 0)

/-- `Recover(c, aux)` at the one recovery point (R410, R416, R421). -/
def recover (f : Trap) (s : State) : State :=
  if s.trapping then stopWith .doubleFault s
  else if haltOn f.cause s then stopWith (.haltOn f.cause) s
  else internalEntry f s

/-- The address of a stack correction (R49). -/
def Corr.offset : Corr → Addr
  | .minusOne => -1
  | .zero => 0
  | .plusOne => 1

/-- The revert of a faulting half that began in `s` and raised in `t`: the registers of `s`, SP by the stack
correction, the memory and caches of `t`, and free values in ACC and RMR after an arithmetic fault (R186). -/
def revert (f : Trap) (s t : State) : State :=
  let u := setSp (sp t + Corr.offset t.corr) { s with mem := t.mem, wb := t.wb, pf := t.pf, draws := t.draws }
  if Cause.isArith f.cause then
    { u with acc := Config.draw t.draws, rmr := Config.draw (t.draws + 1), draws := t.draws + 2 }
  else u

/-! ## Control transfer and commit -/

/-- A control transfer (R185). -/
def jump (target : Addr) (s : State) : State :=
  { s with pc := target, ruu := { s.ruu with right := false }, jumped := true }

/-- `NextHalf()`: the word of the half after the current one, and whether that half is a right half (R189). -/
def nextHalf (s : State) : Addr × Bool :=
  if s.ruu.right then (s.pc + 1, false) else (s.pc, true)

/-- The modification that a completed half leaves for the next one (R184, R330). -/
def installMod (s : State) : State :=
  match s.nextMod with
  | some v => { s with mod := v, ruu := { s.ruu with modPending := true } }
  | none => { s with ruu := { s.ruu with modPending := false } }

/-- `Advance()` short of its stop (R188). -/
def advance (s : State) : State :=
  if s.ruu.right then { s with pc := s.pc + 1, ruu := { s.ruu with right := false } }
  else { s with ruu := { s.ruu with right := true } }

/-- The half falls past the end of the address space (R188). -/
def runsOut (s : State) : Bool := !s.jumped && s.ruu.right && s.pc == 0o77777#15

/-- `Delay(op)` (R195). -/
def delay (op : Op) (jumped : Bool) : Nat :=
  let (a, b) := Config.timing op jumped
  max a b + min a b / 2

/-- `Commit()` of a completed half; the RUNOUT stop does not return to the rest of it (R184, R188, R12; log 16). -/
def commit (op : Op) (s : State) : State :=
  let t := installMod s
  if runsOut t then stopWith .runout t
  else
    let u := if t.jumped then t else advance t
    { u with trapping := false, clock := u.clock + delay op u.jumped }

/-- The engine state at the start of a half (R182). -/
def beginHalf (s : State) : State := { s with corr := .zero, nextMod := none, jumped := false }

/-- One half around its own effect: commit when the effect completes, revert and recover when it raises
(R182, R184, R186, R410). -/
def runHalf (op : Op) (s : State) (effect : State → Res Unit) : State :=
  match effect (beginHalf s) with
  | .ok _ t => commit op t
  | .raised f t => recover f (revert f s t)

/-- `runHalf` as the outcome of an instruction that is not refused. -/
def run (op : Op) (s : State) (effect : State → Res Unit) : Host.Outcome State Fault Refusal :=
  .next (runHalf op s effect)

/-- `run` for an effect that raises nothing. -/
def runPure (op : Op) (s : State) (effect : State → State) : Host.Outcome State Fault Refusal :=
  run op s fun t => .ok () (effect t)

/-- `run` for an instruction that stores at `a`: refused where disable-cache mode refuses the store (R114). -/
def runStoring (op : Op) (a : Addr) (s : State) (effect : State → Res Unit) : Host.Outcome State Fault Refusal :=
  if storeRefused a s then .refused .diagnosticStore else run op s effect

/-- `run` for a privileged instruction: "if not supervisor: raise PRIVILEGE()" before any other effect (R191). -/
def runPrivileged (op : Op) (s : State) (effect : State → Res Unit) : Host.Outcome State Fault Refusal :=
  run op s fun t => if supervisor t then effect t else .raised ⟨.privilege, none⟩ t

/-! ## Extracode entry and the return -/

/-- `XcEntry(x)` with the effective address `ea` as its argument (R380). -/
def xcEntry (x : Extracode) (ea : Addr) (s : State) : State :=
  let t := setIdx 14 ea s
  { t with
    eret := (nextHalf s).1
    spsw := savedMode s ||| flagBit 15 8 (nextHalf s).2
    psw := s.psw ||| pswDisables
    ruu := { s.ruu with extracode := true, interrupt := false, right := false }
    pc := Config.vecXc x
    jumped := true }

/-- The return of `IJ` (R385). -/
def returnFrom (r : Idx) (s : State) : State :=
  { s with
    psw := pswWithDisables s.psw (s.spsw.getLsbD 0) (s.spsw.getLsbD 1) (s.spsw.getLsbD 10)
    pc := returnRegister r s
    ruu := { s.ruu with right := s.spsw.getLsbD 8, extracode := s.spsw.getLsbD 2, interrupt := s.spsw.getLsbD 3 }
    nextMod := if s.spsw.getLsbD 4 then some s.mod else s.nextMod
    jumped := true }

/-! ## The end of a step -/

/-- The interval timer at the end of a step (R432). -/
def expireTimer (s : State) : State :=
  if s.timer.armed && decide (s.timer.deadline ≤ s.clock) then
    { s with timer := { s.timer with armed := false }, grp := s.grp ||| Config.causeBit .timer }
  else s

/-- An outcome with the timer looked at (R432). -/
def endStep : Host.Outcome State Fault Refusal → Host.Outcome State Fault Refusal
  | .next s => .next (expireTimer s)
  | .fault f => .fault f
  | .refused r => .refused r

end Sys2Proof.Machine
end

