-- ==== Sys2Proof/Machine/Operands.lean ====
section
/-!
DEFINITION. Operand assembly and every operand form (30_encoding.md R154..R156, 41_arithmetic.md R222, R224,
42_data_movement.md R270..R272).
-/

namespace Sys2Proof.Machine

/-- The modified literal `A` of an address field (R154). -/
def modified (addr : Addr) (s : State) : Addr :=
  addr + (if s.ruu.modPending then s.mod else 0)

/-- The effective address `EA` of an index field and an address field (R154). -/
def effective (r : Idx) (addr : Addr) (s : State) : Addr := modified addr s + idx r s

/-- "Addressing the stack register with a zero literal": the test uses `A` (R270, R272). -/
def addressesStack (r : Idx) (addr : Addr) (s : State) : Bool := r == spIdx && modified addr s == 0

/-- `SP <- ADDR(SP - 1); CORR <- +1` (R270, R275, R281). -/
def popSp (s : State) : State := { setSp (sp s - 1) s with corr := .plusOne }

/-- `SP <- ADDR(SP + 1); CORR <- -1` (R276, R283). -/
def pushSp (s : State) : State := { setSp (sp s + 1) s with corr := .minusOne }

/-- The state after the stack pop of `PopEA()` (R270). -/
def popped (r : Idx) (addr : Addr) (s : State) : State := if addressesStack r addr s then popSp s else s

/-- `OperandX()`: `Load(PopEA())` (R222, R270). -/
def operandX (r : Idx) (addr : Addr) (s : State) : Res Word :=
  let t := popped r addr s
  load (effective r addr t) t

/-- `expo(X) = X[47:41] - 64` (R224). -/
def expo (x : Word) : Int := ((x.extractLsb' 41 7).toNat : Int) - 64

/-- `lit7(EA) = EA[6:0] - 64` (R224). -/
def lit7 (ea : Addr) : Int := ((ea.extractLsb' 0 7).toNat : Int) - 64

end Sys2Proof.Machine
end

