-- ==== Sys2Proof/Machine/AddrMod.lean ====
section
/-!
DEFINITION. Address-modification instructions (44_address_modification.md R330, R331).
-/

namespace Sys2Proof.Machine

/-- `UTC` (R330). -/
def execUtc (r : Idx) (addr : Addr) (s : State) : Host.Outcome State Fault Refusal :=
  runPure .utc s fun t => { t with nextMod := some (effective r addr t) }

/-- `WTC` (R331). -/
def execWtc (r : Idx) (addr : Addr) (s : State) : Host.Outcome State Fault Refusal :=
  run .wtc s fun t => (operandX r addr t).bind fun x u => .ok () { u with nextMod := some (x.setWidth 15) }

end Sys2Proof.Machine
end

