-- ==== Sys2Proof/Machine/Flags.lean ====
section
/-!
DEFINITION. The arithmetic-mode register and the branch conditions (10_state.md R35, 41_arithmetic.md R223,
43_branch.md R310). The machine has no other condition flags.
-/

namespace Sys2Proof.Machine

/-- The arithmetic-mode groups (R35). -/
inductive Group where
  | additive | multiplicative | logical | none
  deriving DecidableEq, Repr

/-- The current group: ADD, else MULT, else LOG, else NONE (R35). -/
def groupOf (rau : BitVec 6) : Group :=
  if rau.getLsbD 4 then .additive
  else if rau.getLsbD 3 then .multiplicative
  else if rau.getLsbD 2 then .logical
  else .none

/-- The one-hot bits `RAU[4:2]` of a group, in place (R35). -/
def groupBits : Group → BitVec 6
  | .additive => 0o20
  | .multiplicative => 0o10
  | .logical => 0o04
  | .none => 0

/-- RAU with its group set to exactly `g`, bits 0, 1 and 5 unchanged (R35). -/
def rauWithGroup (g : Group) (rau : BitVec 6) : BitVec 6 := (rau &&& 0o43) ||| groupBits g

/-- `SET_GROUP(g)` (R35, R223). -/
def setGroup (g : Group) (s : State) : State := { s with rau := rauWithGroup g s.rau }

/-- `UZA_COND(group, ACC)`: `BRANCH_COND` at its default (R310). -/
def uzaCond (g : Group) (acc : Word) : Bool :=
  match g with
  | .additive => !acc.getLsbD 40
  | .multiplicative => acc.getLsbD 47
  | .logical => acc == 0
  | .none => false

end Sys2Proof.Machine
end

