-- ==== Sys2Proof/Machine/Arith.lean ====
section
/-!
DEFINITION. The additive and multiplicative groups (41_arithmetic.md R220..R246).
The primitives are the body-less functions of Config; here stand their operands, faults and groups.
-/

namespace Sys2Proof.Machine

/-- `Arith(f, arg)` on a result that may overflow, then `SET_GROUP(g)` (R221, R223). -/
def arith (g : Group) (res : ArithResult) (s : State) : Res Unit :=
  match res with
  | .ok a m => .ok () (setGroup g { s with acc := a, rmr := m })
  | .overflow => .raised ⟨.overflow, none⟩ s

/-- `Arith(DIV, X)`, then `SET_GROUP(MULT)` (R221, R223, R241). -/
def arithDiv (res : DivResult) (s : State) : Res Unit :=
  match res with
  | .ok a m => .ok () (setGroup .multiplicative { s with acc := a, rmr := m })
  | .overflow => .raised ⟨.overflow, none⟩ s
  | .divZero => .raised ⟨.divZero, none⟩ s

/-- `F_DIV`: a zero divisor is `DivZero` (R241); a denormal divisor is left to the configuration (log 11). -/
def divide (rau : BitVec 6) (acc rmr x : Word) : DivResult :=
  if x = 0 then .divZero else Config.fDiv rau acc rmr x

/-- An instruction `X <- OperandX(); Arith(f, X); SET_GROUP(g)` (R221, R222). -/
def runArith (op : Op) (g : Group) (f : BitVec 6 → Word → Word → Word → ArithResult) (r : Idx) (addr : Addr)
    (s : State) : Host.Outcome State Fault Refusal :=
  run op s fun t => (operandX r addr t).bind fun x u => arith g (f u.rau u.acc u.rmr x) u

/-- `A+X` (R230). -/
def execAddX (r : Idx) (addr : Addr) (s : State) : Host.Outcome State Fault Refusal :=
  runArith .addX .additive Config.fAdd r addr s

/-- `A-X` (R231). -/
def execSubX (r : Idx) (addr : Addr) (s : State) : Host.Outcome State Fault Refusal :=
  runArith .subX .additive Config.fSub r addr s

/-- `X-A` (R232). -/
def execRsubX (r : Idx) (addr : Addr) (s : State) : Host.Outcome State Fault Refusal :=
  runArith .rsubX .additive Config.fRsub r addr s

/-- `AMX` (R233). -/
def execAmx (r : Idx) (addr : Addr) (s : State) : Host.Outcome State Fault Refusal :=
  runArith .amx .additive Config.fAmx r addr s

/-- `AVX` (R234). -/
def execAvx (r : Idx) (addr : Addr) (s : State) : Host.Outcome State Fault Refusal :=
  runArith .avx .additive Config.fSign r addr s

/-- `A*X` (R240). -/
def execMulX (r : Idx) (addr : Addr) (s : State) : Host.Outcome State Fault Refusal :=
  runArith .mulX .multiplicative Config.fMul r addr s

/-- `A/X` (R241). -/
def execDivX (r : Idx) (addr : Addr) (s : State) : Host.Outcome State Fault Refusal :=
  run .divX s fun t => (operandX r addr t).bind fun x u => arithDiv (divide u.rau u.acc u.rmr x) u

/-- `E+X` (R242). -/
def execEaddX (r : Idx) (addr : Addr) (s : State) : Host.Outcome State Fault Refusal :=
  runArith .eaddX .multiplicative (fun rau acc rmr x => Config.fEadd rau acc rmr (expo x)) r addr s

/-- `E-X` (R243). -/
def execEsubX (r : Idx) (addr : Addr) (s : State) : Host.Outcome State Fault Refusal :=
  runArith .esubX .multiplicative (fun rau acc rmr x => Config.fEadd rau acc rmr (-expo x)) r addr s

/-- `E+N` (R244). -/
def execEaddN (r : Idx) (addr : Addr) (s : State) : Host.Outcome State Fault Refusal :=
  run .eaddN s fun t => arith .multiplicative (Config.fEadd t.rau t.acc t.rmr (lit7 (effective r addr t))) t

/-- `E-N` (R245). -/
def execEsubN (r : Idx) (addr : Addr) (s : State) : Host.Outcome State Fault Refusal :=
  run .esubN s fun t => arith .multiplicative (Config.fEadd t.rau t.acc t.rmr (-lit7 (effective r addr t))) t

/-- `ARX`: add with end-around carry (R246). -/
def execArx (r : Idx) (addr : Addr) (s : State) : Host.Outcome State Fault Refusal :=
  run .arx s fun t => (operandX r addr t).bind fun x u =>
    .ok () (setGroup .multiplicative { u with acc := endAroundAdd u.acc x, rmr := 0 })

end Sys2Proof.Machine
end

