-- ==== Sys2Proof/Machine/Branch.lean ====
section
/-!
DEFINITION. Branch, jump and loop instructions (43_branch.md R310..R317).
-/

namespace Sys2Proof.Machine

/-- A transfer taken on a condition (R185). -/
def jumpIf (c : Bool) (target : Addr) (s : State) : State := if c then jump target s else s

/-- `UZA` (R311). -/
def execUza (r : Idx) (addr : Addr) (s : State) : Host.Outcome State Fault Refusal :=
  runPure .uza s fun t =>
    jumpIf (uzaCond (groupOf t.rau) t.acc) (effective r addr t) { t with rmr := t.acc }

/-- `U1A` (R312). -/
def execU1a (r : Idx) (addr : Addr) (s : State) : Host.Outcome State Fault Refusal :=
  runPure .u1a s fun t =>
    jumpIf (!uzaCond (groupOf t.rau) t.acc) (effective r addr t) { t with rmr := t.acc }

/-- `UJ` (R313). -/
def execUj (r : Idx) (addr : Addr) (s : State) : Host.Outcome State Fault Refusal :=
  runPure .uj s fun t => jump (effective r addr t) t

/-- `VJM`: the link is the next word from either half, the target is `A` (R314). -/
def execVjm (r : Idx) (addr : Addr) (s : State) : Host.Outcome State Fault Refusal :=
  runPure .vjm s fun t => jump (modified addr t) (setIdx r (t.pc + 1) t)

/-- `VZM` (R315). -/
def execVzm (r : Idx) (addr : Addr) (s : State) : Host.Outcome State Fault Refusal :=
  runPure .vzm s fun t => jumpIf (idx r t == 0) (modified addr t) t

/-- `V1M` (R316). -/
def execV1m (r : Idx) (addr : Addr) (s : State) : Host.Outcome State Fault Refusal :=
  runPure .v1m s fun t => jumpIf (idx r t != 0) (modified addr t) t

/-- `VLM` (R317). -/
def execVlm (r : Idx) (addr : Addr) (s : State) : Host.Outcome State Fault Refusal :=
  runPure .vlm s fun t =>
    if idx r t != 0 then jump (modified addr t) (setIdx r (idx r t + 1) t) else t

end Sys2Proof.Machine
end

