-- ==== Sys2Proof/Machine/DataMove.lean ====
section
/-!
DEFINITION. Data movement, stack and index-register instructions (42_data_movement.md R273..R287).
-/

namespace Sys2Proof.Machine

/-- ACC loaded and `SET_GROUP(LOG)` (R273, R275, R276, R281). -/
def loadAcc (a : Addr) (s : State) : Res Unit :=
  (load a s).bind fun x t => .ok () (setGroup .logical { t with acc := x })

/-- `XTA` (R273). -/
def execXta (r : Idx) (addr : Addr) (s : State) : Host.Outcome State Fault Refusal :=
  run .xta s fun t =>
    let u := popped r addr t
    loadAcc (effective r addr u) u

/-- `ATX`: the stack increment follows the store (R271, R274). -/
def execAtx (r : Idx) (addr : Addr) (s : State) : Host.Outcome State Fault Refusal :=
  runStoring .atx (effective r addr s) s fun t =>
    (store (effective r addr t) t.acc t).bind fun _ u =>
      .ok () (if addressesStack r addr t then setSp (sp u + 1) u else u)

/-- `STX` (R275). -/
def execStx (r : Idx) (addr : Addr) (s : State) : Host.Outcome State Fault Refusal :=
  runStoring .stx (effective r addr s) s fun t =>
    (store (effective r addr t) t.acc t).bind fun _ u =>
      let v := popSp u
      loadAcc (sp v) v

/-- `XTS`: `M[r]` is read after the increment (R276). -/
def execXts (r : Idx) (addr : Addr) (s : State) : Host.Outcome State Fault Refusal :=
  runStoring .xts (sp s) s fun t =>
    (store (sp t) t.acc t).bind fun _ u =>
      let v := pushSp u
      loadAcc (effective r addr v) v

/-- The value `ATI` writes: in supervisor mode with translation disabled, IBP and DWP get the supervisor-space bit
(R280, D53). -/
def atiValue (j : BitVec 5) (s : State) : Key :=
  let v : Key := (s.acc.setWidth 15).setWidth 16
  if supervisor s && mmapDisable s && (j == 0o34 || j == 0o35) then v ||| 0o100000 else v

/-- `ATI` (R280). -/
def execAti (r : Idx) (addr : Addr) (s : State) : Host.Outcome State Fault Refusal :=
  runPure .ati s fun t =>
    let j := selector (effective r addr t) t
    writeM j (atiValue j t) t

/-- `STI`: `j = 017` sets SP and loads from it without a decrement (R281). -/
def execSti (r : Idx) (addr : Addr) (s : State) : Host.Outcome State Fault Refusal :=
  run .sti s fun t =>
    let j := selector (effective r addr t) t
    let v : Addr := t.acc.setWidth 15
    let u := if j == 0o17 then t else popSp t
    (load (if j == 0o17 then v else sp u) u).bind fun x w =>
      .ok () (setGroup .logical (writeM j (v.setWidth 16) { w with acc := x }))

/-- `ITA` (R282). -/
def execIta (r : Idx) (addr : Addr) (s : State) : Host.Outcome State Fault Refusal :=
  runPure .ita s fun t =>
    setGroup .logical { t with acc := (readM (selector (effective r addr t) t) t).setWidth 48 }

/-- `ITS`: the register is selected before the push and read after it (R283). -/
def execIts (r : Idx) (addr : Addr) (s : State) : Host.Outcome State Fault Refusal :=
  runStoring .its (sp s) s fun t =>
    let j := selector (effective r addr t) t
    (store (sp t) t.acc t).bind fun _ u =>
      let v := pushSp u
      .ok () (setGroup .logical { v with acc := (readM j v).setWidth 48 })

/-- `MTJ` (R284). -/
def execMtj (r : Idx) (addr : Addr) (s : State) : Host.Outcome State Fault Refusal :=
  runPure .mtj s fun t => writeM (selector (modified addr t) t) ((idx r t).setWidth 16) t

/-- `J+M` (R285). -/
def execJaddM (r : Idx) (addr : Addr) (s : State) : Host.Outcome State Fault Refusal :=
  runPure .jaddM s fun t =>
    let j := selector (modified addr t) t
    writeM j (((readM j t).setWidth 15 + idx r t).setWidth 16) t

/-- The PSW side effect of `VTM` and `UTM` with register 0 in supervisor mode (R286, R287). -/
def literalToPsw (r : Idx) (v : Addr) (s : State) : State :=
  if supervisor s && r == 0 then
    { s with psw := pswWithDisables s.psw (v.getLsbD 0) (v.getLsbD 1) (v.getLsbD 10) }
  else s

/-- `VTM` (R286). -/
def execVtm (r : Idx) (addr : Addr) (s : State) : Host.Outcome State Fault Refusal :=
  runPure .vtm s fun t =>
    let v := modified addr t
    literalToPsw r v (setIdx r v t)

/-- `UTM` (R287). -/
def execUtm (r : Idx) (addr : Addr) (s : State) : Host.Outcome State Fault Refusal :=
  runPure .utm s fun t =>
    let v := effective r addr t
    literalToPsw r v (setIdx r v t)

end Sys2Proof.Machine
end

