-- ==== Sys2Proof/Machine/Extracode.lean ====
section
/-!
DEFINITION. The extracodes, the stop instruction and the return (46_extracode_and_return.md R380..R388).
-/

namespace Sys2Proof.Machine

/-- An extracode: `XcEntry(x)` "as the whole execution of the half" (R380). -/
def runExtracode (op : Op) (x : Extracode) (r : Idx) (addr : Addr) (s : State) : Host.Outcome State Fault Refusal :=
  runPure op s fun t => xcEntry x (effective r addr t) t

/-- `E46` (R381). -/
def execE46 (r : Idx) (addr : Addr) (s : State) : Host.Outcome State Fault Refusal :=
  runExtracode .e46 .e46 r addr s

/-- `E47` (R381). -/
def execE47 (r : Idx) (addr : Addr) (s : State) : Host.Outcome State Fault Refusal :=
  runExtracode .e47 .e47 r addr s

/-- `E50` (R382). -/
def execE50 (r : Idx) (addr : Addr) (s : State) : Host.Outcome State Fault Refusal :=
  runExtracode .e50 .e50 r addr s

/-- `E51` (R382). -/
def execE51 (r : Idx) (addr : Addr) (s : State) : Host.Outcome State Fault Refusal :=
  runExtracode .e51 .e51 r addr s

/-- `E52` (R382). -/
def execE52 (r : Idx) (addr : Addr) (s : State) : Host.Outcome State Fault Refusal :=
  runExtracode .e52 .e52 r addr s

/-- `E53` (R382). -/
def execE53 (r : Idx) (addr : Addr) (s : State) : Host.Outcome State Fault Refusal :=
  runExtracode .e53 .e53 r addr s

/-- `E54` (R382). -/
def execE54 (r : Idx) (addr : Addr) (s : State) : Host.Outcome State Fault Refusal :=
  runExtracode .e54 .e54 r addr s

/-- `E55` (R382). -/
def execE55 (r : Idx) (addr : Addr) (s : State) : Host.Outcome State Fault Refusal :=
  runExtracode .e55 .e55 r addr s

/-- `E56` (R382). -/
def execE56 (r : Idx) (addr : Addr) (s : State) : Host.Outcome State Fault Refusal :=
  runExtracode .e56 .e56 r addr s

/-- `E57` (R382). -/
def execE57 (r : Idx) (addr : Addr) (s : State) : Host.Outcome State Fault Refusal :=
  runExtracode .e57 .e57 r addr s

/-- `E60` (R382). -/
def execE60 (r : Idx) (addr : Addr) (s : State) : Host.Outcome State Fault Refusal :=
  runExtracode .e60 .e60 r addr s

/-- `E61` (R382). -/
def execE61 (r : Idx) (addr : Addr) (s : State) : Host.Outcome State Fault Refusal :=
  runExtracode .e61 .e61 r addr s

/-- `E62` (R382). -/
def execE62 (r : Idx) (addr : Addr) (s : State) : Host.Outcome State Fault Refusal :=
  runExtracode .e62 .e62 r addr s

/-- `E63` (R382). -/
def execE63 (r : Idx) (addr : Addr) (s : State) : Host.Outcome State Fault Refusal :=
  runExtracode .e63 .e63 r addr s

/-- `E64` (R382). -/
def execE64 (r : Idx) (addr : Addr) (s : State) : Host.Outcome State Fault Refusal :=
  runExtracode .e64 .e64 r addr s

/-- `E65` (R382). -/
def execE65 (r : Idx) (addr : Addr) (s : State) : Host.Outcome State Fault Refusal :=
  runExtracode .e65 .e65 r addr s

/-- `E66` (R382). -/
def execE66 (r : Idx) (addr : Addr) (s : State) : Host.Outcome State Fault Refusal :=
  runExtracode .e66 .e66 r addr s

/-- `E67` (R382). -/
def execE67 (r : Idx) (addr : Addr) (s : State) : Host.Outcome State Fault Refusal :=
  runExtracode .e67 .e67 r addr s

/-- `E70` (R382). -/
def execE70 (r : Idx) (addr : Addr) (s : State) : Host.Outcome State Fault Refusal :=
  runExtracode .e70 .e70 r addr s

/-- `E71` (R382). -/
def execE71 (r : Idx) (addr : Addr) (s : State) : Host.Outcome State Fault Refusal :=
  runExtracode .e71 .e71 r addr s

/-- `E72` (R382). -/
def execE72 (r : Idx) (addr : Addr) (s : State) : Host.Outcome State Fault Refusal :=
  runExtracode .e72 .e72 r addr s

/-- `E73` (R382). -/
def execE73 (r : Idx) (addr : Addr) (s : State) : Host.Outcome State Fault Refusal :=
  runExtracode .e73 .e73 r addr s

/-- `E74` (R382). -/
def execE74 (r : Idx) (addr : Addr) (s : State) : Host.Outcome State Fault Refusal :=
  runExtracode .e74 .e74 r addr s

/-- `E75` (R382). -/
def execE75 (r : Idx) (addr : Addr) (s : State) : Host.Outcome State Fault Refusal :=
  runExtracode .e75 .e75 r addr s

/-- `E76` (R382). -/
def execE76 (r : Idx) (addr : Addr) (s : State) : Host.Outcome State Fault Refusal :=
  runExtracode .e76 .e76 r addr s

/-- `E77` (R382). -/
def execE77 (r : Idx) (addr : Addr) (s : State) : Host.Outcome State Fault Refusal :=
  runExtracode .e77 .e77 r addr s

/-- `E20` (R383). -/
def execE20 (r : Idx) (addr : Addr) (s : State) : Host.Outcome State Fault Refusal :=
  runExtracode .e20 .e20 r addr s

/-- `E21` (R383). -/
def execE21 (r : Idx) (addr : Addr) (s : State) : Host.Outcome State Fault Refusal :=
  runExtracode .e21 .e21 r addr s

/-- `E36` (R384). -/
def execE36 (r : Idx) (addr : Addr) (s : State) : Host.Outcome State Fault Refusal :=
  runExtracode .e36 .e36 r addr s

/-- `STOP`: in supervisor mode a stop that leaves the state as before the half; otherwise an extracode (R386, R420). -/
def execStop (r : Idx) (addr : Addr) (s : State) : Host.Outcome State Fault Refusal :=
  if supervisor s then .next (stopWith .stop s) else runExtracode .stop .stop r addr s

/-- `IJ`; `A` and `EA` are not used (R385). -/
def execIj (r : Idx) (_addr : Addr) (s : State) : Host.Outcome State Fault Refusal :=
  runPrivileged .ij s fun t => .ok () (returnFrom r t)

end Sys2Proof.Machine
end

