-- ==== Sys2Proof/Machine/Logic.lean ====
section
/-!
DEFINITION. The logical group, the mode register and the remainder (41_arithmetic.md R250..R262).
-/

namespace Sys2Proof.Machine

/-- An instruction `X <- OperandX()` whose effect on the loaded word raises nothing (R222). -/
def runWithX (op : Op) (r : Idx) (addr : Addr) (s : State) (f : Word → State → State) :
    Host.Outcome State Fault Refusal :=
  run op s fun t => (operandX r addr t).bind fun x u => .ok () (f x u)

/-- ACC and RMR from a primitive that cannot fault, then `SET_GROUP(LOG)` (R221, R223). -/
def logical (res : Word × Word) (s : State) : State :=
  setGroup .logical { s with acc := res.1, rmr := res.2 }

/-- `AAX` (R250). -/
def execAax (r : Idx) (addr : Addr) (s : State) : Host.Outcome State Fault Refusal :=
  runWithX .aax r addr s fun x t => logical (t.acc &&& x, 0) t

/-- `AEX` (R251). -/
def execAex (r : Idx) (addr : Addr) (s : State) : Host.Outcome State Fault Refusal :=
  runWithX .aex r addr s fun x t => logical (t.acc ^^^ x, t.acc) t

/-- `AOX` (R252). -/
def execAox (r : Idx) (addr : Addr) (s : State) : Host.Outcome State Fault Refusal :=
  runWithX .aox r addr s fun x t => logical (t.acc ||| x, 0) t

/-- `ACX`: RMR becomes a free value (R253, log 7). -/
def execAcx (r : Idx) (addr : Addr) (s : State) : Host.Outcome State Fault Refusal :=
  runWithX .acx r addr s fun x t =>
    { logical (endAroundAdd (BitVec.ofNat 48 (popcount t.acc)) x, Config.draw t.draws) t with draws := t.draws + 1 }

/-- `ANX` (R254). -/
def execAnx (r : Idx) (addr : Addr) (s : State) : Host.Outcome State Fault Refusal :=
  runWithX .anx r addr s fun x t => logical (Config.fLzc t.rau t.acc t.rmr x) t

/-- `APX` (R255). -/
def execApx (r : Idx) (addr : Addr) (s : State) : Host.Outcome State Fault Refusal :=
  runWithX .apx r addr s fun x t => logical (Config.fPack t.rau t.acc t.rmr x) t

/-- `AUX` (R256). -/
def execAux (r : Idx) (addr : Addr) (s : State) : Host.Outcome State Fault Refusal :=
  runWithX .aux r addr s fun x t => logical (Config.fUnpack t.rau t.acc t.rmr x) t

/-- `ASX` (R257). -/
def execAsx (r : Idx) (addr : Addr) (s : State) : Host.Outcome State Fault Refusal :=
  runWithX .asx r addr s fun x t => logical (Config.fShift t.rau t.acc t.rmr (expo x)) t

/-- `ASN` (R258). -/
def execAsn (r : Idx) (addr : Addr) (s : State) : Host.Outcome State Fault Refusal :=
  runPure .asn s fun t => logical (Config.fShift t.rau t.acc t.rmr (lit7 (effective r addr t))) t

/-- `RTE` (R259). -/
def execRte (r : Idx) (addr : Addr) (s : State) : Host.Outcome State Fault Refusal :=
  runPure .rte s fun t =>
    let v : BitVec 7 := t.rau.setWidth 7 &&& (effective r addr t).setWidth 7
    setGroup .logical { t with acc := v.setWidth 48 <<< 41 }

/-- `XTR` (R260). -/
def execXtr (r : Idx) (addr : Addr) (s : State) : Host.Outcome State Fault Refusal :=
  runWithX .xtr r addr s fun x t => { t with rau := x.extractLsb' 41 6 }

/-- `NTR` (R261). -/
def execNtr (r : Idx) (addr : Addr) (s : State) : Host.Outcome State Fault Refusal :=
  runPure .ntr s fun t => { t with rau := (effective r addr t).setWidth 6 }

/-- `YTA`: RAU is unchanged in both forms (R262). -/
def execYta (r : Idx) (addr : Addr) (s : State) : Host.Outcome State Fault Refusal :=
  run .yta s fun t =>
    if groupOf t.rau = .logical then .ok () { t with acc := t.rmr }
    else match Config.fYta t.rau t.acc t.rmr (lit7 (effective r addr t)) with
      | .ok a m => .ok () { t with acc := a, rmr := m }
      | .overflow => .raised ⟨.overflow, none⟩ t

end Sys2Proof.Machine
end

