-- ==== Sys2Proof/Machine/Special.lean ====
section
/-!
DEFINITION. The privileged special-register instruction `MOD` with its sub-operations, and the device commands
(45_special_register.md R340..R358).
-/

namespace Sys2Proof.Machine

/-- The sub-operations of `MOD` (R341). -/
inductive Subop where
  | wbWrite (k : Fin 8) | wbRead (k : Fin 8)
  | ptrWriteU (i : Fin 8) | ptrWriteS (i : Fin 8)
  | protWrite (k : Fin 4)
  | mprpWrite | prpClear | mgrpWrite | grpClear | grpRead
  | control (avost convolRight convolLeft : Bool)
  | openOp (o : OpenSubop)
  | noOp
  deriving DecidableEq, Repr

/-- The low three bits of a selector as a line or register number (R341). -/
def low3 (sel : BitVec 8) : Fin 8 := ⟨sel.toNat % 8, Nat.mod_lt _ (by decide)⟩

/-- The low two bits of a selector as a byte number (R341). -/
def low2 (sel : BitVec 8) : Fin 4 := ⟨sel.toNat % 4, Nat.mod_lt _ (by decide)⟩

/-- The selectors the reference declines: 0140..0177 (R347). -/
def unimplementedSelector (sel : BitVec 8) : Bool :=
  decide (0o140 ≤ sel.toNat) && decide (sel.toNat < 0o200)

/-- The OPEN sub-operations with a single selector. -/
def openSubops : List OpenSubop :=
  [.prpRead, .flush, .sendReq, .sendRsp, .recvReq, .recvRsp, .cpuId, .timer, .claim]

/-- The sub-operation of a selector that no numbered row of R341 names. -/
def openSubop (sel : BitVec 8) : Subop :=
  let c := Config.subopCodes
  if c.ptrWriteS.toNat ≤ sel.toNat ∧ sel.toNat < c.ptrWriteS.toNat + 8 then
    .ptrWriteS ⟨(sel.toNat - c.ptrWriteS.toNat) % 8, Nat.mod_lt _ (by decide)⟩
  else
    match openSubops.find? fun o => c.code o == sel with
    | some o => .openOp o
    | none => .noOp

/-- The sub-operation of a selector outside the unimplemented range (R341, R349). -/
def subopOf (sel : BitVec 8) : Subop :=
  let n := sel.toNat
  if n < 0o010 then .wbWrite (low3 sel)
  else if 0o020 ≤ n ∧ n < 0o030 then .ptrWriteU (low3 sel)
  else if 0o030 ≤ n ∧ n < 0o034 then .protWrite (low2 sel)
  else if n = 0o034 then .mprpWrite
  else if n = 0o035 then .prpClear
  else if n = 0o036 then .mgrpWrite
  else if n = 0o037 then .grpClear
  else if 0o100 ≤ n ∧ n < 0o140 then .control (sel.getLsbD 0) (sel.getLsbD 1) (sel.getLsbD 2)
  else if 0o200 ≤ n ∧ n < 0o210 then .wbRead (low3 sel)
  else if n = 0o237 then .grpRead
  else openSubop sel

/-- `RZ[8k+7 : 8k] <- b` (R344). -/
def putByte (rz : BitVec 32) (k : Fin 4) (b : BitVec 8) : BitVec 32 :=
  (rz &&& ~~~(0xFF#32 <<< (8 * k.val))) ||| (b.setWidth 32 <<< (8 * k.val))

/-- `SEND(kind)`: an entry for the channel to the named processor, nothing for one that does not exist (R350, R440;
log 15). -/
def sendByte (k : MsgKind) (ea : Addr) (s : State) : State :=
  let dst := Config.ipcDst ea s.acc
  if dst < Config.topology.nCpus then
    { s with chan := s.chan ++ [⟨Config.topology.self, dst, k, s.acc.setWidth 8⟩] }
  else s

/-- `RECV(kind)`: the byte of the named processor's mailbox, its full flag cleared (R351). The model's choices: the word
from a processor that does not exist is a free value (log 15); a receive that names this processor itself reads a
mailbox of its own, though R53 gives one for each other processor (log 46). -/
def recvByte (k : MsgKind) (ea : Addr) (s : State) : State :=
  let src := Config.ipcSrc ea s.acc
  if src < Config.topology.nCpus then
    let b := mailbox src s
    let v := b.byteOf k
    { setMailbox src (b.withByte k { v with full := false }) s with acc := v.byte.setWidth 48 }
  else { s with acc := Config.draw s.draws, draws := s.draws + 1 }

/-- `TIMER_PROGRAM`; zero ticks disarm (R353). -/
def programTimer (s : State) : State :=
  let n := Config.timerTicks s.acc
  if n = 0 then { s with timer := { s.timer with armed := false } }
  else { s with timer := ⟨true, s.clock + n⟩ }

/-- "Make memory current": the buffer line of a resolved address flushed, if there is one (R357). -/
def flushKey (k : Key) (s : State) : State :=
  match wbFind k s with
  | some i => flushLine i s
  | none => s

/-- The claimed bit of a memory word set, if it is clear (R357). -/
def setClaimed (p : Phys) (s : State) : State :=
  let c := memRead p s
  if c.word.getLsbD Config.claimBit.val then s
  else memWrite p { c with word := c.word ||| BitVec.twoPow 48 Config.claimBit.val } s

/-- `CLAIM`: test and set the claimed bit of a memory word; no protection check (R357). The rule calls the source of the
address OPEN after its pseudocode has taken `ACC[14:0]`; that the model follows the pseudocode and D45 is its choice
(log 44). -/
def claim (s : State) : State :=
  let k := resolve (s.acc.setWidth 15) s
  let p := translate k s
  let t := flushKey k s
  { setClaimed p t with acc := (memRead p t).word }

/-- An OPEN sub-operation (R345, R348, R350..R357). -/
def runOpenSubop (ea : Addr) (s : State) : OpenSubop → State
  | .prpRead => { s with acc := s.prp }
  | .flush => flushAll s
  | .sendReq => sendByte .request ea s
  | .sendRsp => sendByte .response ea s
  | .recvReq => recvByte .request ea s
  | .recvRsp => recvByte .response ea s
  | .cpuId => { s with acc := Config.topology.cpuId Config.topology.self }
  | .timer => programTimer s
  | .claim => claim s

/-- `SubOp(s)` (R341..R357). -/
def runSubop (ea : Addr) (s : State) : Subop → State
  | .wbWrite k => setWbLine k { s.wb.lines[k.val] with word := s.acc, tag := storeTag s } s
  | .wbRead k => { s with acc := s.wb.lines[k.val].word }
  | .ptrWriteU i => { s with rpU := s.rpU.set i.val s.acc }
  | .ptrWriteS i => { s with rpS := s.rpS.set i.val s.acc }
  | .protWrite k => { s with rz := putByte s.rz k (s.acc.setWidth 8) }
  | .mprpWrite => { s with mprp := s.acc }
  | .prpClear => { s with prp := s.prp &&& s.acc }
  | .mgrpWrite => { s with mgrp := s.acc }
  | .grpClear => { s with grp := s.grp &&& (s.acc ||| s.setup.grpWired) }
  | .grpRead => { s with acc := s.grp }
  | .control avost right left =>
    { s with ruu := { s.ruu with avostDisable := avost, convolRight := right, convolLeft := left } }
  | .openOp o => runOpenSubop ea s o
  | .noOp => s

/-- The selector `EA[7:0]` (R340). -/
def modSelector (ea : Addr) : BitVec 8 := ea.setWidth 8

/-- `MOD`: PRIVILEGE outside supervisor mode, a refusal for the selectors the reference declines (R340, R347). -/
def execMod (r : Idx) (addr : Addr) (s : State) : Host.Outcome State Fault Refusal :=
  let ea := effective r addr s
  if supervisor s && unimplementedSelector (modSelector ea) then .refused .unimplementedSubop
  else runPrivileged .mod s fun t => .ok () (runSubop ea t (subopOf (modSelector ea)))

/-- A device command: PRIVILEGE outside supervisor mode, refused inside it (R358). -/
def deviceCommand (op : Op) (s : State) : Host.Outcome State Fault Refusal :=
  if supervisor s then .refused .deviceCommand
  else runPrivileged op s fun t => .ok () t

/-- `EXT32` (R358). -/
def execExt32 (_r : Idx) (_addr : Addr) (s : State) : Host.Outcome State Fault Refusal := deviceCommand .ext32 s

/-- `EXT33` (R358). -/
def execExt33 (_r : Idx) (_addr : Addr) (s : State) : Host.Outcome State Fault Refusal := deviceCommand .ext33 s

end Sys2Proof.Machine
end

