-- ==== Sys2Proof/Machine/Dispatch.lean ====
section
/-!
DEFINITION. One arm per instruction, each one call of its meaning (40_engine.md R190).
-/

namespace Sys2Proof.Machine

-- The meaning of an instruction half, from its operand assembly to its commit or the recovery of its fault.
def exec (i : Instr) (s : State) : Host.Outcome State Fault Refusal :=
  match i with
  | .atx r addr => Sys2Proof.Machine.execAtx r addr s
  | .stx r addr => Sys2Proof.Machine.execStx r addr s
  | .mod r addr => Sys2Proof.Machine.execMod r addr s
  | .xts r addr => Sys2Proof.Machine.execXts r addr s
  | .addX r addr => Sys2Proof.Machine.execAddX r addr s
  | .subX r addr => Sys2Proof.Machine.execSubX r addr s
  | .rsubX r addr => Sys2Proof.Machine.execRsubX r addr s
  | .amx r addr => Sys2Proof.Machine.execAmx r addr s
  | .xta r addr => Sys2Proof.Machine.execXta r addr s
  | .aax r addr => Sys2Proof.Machine.execAax r addr s
  | .aex r addr => Sys2Proof.Machine.execAex r addr s
  | .arx r addr => Sys2Proof.Machine.execArx r addr s
  | .avx r addr => Sys2Proof.Machine.execAvx r addr s
  | .aox r addr => Sys2Proof.Machine.execAox r addr s
  | .divX r addr => Sys2Proof.Machine.execDivX r addr s
  | .mulX r addr => Sys2Proof.Machine.execMulX r addr s
  | .apx r addr => Sys2Proof.Machine.execApx r addr s
  | .aux r addr => Sys2Proof.Machine.execAux r addr s
  | .acx r addr => Sys2Proof.Machine.execAcx r addr s
  | .anx r addr => Sys2Proof.Machine.execAnx r addr s
  | .eaddX r addr => Sys2Proof.Machine.execEaddX r addr s
  | .esubX r addr => Sys2Proof.Machine.execEsubX r addr s
  | .asx r addr => Sys2Proof.Machine.execAsx r addr s
  | .xtr r addr => Sys2Proof.Machine.execXtr r addr s
  | .rte r addr => Sys2Proof.Machine.execRte r addr s
  | .yta r addr => Sys2Proof.Machine.execYta r addr s
  | .ext32 r addr => Sys2Proof.Machine.execExt32 r addr s
  | .ext33 r addr => Sys2Proof.Machine.execExt33 r addr s
  | .eaddN r addr => Sys2Proof.Machine.execEaddN r addr s
  | .esubN r addr => Sys2Proof.Machine.execEsubN r addr s
  | .asn r addr => Sys2Proof.Machine.execAsn r addr s
  | .ntr r addr => Sys2Proof.Machine.execNtr r addr s
  | .ati r addr => Sys2Proof.Machine.execAti r addr s
  | .sti r addr => Sys2Proof.Machine.execSti r addr s
  | .ita r addr => Sys2Proof.Machine.execIta r addr s
  | .its r addr => Sys2Proof.Machine.execIts r addr s
  | .mtj r addr => Sys2Proof.Machine.execMtj r addr s
  | .jaddM r addr => Sys2Proof.Machine.execJaddM r addr s
  | .e46 r addr => Sys2Proof.Machine.execE46 r addr s
  | .e47 r addr => Sys2Proof.Machine.execE47 r addr s
  | .e50 r addr => Sys2Proof.Machine.execE50 r addr s
  | .e51 r addr => Sys2Proof.Machine.execE51 r addr s
  | .e52 r addr => Sys2Proof.Machine.execE52 r addr s
  | .e53 r addr => Sys2Proof.Machine.execE53 r addr s
  | .e54 r addr => Sys2Proof.Machine.execE54 r addr s
  | .e55 r addr => Sys2Proof.Machine.execE55 r addr s
  | .e56 r addr => Sys2Proof.Machine.execE56 r addr s
  | .e57 r addr => Sys2Proof.Machine.execE57 r addr s
  | .e60 r addr => Sys2Proof.Machine.execE60 r addr s
  | .e61 r addr => Sys2Proof.Machine.execE61 r addr s
  | .e62 r addr => Sys2Proof.Machine.execE62 r addr s
  | .e63 r addr => Sys2Proof.Machine.execE63 r addr s
  | .e64 r addr => Sys2Proof.Machine.execE64 r addr s
  | .e65 r addr => Sys2Proof.Machine.execE65 r addr s
  | .e66 r addr => Sys2Proof.Machine.execE66 r addr s
  | .e67 r addr => Sys2Proof.Machine.execE67 r addr s
  | .e70 r addr => Sys2Proof.Machine.execE70 r addr s
  | .e71 r addr => Sys2Proof.Machine.execE71 r addr s
  | .e72 r addr => Sys2Proof.Machine.execE72 r addr s
  | .e73 r addr => Sys2Proof.Machine.execE73 r addr s
  | .e74 r addr => Sys2Proof.Machine.execE74 r addr s
  | .e75 r addr => Sys2Proof.Machine.execE75 r addr s
  | .e76 r addr => Sys2Proof.Machine.execE76 r addr s
  | .e77 r addr => Sys2Proof.Machine.execE77 r addr s
  | .e20 r addr => Sys2Proof.Machine.execE20 r addr s
  | .e21 r addr => Sys2Proof.Machine.execE21 r addr s
  | .utc r addr => Sys2Proof.Machine.execUtc r addr s
  | .wtc r addr => Sys2Proof.Machine.execWtc r addr s
  | .vtm r addr => Sys2Proof.Machine.execVtm r addr s
  | .utm r addr => Sys2Proof.Machine.execUtm r addr s
  | .uza r addr => Sys2Proof.Machine.execUza r addr s
  | .u1a r addr => Sys2Proof.Machine.execU1a r addr s
  | .uj r addr => Sys2Proof.Machine.execUj r addr s
  | .vjm r addr => Sys2Proof.Machine.execVjm r addr s
  | .ij r addr => Sys2Proof.Machine.execIj r addr s
  | .stop r addr => Sys2Proof.Machine.execStop r addr s
  | .vzm r addr => Sys2Proof.Machine.execVzm r addr s
  | .v1m r addr => Sys2Proof.Machine.execV1m r addr s
  | .e36 r addr => Sys2Proof.Machine.execE36 r addr s
  | .vlm r addr => Sys2Proof.Machine.execVlm r addr s

end Sys2Proof.Machine
end

