-- ==== Sys2Proof/Decode.lean ====
section
/-!
DEFINITION. Instruction decoding and encoding (30_encoding.md R150..R153, R157..R159).
The decoder is total: every 24-bit half selects exactly one row (R159), so it has no refusal.
-/

namespace Sys2Proof

/-- The format bit `F` (R151). -/
def formatBit (h : Half) : Bool := h.getLsbD 19

/-- The index-register field `r = h[23:20]` (R151). -/
def idxField (h : Half) : Idx := h.extractLsb' 20 4

/-- The short opcode `S = h[17:12]` (R153). -/
def shortField (h : Half) : BitVec 6 := h.extractLsb' 12 6

/-- The long opcode `L = h[18:15]` (R152). -/
def longField (h : Half) : BitVec 4 := h.extractLsb' 15 4

/-- The short form's 12-bit literal extended by `E = h[18]` with ones in bits 14..12 (R153). -/
def shortAddr (h : Half) : Addr :=
  let a : Addr := (h.extractLsb' 0 12).setWidth 15
  if h.getLsbD 18 then 0o70000#15 ||| a else a

/-- The long form's 15-bit address (R152). -/
def longAddr (h : Half) : Addr := h.extractLsb' 0 15

/-- Short opcodes 000..037 in order (R157). -/
def shortOpsLow : List Op :=
  List.flatten
    [[.atx, .stx, .mod, .xts, .addX, .subX, .rsubX, .amx],
     [.xta, .aax, .aex, .arx, .avx, .aox, .divX, .mulX],
     [.apx, .aux, .acx, .anx, .eaddX, .esubX, .asx, .xtr],
     [.rte, .yta, .ext32, .ext33, .eaddN, .esubN, .asn, .ntr]]

/-- Short opcodes 040..077 in order (R157). -/
def shortOpsHigh : List Op :=
  List.flatten
    [[.ati, .sti, .ita, .its, .mtj, .jaddM, .e46, .e47],
     [.e50, .e51, .e52, .e53, .e54, .e55, .e56, .e57],
     [.e60, .e61, .e62, .e63, .e64, .e65, .e66, .e67],
     [.e70, .e71, .e72, .e73, .e74, .e75, .e76, .e77]]

/-- Long opcodes 0..15 in order (R158). -/
def longOps : List Op :=
  List.flatten
    [[.e20, .e21, .utc, .wtc, .vtm, .utm, .uza, .u1a],
     [.uj, .vjm, .ij, .stop, .vzm, .v1m, .e36, .vlm]]

/-- The operation of a short opcode (R157). -/
def shortOp (S : BitVec 6) : Op := (shortOpsLow ++ shortOpsHigh).getD S.toNat .atx

/-- The operation of a long opcode (R158). -/
def longOp (L : BitVec 4) : Op := longOps.getD L.toNat .e20

/-- Decode one instruction half (R151..R153, R157..R159). -/
def decode (h : Half) : Instr :=
  if formatBit h then Instr.ofOp (idxField h) (longAddr h) (longOp (longField h))
  else Instr.ofOp (idxField h) (shortAddr h) (shortOp (shortField h))

/-- The live half of an instruction word: left is bits 47..24, right bits 23..0 (R150, R182). -/
def halfOf (w : Word) (right : Bool) : Half :=
  if right then w.extractLsb' 0 24 else w.extractLsb' 24 24

/-- An instruction word of two halves (R150). -/
def wordOf (left right : Half) : Word := left ++ right

/-- What the decoder reads from an instruction whose bits are `w`, numbered as spec/opcode_table.json numbers them.
Every instruction is one 24-bit half (R150), so a longer word, or bits above `nbits`, is no instruction. -/
def decodeTableWord (nbits w : Nat) : Option Instr :=
  if nbits ≤ 24 ∧ w < 2 ^ nbits then some (decode (BitVec.ofNat 24 w)) else none

/-! ## The encoder -/

/-- A row's opcode: its format and its number in that format (R157, R158). -/
inductive Opcode where
  | short (S : BitVec 6)
  | long (L : BitVec 4)
  deriving DecidableEq, Repr

/-- The opcode of each operation (R157, R158). -/
def Op.opcode : Op → Opcode
  | .atx => .short 0o000
  | .stx => .short 0o001
  | .mod => .short 0o002
  | .xts => .short 0o003
  | .addX => .short 0o004
  | .subX => .short 0o005
  | .rsubX => .short 0o006
  | .amx => .short 0o007
  | .xta => .short 0o010
  | .aax => .short 0o011
  | .aex => .short 0o012
  | .arx => .short 0o013
  | .avx => .short 0o014
  | .aox => .short 0o015
  | .divX => .short 0o016
  | .mulX => .short 0o017
  | .apx => .short 0o020
  | .aux => .short 0o021
  | .acx => .short 0o022
  | .anx => .short 0o023
  | .eaddX => .short 0o024
  | .esubX => .short 0o025
  | .asx => .short 0o026
  | .xtr => .short 0o027
  | .rte => .short 0o030
  | .yta => .short 0o031
  | .ext32 => .short 0o032
  | .ext33 => .short 0o033
  | .eaddN => .short 0o034
  | .esubN => .short 0o035
  | .asn => .short 0o036
  | .ntr => .short 0o037
  | .ati => .short 0o040
  | .sti => .short 0o041
  | .ita => .short 0o042
  | .its => .short 0o043
  | .mtj => .short 0o044
  | .jaddM => .short 0o045
  | .e46 => .short 0o046
  | .e47 => .short 0o047
  | .e50 => .short 0o050
  | .e51 => .short 0o051
  | .e52 => .short 0o052
  | .e53 => .short 0o053
  | .e54 => .short 0o054
  | .e55 => .short 0o055
  | .e56 => .short 0o056
  | .e57 => .short 0o057
  | .e60 => .short 0o060
  | .e61 => .short 0o061
  | .e62 => .short 0o062
  | .e63 => .short 0o063
  | .e64 => .short 0o064
  | .e65 => .short 0o065
  | .e66 => .short 0o066
  | .e67 => .short 0o067
  | .e70 => .short 0o070
  | .e71 => .short 0o071
  | .e72 => .short 0o072
  | .e73 => .short 0o073
  | .e74 => .short 0o074
  | .e75 => .short 0o075
  | .e76 => .short 0o076
  | .e77 => .short 0o077
  | .e20 => .long 0
  | .e21 => .long 1
  | .utc => .long 2
  | .wtc => .long 3
  | .vtm => .long 4
  | .utm => .long 5
  | .uza => .long 6
  | .u1a => .long 7
  | .uj => .long 8
  | .vjm => .long 9
  | .ij => .long 10
  | .stop => .long 11
  | .vzm => .long 12
  | .v1m => .long 13
  | .e36 => .long 14
  | .vlm => .long 15

/-- The half of a short-form instruction: `r`, `F = 0`, `E`, `S`, `addr12` (R153). -/
def encodeShort (r : Idx) (S : BitVec 6) (a : Addr) : Half :=
  r ++ 0#1 ++ a.extractLsb' 12 1 ++ S ++ a.extractLsb' 0 12

/-- The half of a long-form instruction: `r`, `F = 1`, `L`, `addr` (R152). -/
def encodeLong (r : Idx) (L : BitVec 4) (a : Addr) : Half :=
  r ++ 1#1 ++ L ++ a

/-- The half of an instruction. -/
def encode (i : Instr) : Half :=
  match i.op.opcode with
  | .short S => encodeShort i.r S i.addr
  | .long L => encodeLong i.r L i.addr

/-! ## The opcode map as mask and match -/

/-- The bits that select an operation (R159). -/
def Opcode.mask : Opcode → Half
  | .short _ => 0x0BF000#24
  | .long _ => 0x0F8000#24

/-- The value of the selecting bits (R159). -/
def Opcode.matchBits : Opcode → Half
  | .short S => S.setWidth 24 <<< 12
  | .long L => 0x080000#24 ||| (L.setWidth 24 <<< 15)

/-- The half selects the operation (R159). -/
def Op.selectedBy (o : Op) (h : Half) : Bool :=
  h &&& o.opcode.mask == o.opcode.matchBits

end Sys2Proof
end

