-- ==== Sys2Proof/Machine/Environment.lean ====
section
/-!
DEFINITION. What the other agents do between two steps of the processor: devices, other processors, the mailbox
delivery agent, the host (60_exceptions.md R430, R434, R440..R442, 70_reset_and_hazards.md R460, R461).
-/

namespace Sys2Proof.Machine

/-- `PRP_CAUSE(kind, src) | (byte & 0xF) << PRP_DATA(kind, src)` (R440). -/
def prpBits (k : MsgKind) (src : Nat) (b : BitVec 8) : Word :=
  BitVec.twoPow 48 (Config.prpCauseBit k src).val |||
  ((b &&& 0xF).setWidth 48 <<< (Config.prpDataBit k src).val)

/-- The atomic update of the receiving processor: "a later byte overwrites an unread one" (R440). -/
def receive (m : Message) (s : State) : State :=
  let t := setMailbox m.src ((mailbox m.src s).withByte m.kind ⟨m.byte, true⟩) s
  { t with prp := s.prp ||| prpBits m.kind m.src m.byte }

/-- An entry is the next one of the channel `(src, dst)`. -/
def inChannel (src dst : Nat) (m : Message) : Bool := m.src == src && m.dst == dst

/-- The delivery agent removes the oldest entry of a channel; an entry to this processor is received (R440). -/
def deliverFrom (src dst : Nat) (s : State) : State :=
  match s.chan.find? (inChannel src dst) with
  | none => s
  | some m =>
    let t := { s with chan := s.chan.eraseP (inChannel src dst) }
    if dst = Config.topology.self then receive m t else t

/-- Processor reset as a host action: memory keeps its contents but for the write-buffer flush; the channels, the
setup and the model's own fields are not the processor's (R460, R461; log 28). -/
def processorReset (s : State) : State :=
  { State.reset with
    setup := s.setup
    mem := if Params.resetFlushes then (flushAll s).mem else s.mem
    chan := s.chan
    draws := s.draws
    inputs := s.inputs }

/-- A register set by the host (R434). -/
def hostWrite (s : State) : HostWrite → State
  | .acc v => { s with acc := v }
  | .rmr v => { s with rmr := v }
  | .m j v => writeM j v s
  | .pc v => { s with pc := v }
  | .rau v => { s with rau := v }
  | .ruu v => { s with ruu := v }
  | .grp v => { s with grp := v }
  | .mgrp v => { s with mgrp := v }
  | .prp v => { s with prp := v }
  | .mprp v => { s with mprp := v }
  | .rpU i v => { s with rpU := s.rpU.set i.val v }
  | .rpS i v => { s with rpS := s.rpS.set i.val v }
  | .rz v => { s with rz := v }
  | .trapping v => { s with trapping := v }
  | .clock v => { s with clock := v }
  | .timer v => { s with timer := v }

/-- What an agent other than the processor does at its turn (R51, R430, R434, R440, R442, R460). The host sets
registers "while halted" only (R434). The model's choices: a halt replaces the code of an earlier stop and a resume drops
the code (log 41); a device may set any bit (log 42); a foreign send may name any processors (log 43). -/
def applyInput (s : State) : Input → State
  | .cpu => s
  | .device g p => { s with grp := s.grp ||| g, prp := s.prp ||| p }
  | .send m => { s with chan := s.chan ++ [m] }
  | .deliver src dst => deliverFrom src dst s
  | .memWrite p c => if p.toNat < memWords s then memWrite p c s else s
  | .hostHalt => stopWith .host s
  | .hostReset => processorReset s
  | .hostResume => { s with halted := none }
  | .hostSet w => if s.halted.isSome then hostWrite s w else s

/-- The refusal of a step by the refusal mark: "takes no further step", whoever's turn it is, but for the reset that
clears the mark (R194, R460; log 19). -/
def refusedByMark (s : State) : Option Refusal :=
  match s.inputs with
  | .hostReset :: _ => none
  | _ => s.refusalMark

/-- A half placed where the next fetch finds it, as the live half of a word whose other half is zero: in memory with
tag INSN, and in a prefetch line that holds the address (log 20). -/
def placeHalf (h : Half) (s : State) : State :=
  let k := resolve s.pc s
  let w := if s.ruu.right then wordOf 0 h else wordOf h 0
  let t := memWrite (translate k s) ⟨w, tagInsn⟩ s
  match pfFind k s with
  | some i => setPfLine i ⟨true, k, w, tagInsn⟩ t
  | none => t

/-- The processor's turn put first on a tape that is not empty. -/
def cpuNext (s : State) : State :=
  match s.inputs with
  | [] => s
  | l => { s with inputs := .cpu :: l }

end Sys2Proof.Machine
end

