-- ==== Sys2Proof/Machine/Step.lean ====
section
/-!
DEFINITION. One step (40_engine.md R180..R182): the turn of another agent, or a step of the processor, which is one
external-interrupt entry or one instruction half.
-/

namespace Sys2Proof.Machine

/-- The fetch, decoding and execution of the live half (R182). -/
def halfStep (s : State) : Host.Outcome State Fault Refusal :=
  match fetch s.pc s with
  | .raised f t => .next (recover f t)
  | .ok w t => exec (decode (halfOf w s.ruu.right)) t

/-- A step of the processor (R180, R181). -/
def processorStep (s : State) : Host.Outcome State Fault Refusal :=
  match s.halted with
  | some c => .fault (.halted c)
  | none => endStep (if externalPending s then .next (externalEntry s) else halfStep s)

/-- The turn of the agent at the head of the tape (R442; log 14). -/
def agentStep (s : State) : Host.Outcome State Fault Refusal :=
  match s.inputs with
  | [] => processorStep s
  | .cpu :: l => processorStep { s with inputs := l }
  | e :: l => .next (applyInput { s with inputs := l } e)

/-- One step of the machine: none once the refusal mark is set (R194), else the turn of the agent that moves. -/
def step (s : State) : Host.Outcome State Fault Refusal :=
  match refusedByMark s with
  | some r => .refused r
  | none => agentStep s

/-- The state in which the next step fetches and runs the half `w` (log 20). -/
def State.withFetchWord (s : State) (nbits w : Nat) : State :=
  cpuNext (placeHalf (BitVec.ofNat 24 (w % 2 ^ nbits)) s)

end Sys2Proof.Machine
end

