-- ==== Sys2Proof/Safety.lean ====
section
/-!
DEFINITION. What a good state is, and the terms in which statements say what a half changes and what it leaves alone.
-/

namespace Sys2Proof.Machine

/-! ## Good states -/

/-- The pair bits of `n` lines are a strict total order: a pair bit already orders every two lines one way, so only
transitivity is left to say (R45). -/
def recencyTotal {w : Nat} (n : Nat) (bits : BitVec w) : Prop :=
  ∀ i < n, ∀ j < n, ∀ k < n, i ≠ j → j ≠ k → i ≠ k →
    newer n bits i j = true → newer n bits j k = true → newer n bits i k = true

/-- The invariants of the write buffer (R45, D18): a total order, the oldest pointer at the line every other line is
more recent than, one valid line a key, physical addresses inside the memory of `words` cells. -/
structure WbGood (words : Nat) (b : WriteBuffer) : Prop where
  total : recencyTotal 8 b.newer
  oldest : isOldest 8 b.newer b.oldest.val = true
  unique : ∀ i j : Fin 8, b.lines[i.val].valid = true → b.lines[j.val].valid = true →
    b.lines[i.val].key = b.lines[j.val].key → i = j
  inside : ∀ i : Fin 8, b.lines[i.val].valid = true → (b.lines[i.val].phys).toNat < words

/-- The invariants of the prefetch cache (R46, D18). -/
structure PfGood (c : Prefetch) : Prop where
  total : recencyTotal 4 c.newer
  oldest : isOldest 4 c.newer c.oldest.val = true
  unique : ∀ i j : Fin 4, c.lines[i.val].valid = true → c.lines[j.val].valid = true →
    c.lines[i.val].key = c.lines[j.val].key → i = j

/-- The state invariant: both caches good, memory and mailboxes in their canonical form, no cell beyond `MEM_WORDS`. -/
structure Inv (s : State) : Prop where
  wbGood : WbGood (memWords s) s.wb
  pfGood : PfGood s.pf
  memWf : Memory.wf s.mem
  memInside : ∀ c ∈ s.mem, c.1 < memWords s
  mboxWf : sparseWf Mailbox.empty s.mbox

/-! ## What a half changes -/

/-- The state without the fields that only sequence the halves: the pc and the live half, the pending flag, TRAPPING,
CLOCK, the halt record, and the engine's scratch fields. Two states with equal `settled` agree on every other field. -/
def settled (s : State) : State :=
  { s with
    pc := 0
    ruu := { s.ruu with right := false, modPending := false }
    trapping := false
    corr := .zero
    nextMod := none
    jumped := false
    halted := none
    clock := 0 }

/-- A completed half that transfers no control is followed by the next half; past the end of the address space it
stops instead (R184, R188, R189). -/
def followsOn (op : Op) (s t : State) : Prop :=
  if s.ruu.right = true ∧ s.pc = 0o77777#15 then
    t.pc = s.pc ∧ t.ruu.right = true ∧ t.halted = some .runout
  else
    (t.pc, t.ruu.right) = nextHalf s ∧ t.halted = s.halted ∧ t.trapping = false ∧
      t.clock = s.clock + delay op false

/-- A completed half that transfers no control and sets up no modification: a pending one is used up (R184). -/
def goesOn (op : Op) (s t : State) : Prop := t.ruu.modPending = false ∧ followsOn op s t

/-- A completed half that transfers control to the left half of `target` (R184, R185). -/
def goesTo (op : Op) (target : Addr) (s t : State) : Prop :=
  t.pc = target ∧ t.ruu.right = false ∧ t.ruu.modPending = false ∧ t.halted = s.halted ∧ t.trapping = false ∧
    t.clock = s.clock + delay op true

/-- The instruction completes in line, and but for the sequencing fields its next state is `u`. -/
def completesAs (i : Instr) (s u : State) : Prop :=
  ∃ t, exec i s = .next t ∧ goesOn i.op s t ∧ settled t = settled u

/-- The instruction completes with a transfer to `target`, and but for the sequencing fields its next state is `u`. -/
def jumpsAs (i : Instr) (target : Addr) (s u : State) : Prop :=
  ∃ t, exec i s = .next t ∧ goesTo i.op target s t ∧ settled t = settled u

/-- The instruction completes in line with the modification `v` installed for the next half, and but for the
sequencing fields its next state is `u` (R330). -/
def modifiesNext (i : Instr) (v : Addr) (s u : State) : Prop :=
  ∃ t, exec i s = .next t ∧ t.ruu.modPending = true ∧ followsOn i.op s t ∧ settled t = settled { u with mod := v }

/-- The address an instruction with a memory operand loads from (R222, R270). -/
def operandAddr (r : Idx) (addr : Addr) (s : State) : Addr := effective r addr (popped r addr s)

/-- The memory operand can be loaded: no check of the load raises a fault (R115). -/
def operandReadable (r : Idx) (addr : Addr) (s : State) : Prop :=
  loadFault (operandAddr r addr s) (popped r addr s) = none

/-- The word of a readable memory operand (R222). -/
def operandWord (r : Idx) (addr : Addr) (s : State) : Word :=
  loadWord (operandAddr r addr s) (popped r addr s)

/-- What a store whose checks pass makes of the state; a store to address 0 does nothing (R110). -/
def stored (a : Addr) (w : Word) (s : State) : State := if a = 0 then s else storeAt (resolve a s) w s

/-- The memory cell that a store at `a` writes: the one of the line it evicts, if it evicts one (R112). -/
def cellWritten (a : Addr) (s : State) : Option Phys :=
  if a = 0 then none
  else match wbFind (resolve a s) s with
    | some _ => none
    | none =>
      let l := s.wb.lines[s.wb.oldest.val]
      if l.valid then some l.phys else none

/-- Write-buffer line `i` is the one an access to the resolved address `k` hits (R110, R115). -/
def wbHits (k : Key) (i : Fin 8) (s : State) : Prop :=
  (s.wb.lines[i.val].valid = true ∧ s.wb.lines[i.val].key = k) ∧
  ∀ j : Fin 8, j < i → ¬(s.wb.lines[j.val].valid = true ∧ s.wb.lines[j.val].key = k)

/-- No write-buffer line holds the resolved address `k`. -/
def wbMisses (k : Key) (s : State) : Prop :=
  ∀ j : Fin 8, ¬(s.wb.lines[j.val].valid = true ∧ s.wb.lines[j.val].key = k)

/-- Prefetch line `i` is the one a fetch of the resolved address `k` hits (R121). -/
def pfHits (k : Key) (i : Fin 4) (s : State) : Prop :=
  (s.pf.lines[i.val].valid = true ∧ s.pf.lines[i.val].key = k) ∧
  ∀ j : Fin 4, j < i → ¬(s.pf.lines[j.val].valid = true ∧ s.pf.lines[j.val].key = k)

/-- No prefetch line holds the resolved address `k`. -/
def pfMisses (k : Key) (s : State) : Prop :=
  ∀ j : Fin 4, ¬(s.pf.lines[j.val].valid = true ∧ s.pf.lines[j.val].key = k)

/-- The registers that a half leaves when an arithmetic fault ends it: ACC and RMR are free values (R186). -/
def arithFaulted (s : State) : State :=
  { s with acc := Config.draw s.draws, rmr := Config.draw (s.draws + 1), draws := s.draws + 2 }

/-- The sub-operation selector `EA[7:0]` of a `MOD` half is `n` (R340). -/
def selects (r : Idx) (addr : Addr) (s : State) (n : Nat) : Prop := (effective r addr s).toNat % 256 = n

/-! ## Turns -/

/-- It is the processor's turn at `s`, which no refusal marks, and `u` is `s` with that turn taken from the tape. -/
def ourTurn (s u : State) : Prop :=
  s.refusalMark = none ∧ ((s.inputs = [] ∧ u = s) ∨ ∃ l, s.inputs = .cpu :: l ∧ u = { s with inputs := l })

/-- The processor's turn, no halt, no external interrupt to take: the next step fetches a half (R180, R181). -/
def readyToFetch (s u : State) : Prop := ourTurn s u ∧ u.halted = none ∧ externalPending u = false

/-- The state after one agent's turn. A step of a halted processor, which is a fault, leaves the state, and the other
agents go on (R51); a refusal sets the refusal mark and leaves the rest (R194). -/
def turn (e : Input) (s : State) : State :=
  match step { s with inputs := [e] } with
  | .next t => t
  | .fault _ => s
  | .refused r => markRefused r s

/-- The state after the first `n` turns of a schedule, an endless tape. -/
def afterTurns (schedule : Nat → Input) : Nat → State → State
  | 0, s => s
  | n + 1, s => turn (schedule n) (afterTurns schedule n s)

/-- "Delivery must eventually happen (fairness)": the delivery agent has a turn for every channel again and again
(R441; log 45). -/
def fair (schedule : Nat → Input) : Prop := ∀ src dst n, ∃ m, n ≤ m ∧ schedule m = .deliver src dst

end Sys2Proof.Machine
end

