-- ==== Sys2Proof/WellFormed.lean ====
section
/-!
DEFINITION. Well-formed instructions: the ones some instruction half encodes (30_encoding.md R152, R153, R162).
-/

namespace Sys2Proof

/-- The operation has the long form (R158). -/
def Op.isLong : Op → Bool
  | .e20 | .e21 | .utc | .wtc | .vtm | .utm | .uza | .u1a | .uj | .vjm | .ij | .stop | .vzm | .v1m | .e36 | .vlm => true
  | _ => false

/-- The short form reaches addresses 0..07777 and, with the extension bit, 070000..077777: "an address in
010000..067777 cannot be written in the short form" (R153, R162). -/
def shortAddressOk (a : Addr) : Bool :=
  a.extractLsb' 12 3 == 0#3 || a.extractLsb' 12 3 == 7#3

/-- An instruction is well formed when its form can hold its address; every other field takes every value. -/
def Instr.wf (i : Instr) : Bool :=
  i.op.isLong || shortAddressOk i.addr

end Sys2Proof
end

