-- ==== Sys2Proof/Certificates/Slice0/Obligations.lean ====
section
/-!
DEFINITION. The statements for the provers, in the order of OBLIGATIONS.json.
A statement `completesAs i s u` gives the whole next state of `i` at `s` but for the sequencing fields: what `u` does
not change, memory and every register included, is unchanged (Safety.lean).
-/

open Sys2Proof Sys2Proof.Machine

/-! ## Encoding -/

/-- Decoding the encoding of a well-formed instruction gives it back: no field of an encoding is dropped
(R151, R152, R153, R157, R158). -/
def Obligations.DecodeOfEncode : Prop :=
  ∀ i : Instr, i.wf = true → decode (encode i) = i

/-- Every half decodes to a well-formed instruction, and encoding that gives the half back (R151, R152, R153). -/
def Obligations.EncodeOfDecode : Prop :=
  ∀ h : Half, (decode h).wf = true ∧ encode (decode h) = h

/-- The decoder's row is the one row whose mask and match select the half (R159). -/
def Obligations.EveryHalfSelectsOneRow : Prop :=
  ∀ (h : Half) (o : Op), o = (decode h).op ↔
    match o.opcode with
    | .short S => h &&& 0x0BF000#24 = S.setWidth 24 <<< 12
    | .long L => h &&& 0x0F8000#24 = 0x080000#24 ||| (L.setWidth 24 <<< 15)

/-- Words written out from the spec's encodings, one from each family (R151, R152, R153, R157, R158). -/
def Obligations.SampleWordsDecode : Prop :=
  decode 0x008A00#24 = .xta 0 0o5000 ∧ decode 0xF00000#24 = .atx 15 0 ∧ decode 0x062003#24 = .ita 0 0o70003 ∧
  decode 0x50B010#24 = .arx 5 0o20 ∧ decode 0x01E041#24 = .asn 0 0o101 ∧ decode 0x00201E#24 = .mod 0 0o36 ∧
  decode 0x01A000#24 = .ext32 0 0 ∧ decode 0x32800A#24 = .e50 3 0o12 ∧ decode 0x090005#24 = .utc 0 5 ∧
  decode 0xDC8080#24 = .vjm 13 0o200 ∧ decode 0x1F8040#24 = .vlm 1 0o100 ∧ decode 0x3D0000#24 = .ij 3 0 ∧
  decode 0x0D8000#24 = .stop 0 0

/-! ## Operands and registers -/

/-- The modified literal, the effective address, and the address and the stack pop of a memory operand
(R154, R270). -/
def Obligations.OperandAddresses : Prop :=
  ∀ (r : Idx) (addr : Addr) (s : State),
    (modified addr s).toNat = (addr.toNat + if s.ruu.modPending then s.mod.toNat else 0) % 2 ^ 15 ∧
    (effective r addr s).toNat = ((modified addr s).toNat + (idx r s).toNat) % 2 ^ 15 ∧
    (if r = 15 ∧ modified addr s = 0 then
      operandAddr r addr s = sp s - 1 ∧ popped r addr s = { setSp (sp s - 1) s with corr := .plusOne }
    else operandAddr r addr s = effective r addr s ∧ popped r addr s = s)

/-- The register file: a read after a write of any slot through any other, what each slot keeps, the hardwired zero,
that a write changes nothing outside the file, the 4-bit index field and the stack pointer as slots of it, and which
slots a transfer instruction reaches (R32, R33). -/
def Obligations.RegisterFileReadsBack : Prop :=
  ∀ (i j : BitVec 5) (v : Key) (r : Idx) (x : Addr) (s : State),
    readM 0 s = 0 ∧
    readM i (writeM j v s) =
      (if i = j then
        (if j = 0 then 0 else if j = 0o34 ∨ j = 0o35 then v else v &&& 0o77777)
      else readM i s) ∧
    { writeM j v s with
      gen := s.gen, mod := s.mod, psw := s.psw, m22 := s.m22, m23 := s.m23, m24 := s.m24, m25 := s.m25, m26 := s.m26
      spsw := s.spsw, ret0 := s.ret0, ret1 := s.ret1, eret := s.eret, iret := s.iret, ibp := s.ibp, dwp := s.dwp
      m36 := s.m36, m37 := s.m37 } = s ∧
    (idx r s).setWidth 16 = readM (r.setWidth 5) s ∧ setIdx r x s = writeM (r.setWidth 5) (x.setWidth 16) s ∧
    sp s = idx 15 s ∧ setSp x s = setIdx 15 x s ∧
    (selector x s).toNat = x.toNat % (if supervisor s then 32 else 16)

/-! ## Memory -/

/-- Resolution and translation: the space an address is forced into, the table it goes through, the register and the
entry of a page, cut to `PHYS_PAGES`, and that every translated address lies inside memory (R7, R82, R83, R91). -/
def Obligations.AddressesTranslate : Prop :=
  ∀ (a : Addr) (k : Key) (s : State),
    (resolve a s).toNat = (if s.ruu.extracode ∨ s.ruu.interrupt ∨ s.psw.getLsbD 0 then 2 ^ 15 + a.toNat else a.toNat) ∧
    (translate k s).toNat =
      (tlbEntry (if k.getLsbD 15 then s.rpS else s.rpU) (k.extractLsb' 10 5) s).toNat * 1024 + k.toNat % 1024 ∧
    (translate k s).toNat < memWords s ∧ memWords s = 2 ^ s.setup.pagesLog.val * 1024 ∧
    ∀ (rp : Vector Word 8) (i : Fin 8) (e : Fin 4),
      (tlbEntry rp (BitVec.ofNat 5 (4 * i.val + e.val)) s).toNat =
        (pageEntry rp[i.val] e.val).toNat % 2 ^ s.setup.pagesLog.val

/-- The packed page-table layout, and that packing four unpacked entries loses none of them (R90, R91, R92). -/
def Obligations.PageEntriesRepack : Prop :=
  ∀ (R : Word) (s : State) (e : Nat), e < 4 →
    (∀ b < 5, (pageEntry R e).getLsbD b = R.getLsbD (5 * e + b)) ∧
    (∀ h < 6, (pageEntry R e).getLsbD (5 + h) = R.getLsbD (24 + 4 * h + e)) ∧
    pageEntry (packEntries (pageEntry R 0) (pageEntry R 1) (pageEntry R 2) (pageEntry R 3)) e &&& pageMask s =
      pageEntry R e &&& pageMask s

/-- What a load checks, in order, and what it finds: the buffered word on a hit, else the memory cell
(R100, R101, R102, R103, R106, R115, R403). The model's choices, each the default of a parameter that the spec leaves
OPEN (log 10): the bank index of a RAM_CHECK on a miss is the physical page, protection looks at the logical page, a load
from address 0 finds 0, a load looks at the watchpoint, and the tags NUMBER and 0 are accepted. -/
def Obligations.LoadChecksAndFinds : Prop :=
  ∀ (a : Addr) (s : State),
    (a = 0 → loadFault a s = none ∧ loadWord a s = 0) ∧
    (a ≠ 0 →
      loadFault a s =
        (if s.psw.getLsbD 1 = false ∧ ¬(supervisor s ∧ s.psw.getLsbD 0 ∧ a.toNat < Config.exemptLimit) ∧
            s.rz.getLsbD (a.toNat / 1024) then some ⟨.operandProt, some (a.toNat / 1024)⟩
        else if s.psw.getLsbD 4 ∧ s.dwp = resolve a s then some ⟨.watchpoint, none⟩
        else if (loadCell (resolve a s) s).1.tag = 2 ∨ (loadCell (resolve a s) s).1.tag = 0 then none
        else some ⟨.ramCheck, some (loadCell (resolve a s) s).2⟩) ∧
      loadWord a s = (loadCell (resolve a s) s).1.word ∧
      (∀ i : Fin 8, wbHits (resolve a s) i s →
        loadCell (resolve a s) s = (⟨s.wb.lines[i.val].word, s.wb.lines[i.val].tag⟩, i.val)) ∧
      (wbMisses (resolve a s) s →
        loadCell (resolve a s) s =
          (memRead (translate (resolve a s) s) s, (translate (resolve a s) s).toNat / 1024)))

/-- What a fetch checks, in order; a fault of the fetch is taken before anything of the half (R120, R122, R403).
The step ends with the timer's look (R432), here too, by the model's reading (log 26). -/
def Obligations.FetchFaultsAreTaken : Prop :=
  (∀ (a : Addr) (s : State),
    fetchFault a s =
      (if a = 0 then some ⟨.insnCheck, some 0⟩
      else if supervisor s = false ∧
          tlbEntry (if (resolve a s).getLsbD 15 then s.rpS else s.rpU) ((resolve a s).extractLsb' 10 5) s = 0 then
        some ⟨.insnProt, some (a.toNat / 1024)⟩
      else if s.ibp = resolve a s then some ⟨.breakpoint, none⟩
      else if (fetchCell (resolve a s) s).tag = 1 then none
      else some ⟨.insnCheck, some 0⟩)) ∧
  ∀ (s u : State) (f : Trap), readyToFetch s u → fetchFault u.pc u = some f →
    step s = endStep (.next (recover f u))

/-- A store hit updates its line and spares the recency of the oldest line; a store miss evicts the oldest line to
the address it was allocated with, installs the new line and makes it most recent; nothing else changes
(R107, R111, R112). -/
def Obligations.StoresUpdateTheBuffer : Prop :=
  ∀ (k : Key) (w : Word) (s : State), Memory.wf s.mem →
    (∀ i : Fin 8, wbHits k i s →
      let t := storeAt k w s
      { t with wb := s.wb } = s ∧
      t.wb.lines[i.val] =
        { s.wb.lines[i.val] with
          word := w, tag := 2#2 ^^^ (BitVec.ofBool s.ruu.convolLeft ++ BitVec.ofBool s.ruu.convolRight) } ∧
      (∀ j : Fin 8, j ≠ i → t.wb.lines[j.val] = s.wb.lines[j.val]) ∧
      t.wb.newer = (if i = s.wb.oldest then s.wb.newer else touchBits 8 s.wb.newer i.val) ∧
      t.wb.oldest = (if i = s.wb.oldest then s.wb.oldest else (wbTouch i s.wb).oldest)) ∧
    (wbMisses k s →
      let t := storeAt k w s
      let o := s.wb.oldest
      { t with wb := s.wb, mem := s.mem } = s ∧
      t.wb.lines[o.val] =
        ⟨true, k, translate k s, w,
          2#2 ^^^ (BitVec.ofBool s.ruu.convolLeft ++ BitVec.ofBool s.ruu.convolRight)⟩ ∧
      (∀ j : Fin 8, j ≠ o → t.wb.lines[j.val] = s.wb.lines[j.val]) ∧
      t.wb.newer = touchBits 8 s.wb.newer o.val ∧ t.wb.oldest = (wbTouch o s.wb).oldest ∧
      ∀ p, memRead p t =
        if s.wb.lines[o.val].valid ∧ p = s.wb.lines[o.val].phys then
          ⟨s.wb.lines[o.val].word, s.wb.lines[o.val].tag⟩
        else memRead p s)

/-- A load sees the processor's own earlier store; a word stored with CONVOL_RIGHT set fails the load's tag check, with
the number of the line that holds it (R106, R107, R115, R140). That NUMBER and 0 are the accepted tags is the model's
choice (log 10). -/
def Obligations.LoadSeesOwnStore : Prop :=
  ∀ (a : Addr) (w : Word) (s : State), a ≠ 0 → storeFault a s = none →
    loadWord a (stored a w s) = w ∧
    (s.ruu.convolRight = false → loadFault a (stored a w s) = none) ∧
    (s.ruu.convolRight = true → ∃ i : Fin 8, wbHits (resolve a s) i (stored a w s) ∧
      loadFault a (stored a w s) = some ⟨.ramCheck, some i.val⟩)

/-- A store that fails a check leaves memory and the buffer as they are: the half of `ATX`, `STX`, `XTS` or `ITS` is
undone whole and the fault taken (R100, R101, R102, R103, R110, R186, R403). That protection looks at the logical page is
the model's choice, the default of PROT_INDEX (log 10). -/
def Obligations.StoreFaultsAreTaken : Prop :=
  (∀ (a : Addr) (s : State), a ≠ 0 →
    storeFault a s =
      (if s.psw.getLsbD 1 = false ∧ ¬(supervisor s ∧ s.psw.getLsbD 0 ∧ a.toNat < Config.exemptLimit) ∧
          s.rz.getLsbD (a.toNat / 1024) then some ⟨.operandProt, some (a.toNat / 1024)⟩
      else if s.psw.getLsbD 4 ∧ s.dwp = resolve a s then some ⟨.watchpoint, none⟩ else none)) ∧
  ∀ (r : Idx) (addr : Addr) (s : State) (f : Trap),
    (storeFault (effective r addr s) s = some f →
      exec (.atx r addr) s = .next (recover f s) ∧ exec (.stx r addr) s = .next (recover f s)) ∧
    (storeFault (sp s) s = some f →
      exec (.xts r addr) s = .next (recover f s) ∧ exec (.its r addr) s = .next (recover f s))

/-- The flush writes every valid line to the address it was allocated with, in line order, and invalidates it
(R113). -/
def Obligations.FlushWritesEveryLine : Prop :=
  ∀ s : State, Memory.wf s.mem →
    let t := flushAll s
    { t with wb := s.wb, mem := s.mem } = s ∧
    t.wb.newer = s.wb.newer ∧ t.wb.oldest = s.wb.oldest ∧
    (∀ i : Fin 8, t.wb.lines[i.val] = { s.wb.lines[i.val] with valid := false }) ∧
    (∀ (p : Phys) (i : Fin 8), s.wb.lines[i.val].valid = true → s.wb.lines[i.val].phys = p →
      (∀ j : Fin 8, i < j → ¬(s.wb.lines[j.val].valid = true ∧ s.wb.lines[j.val].phys = p)) →
      memRead p t = ⟨s.wb.lines[i.val].word, s.wb.lines[i.val].tag⟩) ∧
    (∀ p : Phys, (∀ i : Fin 8, ¬(s.wb.lines[i.val].valid = true ∧ s.wb.lines[i.val].phys = p)) →
      memRead p t = memRead p s)

/-- A touched line becomes more recent than every other, the other pairs keep their order, the relation stays a
total order, and the oldest pointer names the line every other is more recent than (R131, R132). -/
def Obligations.TouchKeepsATotalOrder : Prop :=
  (∀ (b : WriteBuffer) (i : Fin 8), recencyTotal 8 b.newer →
    let c := wbTouch i b
    c.lines = b.lines ∧ recencyTotal 8 c.newer ∧
    (∀ j < 8, j ≠ i.val → newer 8 c.newer i.val j = true) ∧
    (∀ j < 8, ∀ k < 8, j ≠ k → j ≠ i.val → k ≠ i.val → newer 8 c.newer j k = newer 8 b.newer j k) ∧
    ∀ j < 8, j ≠ c.oldest.val → newer 8 c.newer j c.oldest.val = true) ∧
  ∀ (b : Prefetch) (i : Fin 4), recencyTotal 4 b.newer →
    let c := pfTouch i b
    c.lines = b.lines ∧ recencyTotal 4 c.newer ∧
    (∀ j < 4, j ≠ i.val → newer 4 c.newer i.val j = true) ∧
    (∀ j < 4, ∀ k < 4, j ≠ k → j ≠ i.val → k ≠ i.val → newer 4 c.newer j k = newer 4 b.newer j k) ∧
    ∀ j < 4, j ≠ c.oldest.val → newer 4 c.newer j c.oldest.val = true

/-! ## The step -/

/-- A step that takes no interrupt and whose fetch passes runs the decoded live half in the state the fetch leaves,
then looks at the timer; the fetch changes the prefetch cache alone (R180, R182, R183, R121). The processor's turn stands
at the head of the tape or comes with an empty one. What the fetch finds and installs is `FetchFindsAndInstalls`.
That every such step ends with the timer's look (R432), one whose half faults or stops too, is the model's reading
(log 26). -/
def Obligations.StepRunsDecodedHalf : Prop :=
  ∀ (s u : State) (i : Instr), readyToFetch s u → fetchFault u.pc u = none →
    i = decode (halfOf (fetchCell (resolve u.pc u) u).word u.ruu.right) →
    i.wf = true ∧ step s = endStep (exec i (fetchCommit (resolve u.pc u) u)) ∧
    { fetchCommit (resolve u.pc u) u with pf := u.pf } = u

/-- The external-interrupt entry: a step of its own before any half, at a word boundary, while not trapping and not
disabled, when an unmasked bit is set (R181, R413, R414). That the entry ends with the timer's look (R432), so that an
overdue timer is disarmed and sets its bit of GRP, is the model's choice (log 26); nothing else changes. -/
def Obligations.ExternalInterruptIsTaken : Prop :=
  ∀ s u : State, ourTurn s u → u.halted = none →
    (externalPending u = true ↔
      u.ruu.right = false ∧ u.trapping = false ∧ u.psw.getLsbD 10 = false ∧
        ((∃ b < 48, u.grp.getLsbD b = true ∧ u.mgrp.getLsbD b = true) ∨
          ∃ b < 48, u.prp.getLsbD b = true ∧ u.mprp.getLsbD b = true)) ∧
    (externalPending u = true →
      step s = endStep (.next
        { u with
          spsw := (u.psw &&& 0o2003) ||| flagBit 15 2 u.ruu.extracode ||| flagBit 15 3 u.ruu.interrupt |||
            flagBit 15 4 u.ruu.modPending
          iret := u.pc
          psw := u.psw ||| 0o2003
          ruu := { u.ruu with extracode := false, interrupt := true, right := false, modPending := false }
          pc := Config.vecExt }))

/-- The clock and the interval timer: the delay a completed half adds to CLOCK, from the two estimates of its
operation (R195); the timer expires once, at the end of the step in which its deadline has come, and sets its own bit
of GRP; after a step of the processor it is never overdue (R432).
That an entry is also such a step, and another agent's turn is not, is the model's choice (log 26). -/
def Obligations.TimerExpires : Prop :=
  (∀ (op : Op) (jumped : Bool), delay op jumped =
    max (Config.timing op jumped).1 (Config.timing op jumped).2 +
      min (Config.timing op jumped).1 (Config.timing op jumped).2 / 2) ∧
  (∀ s u t : State, ourTurn s u → step s = .next t → t.timer.armed = true → t.clock < t.timer.deadline) ∧
  (∀ t : State, endStep (.next t) =
    if t.timer.armed = true ∧ t.timer.deadline ≤ t.clock then
      .next { t with timer := { t.timer with armed := false }, grp := t.grp ||| Config.causeBit .timer }
    else .next t) ∧
  ∀ c : Cause, Config.causeBit (.cause c) &&& Config.causeBit .timer = 0

/-! ## Exceptions -/

/-- What an internal entry saves, sets and keeps (R411). That auxiliary data wider than its field keeps its low bits is
the model's choice (log 23). -/
def Obligations.InternalEntrySaves : Prop :=
  ∀ (f : Trap) (s : State),
    { internalEntry f s with grp := s.grp } =
      { s with
        spsw := (s.psw &&& 0o2003) ||| flagBit 15 2 s.ruu.extracode ||| flagBit 15 3 s.ruu.interrupt |||
          flagBit 15 4 s.ruu.modPending ||| flagBit 15 8 s.ruu.right
        iret := s.pc
        psw := s.psw ||| 0o2003
        ruu := { s.ruu with extracode := false, interrupt := true, right := false, modPending := false }
        pc := Config.vecInt
        trapping := true } ∧
    (internalEntry f s).grp &&& Config.causeBit (.cause f.cause) = Config.causeBit (.cause f.cause) ∧
    ∀ b < 48, (internalEntry f s).grp.getLsbD b =
      match Config.auxField f.cause, f.aux with
      | some field, some v =>
        if field.lo ≤ b ∧ b < field.lo + field.width then v.testBit (b - field.lo)
        else s.grp.getLsbD b || (Config.causeBit (.cause f.cause)).getLsbD b
      | _, _ => s.grp.getLsbD b || (Config.causeBit (.cause f.cause)).getLsbD b

/-- The recovery point: a double fault, then the halt policy, then the entry (R410, R416, R421). -/
def Obligations.RecoveryDecides : Prop :=
  ∀ (f : Trap) (s : State),
    (s.trapping = true → recover f s = { s with halted := some .doubleFault }) ∧
    (s.trapping = false →
      (haltOn f.cause s = true → recover f s = { s with halted := some (.haltOn f.cause) }) ∧
      (haltOn f.cause s = false → recover f s = internalEntry f s)) ∧
    haltOn f.cause s =
      match f.cause with
      | .overflow | .divZero => !s.rau.getLsbD 5 && (s.psw.getLsbD 2 || s.psw.getLsbD 3)
      | .insnCheck | .ramCheck => s.psw.getLsbD 2 || s.psw.getLsbD 3
      | _ => s.psw.getLsbD 2

/-- A load fault of a memory operand: the half is undone whole, the stack pop with it, and the fault taken
(R186, R222, R272, R331). -/
def Obligations.OperandFaultsAreTaken : Prop :=
  ∀ i ∈ [Instr.addX, .subX, .rsubX, .amx, .xta, .aax, .aex, .arx, .avx, .aox, .divX, .mulX, .apx, .aux, .acx, .anx,
      .eaddX, .esubX, .asx, .xtr, .wtc],
    ∀ (r : Idx) (addr : Addr) (s : State) (f : Trap),
      loadFault (operandAddr r addr s) (popped r addr s) = some f → exec (i r addr) s = .next (recover f s)

/-- The privileged opcodes outside supervisor mode raise PRIVILEGE before any other effect; the device commands inside
it are refused (R191, R340, R358, R385). -/
def Obligations.PrivilegedOpcodes : Prop :=
  ∀ (r : Idx) (addr : Addr) (s : State),
    (supervisor s = false →
      ∀ i ∈ [Instr.mod, .ext32, .ext33, .ij], exec (i r addr) s = .next (recover ⟨.privilege, none⟩ s)) ∧
    (supervisor s = true →
      exec (.ext32 r addr) s = .refused .deviceCommand ∧ exec (.ext33 r addr) s = .refused .deviceCommand)

/-- The values the spec gives for reset (R31, R33, R35, R37, R39 to R42, R44 to R46, R48 to R53, R194, R460). -/
def Obligations.ResetState : Prop :=
  let s := State.reset
  s.acc = 0 ∧ s.rmr = 0 ∧ (∀ j : BitVec 5, readM j s = if j = 0o21 then 0o2017 else if j = 0o27 then 0o2007 else 0) ∧
  s.rau = 0 ∧ s.ruu = ⟨true, false, false, false, true, false, false⟩ ∧
  s.grp = 0 ∧ s.mgrp = 0 ∧ s.prp = 0 ∧ s.mprp = 0 ∧ s.rz = 0 ∧
  (∀ i : Fin 8, s.wb.lines[i.val].valid = false) ∧ (∀ i : Fin 4, s.pf.lines[i.val].valid = false) ∧
  (∀ i < 8, ∀ j < 8, i ≠ j → newer 8 s.wb.newer i j = decide (j < i)) ∧ s.wb.oldest = 0 ∧
  (∀ i < 4, ∀ j < 4, i ≠ j → newer 4 s.pf.newer i j = decide (j < i)) ∧ s.pf.oldest = 0 ∧
  s.trapping = false ∧ s.corr = .zero ∧ s.nextMod = none ∧ s.jumped = false ∧ s.halted = none ∧
  s.refusalMark = none ∧ s.clock = 0 ∧ s.timer.armed = false ∧ ∀ n, (mailbox n s).request.full = false ∧ (mailbox n s).response.full = false

/-- In the reset modes every address is in supervisor space, nothing is protected, no external interrupt is taken, and
every internal fault halts (R462). -/
def Obligations.ResetModesHalt : Prop :=
  ∀ s : State, s.psw = 0o2017 → s.ruu.extracode = true → s.rau.getLsbD 5 = false → s.trapping = false →
    supervisor s = true ∧ externalPending s = false ∧
    (∀ a, (resolve a s).getLsbD 15 = true ∧ protFault a s = none) ∧
    ∀ f, recover f s = { s with halted := some (.haltOn f.cause) }

/-- The trap vectors: all distinct, the extracodes' 30 in one contiguous range (R387, R402). -/
def Obligations.VectorsAreDistinct : Prop :=
  Config.vecInt ≠ Config.vecExt ∧
  (∀ x y, Config.vecXc x = Config.vecXc y → x = y) ∧
  (∀ x, Config.vecXc x ≠ Config.vecInt ∧ Config.vecXc x ≠ Config.vecExt) ∧
  ∃ base : Nat, ∀ a : Addr, (∃ x, Config.vecXc x = a) ↔ base ≤ a.toNat ∧ a.toNat < base + 30

/-- Each extracode, and `STOP` outside supervisor mode: the argument, the saved state, the modes, the vector
(R380 to R384, R386). -/
def Obligations.ExtracodesEnter : Prop :=
  ∀ e ∈ [(Instr.e20, Extracode.e20), (.e21, .e21), (.e36, .e36), (.e46, .e46), (.e47, .e47),
      (.e50, .e50), (.e51, .e51), (.e52, .e52), (.e53, .e53), (.e54, .e54), (.e55, .e55), (.e56, .e56), (.e57, .e57),
      (.e60, .e60), (.e61, .e61), (.e62, .e62), (.e63, .e63), (.e64, .e64), (.e65, .e65), (.e66, .e66), (.e67, .e67),
      (.e70, .e70), (.e71, .e71), (.e72, .e72), (.e73, .e73), (.e74, .e74), (.e75, .e75), (.e76, .e76), (.e77, .e77),
      (.stop, .stop)],
    ∀ (r : Idx) (addr : Addr) (s : State), (e.2 = .stop → supervisor s = false) →
      jumpsAs (e.1 r addr) (Config.vecXc e.2) s
        { setIdx 14 (effective r addr s) s with
          eret := if s.ruu.right then s.pc + 1 else s.pc
          spsw := (s.psw &&& 0o2003) ||| flagBit 15 2 s.ruu.extracode ||| flagBit 15 3 s.ruu.interrupt |||
            flagBit 15 8 (!s.ruu.right)
          psw := s.psw ||| 0o2003
          ruu := { s.ruu with extracode := true, interrupt := false } }

/-- `STOP` in supervisor mode stops the processor and leaves everything else (R386, R420). -/
def Obligations.StopHalts : Prop :=
  ∀ (r : Idx) (addr : Addr) (s : State), supervisor s = true →
    exec (.stop r addr) s = .next { s with halted := some .stop }

/-- The return: outside supervisor mode PRIVILEGE; inside it the modes, live half, pending modification and pc come from
SPSW and the selected return register (R385). -/
def Obligations.IjReturns : Prop :=
  ∀ (r : Idx) (addr : Addr) (s : State),
    (supervisor s = false → exec (.ij r addr) s = .next (recover ⟨.privilege, none⟩ s)) ∧
    (supervisor s = true →
      ∃ t, exec (.ij r addr) s = .next t ∧
        t.pc = (if r.toNat % 4 = 0 then s.ret0 else if r.toNat % 4 = 1 then s.ret1
          else if r.toNat % 4 = 2 then s.eret else s.iret) ∧
        t.ruu = { s.ruu with
          right := s.spsw.getLsbD 8, extracode := s.spsw.getLsbD 2, interrupt := s.spsw.getLsbD 3,
          modPending := s.spsw.getLsbD 4 } ∧
        (∀ b < 15, t.psw.getLsbD b = if b = 0 ∨ b = 1 ∨ b = 10 then s.spsw.getLsbD b else s.psw.getLsbD b) ∧
        t.trapping = false ∧ t.halted = s.halted ∧ t.clock = s.clock + delay .ij true ∧
        settled { t with psw := s.psw, ruu := s.ruu } = settled s)

/-- Round trips. A return right after an internal or external entry restores the pc, the live half, the pending
modification, the modes and all of PSW; a return right after an extracode does so at the half after it (R388). -/
def Obligations.ReturnsUndoEntries : Prop :=
  (∀ (u s : State) (b : Addr), ((∃ f, u = internalEntry f s) ∨ (u = externalEntry s ∧ s.ruu.right = false)) →
    ∃ t, exec (.ij 3 b) u = .next t ∧ t.pc = s.pc ∧ t.ruu = s.ruu ∧ t.psw = s.psw ∧ t.mod = s.mod) ∧
  ∀ i ∈ [Instr.e20, .e21, .e36, .e46, .e47, .e50, .e51, .e52, .e53, .e54, .e55, .e56, .e57, .e60, .e61, .e62, .e63,
      .e64, .e65, .e66, .e67, .e70, .e71, .e72, .e73, .e74, .e75, .e76, .e77],
    ∀ (r : Idx) (a b : Addr) (s : State),
      ∃ u t, exec (i r a) s = .next u ∧ exec (.ij 2 b) u = .next t ∧
        (t.pc, t.ruu.right) = nextHalf s ∧ t.psw = s.psw ∧
        t.ruu = { s.ruu with right := t.ruu.right, modPending := false }

/-- Reset of the processor at the host's turn: the buffer is flushed to memory, the channels, the setup and the model's
own fields stay, and everything else is as right after reset (R460, R461). The model's choices in `State.reset`: the pc
(log 2), the registers that the spec leaves a draw (log 3), the invalid cache lines (log 4), the mailbox bytes (log 5),
the deadline of the disarmed timer (log 6); and that a reset leaves these fields alone and flushes (log 10, log 28). -/
def Obligations.HostResetFlushes : Prop :=
  ∀ (s : State) (l : List Input), s.inputs = .hostReset :: l → Memory.wf s.mem →
    ∃ t, step s = .next t ∧
      t = { State.reset with setup := s.setup, mem := t.mem, chan := s.chan, draws := s.draws, inputs := l } ∧
      (∀ (p : Phys) (i : Fin 8), s.wb.lines[i.val].valid = true → s.wb.lines[i.val].phys = p →
        (∀ j : Fin 8, i < j → ¬(s.wb.lines[j.val].valid = true ∧ s.wb.lines[j.val].phys = p)) →
        memRead p t = ⟨s.wb.lines[i.val].word, s.wb.lines[i.val].tag⟩) ∧
      (∀ p : Phys, (∀ i : Fin 8, ¬(s.wb.lines[i.val].valid = true ∧ s.wb.lines[i.val].phys = p)) →
        memRead p t = memRead p s)

/-! ## Arithmetic and logic -/

/-- `A+X`, `A-X`, `X-A`, `AMX`, `AVX`: the primitive's ACC and RMR and the additive group, or OVERFLOW with the stack
pop undone, RAU kept and free values in ACC and RMR (R221, R223, R230 to R234). -/
def Obligations.AdditiveInstructions : Prop :=
  ∀ e ∈ [(Instr.addX, Config.fAdd), (.subX, Config.fSub), (.rsubX, Config.fRsub), (.amx, Config.fAmx),
      (.avx, Config.fSign)],
    ∀ (r : Idx) (addr : Addr) (s : State), operandReadable r addr s →
      match e.2 s.rau s.acc s.rmr (operandWord r addr s) with
      | .ok a m =>
        completesAs (e.1 r addr) s
          { popped r addr s with acc := a, rmr := m, rau := (s.rau &&& 0o43) ||| 0o20 }
      | .overflow => exec (e.1 r addr) s = .next (recover ⟨.overflow, none⟩ (arithFaulted s))

/-- `A*X`, `E+X`, `E-X` with a word operand, `E+N`, `E-N` with a literal: the multiplicative group, or OVERFLOW
(R221, R223, R224, R240, R242 to R245). -/
def Obligations.MultiplicativeInstructions : Prop :=
  (∀ e ∈ [(Instr.mulX, Config.fMul),
      (.eaddX, fun rau acc rmr x => Config.fEadd rau acc rmr ((x.toNat / 2 ^ 41 % 128 : Nat) - 64)),
      (.esubX, fun rau acc rmr x => Config.fEadd rau acc rmr (64 - (x.toNat / 2 ^ 41 % 128 : Nat)))],
    ∀ (r : Idx) (addr : Addr) (s : State), operandReadable r addr s →
      match e.2 s.rau s.acc s.rmr (operandWord r addr s) with
      | .ok a m =>
        completesAs (e.1 r addr) s
          { popped r addr s with acc := a, rmr := m, rau := (s.rau &&& 0o43) ||| 0o10 }
      | .overflow => exec (e.1 r addr) s = .next (recover ⟨.overflow, none⟩ (arithFaulted s))) ∧
  ∀ e ∈ [(Instr.eaddN, (1 : Int)), (.esubN, -1)],
    ∀ (r : Idx) (addr : Addr) (s : State),
      match Config.fEadd s.rau s.acc s.rmr (e.2 * (((effective r addr s).toNat % 128 : Nat) - 64)) with
      | .ok a m => completesAs (e.1 r addr) s { s with acc := a, rmr := m, rau := (s.rau &&& 0o43) ||| 0o10 }
      | .overflow => exec (e.1 r addr) s = .next (recover ⟨.overflow, none⟩ (arithFaulted s))

/-- `A/X`: a zero divisor raises DIVZERO and RAU keeps its group; on another divisor the primitive decides
(R221, R223, R241). -/
def Obligations.DivideInstruction : Prop :=
  ∀ (r : Idx) (addr : Addr) (s : State), operandReadable r addr s →
    (operandWord r addr s = 0 →
      exec (.divX r addr) s = .next (recover ⟨.divZero, none⟩ (arithFaulted s))) ∧
    (operandWord r addr s ≠ 0 →
      match Config.fDiv s.rau s.acc s.rmr (operandWord r addr s) with
      | .ok a m =>
        completesAs (.divX r addr) s
          { popped r addr s with acc := a, rmr := m, rau := (s.rau &&& 0o43) ||| 0o10 }
      | .overflow => exec (.divX r addr) s = .next (recover ⟨.overflow, none⟩ (arithFaulted s))
      | .divZero => exec (.divX r addr) s = .next (recover ⟨.divZero, none⟩ (arithFaulted s)))

/-- `ARX` and `ACX`: the 48-bit sum with its carry added back in at the low end, of ACC or of the number of its ones.
RMR after `ACX` is a free value (R246, R253). -/
def Obligations.EndAroundSums : Prop :=
  ∀ (r : Idx) (addr : Addr) (s : State), operandReadable r addr s →
    (∃ a : Word,
      a.toNat = ((s.acc.toNat + (operandWord r addr s).toNat) % 2 ^ 48 +
        (s.acc.toNat + (operandWord r addr s).toNat) / 2 ^ 48) % 2 ^ 48 ∧
      completesAs (.arx r addr) s
        { popped r addr s with acc := a, rmr := 0, rau := (s.rau &&& 0o43) ||| 0o10 }) ∧
    ∃ a : Word,
      a.toNat = ((((List.range 48).countP fun b => s.acc.getLsbD b) + (operandWord r addr s).toNat) % 2 ^ 48 +
        (((List.range 48).countP fun b => s.acc.getLsbD b) + (operandWord r addr s).toNat) / 2 ^ 48) % 2 ^ 48 ∧
      completesAs (.acx r addr) s
        { popped r addr s with
          acc := a, rmr := Config.draw s.draws, draws := s.draws + 1, rau := (s.rau &&& 0o43) ||| 0o04 }

/-- `AAX`, `AEX`, `AOX` (R250, R251, R252). -/
def Obligations.BitwiseInstructions : Prop :=
  ∀ (r : Idx) (addr : Addr) (s : State), operandReadable r addr s →
    completesAs (.aax r addr) s
      { popped r addr s with
        acc := s.acc &&& operandWord r addr s, rmr := 0, rau := (s.rau &&& 0o43) ||| 0o04 } ∧
    completesAs (.aex r addr) s
      { popped r addr s with
        acc := s.acc ^^^ operandWord r addr s, rmr := s.acc, rau := (s.rau &&& 0o43) ||| 0o04 } ∧
    completesAs (.aox r addr) s
      { popped r addr s with
        acc := s.acc ||| operandWord r addr s, rmr := 0, rau := (s.rau &&& 0o43) ||| 0o04 }

/-- `ANX`, `APX`, `AUX`, `ASX` with a word operand and `ASN` with a literal: the primitive's ACC and RMR and the
logical group (R221, R224, R254 to R258). -/
def Obligations.ShiftAndPackInstructions : Prop :=
  (∀ e ∈ [(Instr.anx, Config.fLzc), (.apx, Config.fPack), (.aux, Config.fUnpack),
      (.asx, fun rau acc rmr x => Config.fShift rau acc rmr ((x.toNat / 2 ^ 41 % 128 : Nat) - 64))],
    ∀ (r : Idx) (addr : Addr) (s : State), operandReadable r addr s →
      completesAs (e.1 r addr) s
        { popped r addr s with
          acc := (e.2 s.rau s.acc s.rmr (operandWord r addr s)).1
          rmr := (e.2 s.rau s.acc s.rmr (operandWord r addr s)).2
          rau := (s.rau &&& 0o43) ||| 0o04 }) ∧
  ∀ (r : Idx) (addr : Addr) (s : State),
    let res := Config.fShift s.rau s.acc s.rmr (((effective r addr s).toNat % 128 : Nat) - 64)
    completesAs (.asn r addr) s { s with acc := res.1, rmr := res.2, rau := (s.rau &&& 0o43) ||| 0o04 }

/-- `RTE`, `XTR`, `NTR`: the arithmetic mode read into the exponent field and loaded from a word or a literal
(R259, R260, R261). -/
def Obligations.ModeInstructions : Prop :=
  ∀ (r : Idx) (addr : Addr) (s : State),
    (∃ a : Word, (∀ b < 48, a.getLsbD b =
        (decide (41 ≤ b ∧ b < 47) && s.rau.getLsbD (b - 41) && (effective r addr s).getLsbD (b - 41))) ∧
      completesAs (.rte r addr) s { s with acc := a, rau := (s.rau &&& 0o43) ||| 0o04 }) ∧
    (operandReadable r addr s →
      completesAs (.xtr r addr) s { popped r addr s with rau := (operandWord r addr s).extractLsb' 41 6 }) ∧
    completesAs (.ntr r addr) s { s with rau := (effective r addr s).extractLsb' 0 6 }

/-- `YTA`: RMR into ACC in the logical group, the primitive otherwise; RAU is unchanged (R262). -/
def Obligations.ReadRemainder : Prop :=
  ∀ (r : Idx) (addr : Addr) (s : State),
    (s.rau.getLsbD 4 = false ∧ s.rau.getLsbD 3 = false ∧ s.rau.getLsbD 2 = true →
      completesAs (.yta r addr) s { s with acc := s.rmr }) ∧
    (s.rau.getLsbD 4 = true ∨ s.rau.getLsbD 3 = true ∨ s.rau.getLsbD 2 = false →
      match Config.fYta s.rau s.acc s.rmr (((effective r addr s).toNat % 128 : Nat) - 64) with
      | .ok a m => completesAs (.yta r addr) s { s with acc := a, rmr := m }
      | .overflow => exec (.yta r addr) s = .next (recover ⟨.overflow, none⟩ (arithFaulted s)))

/-! ## Data movement -/

/-- `XTA` (R273). -/
def Obligations.LoadAccumulator : Prop :=
  ∀ (r : Idx) (addr : Addr) (s : State), operandReadable r addr s →
    completesAs (.xta r addr) s
      { popped r addr s with acc := operandWord r addr s, rau := (s.rau &&& 0o43) ||| 0o04 }

/-- `ATX`: the store, then the stack increment; every memory cell but that of the evicted line reads as before
(R112, R271, R274). -/
def Obligations.StoreAccumulator : Prop :=
  ∀ (r : Idx) (addr : Addr) (s : State), Memory.wf s.mem → storeFault (effective r addr s) s = none →
    completesAs (.atx r addr) s
      (if r = 15 ∧ modified addr s = 0 then setSp (sp s + 1) (stored (effective r addr s) s.acc s)
      else stored (effective r addr s) s.acc s) ∧
    ∀ t, exec (.atx r addr) s = .next t →
      ∀ p, cellWritten (effective r addr s) s ≠ some p → memRead p t = memRead p s

/-- `STX`: the store, the pop, the load; a load fault leaves the stored word and restores SP; every memory cell but
that of the evicted line reads as before (R112, R186, R275). -/
def Obligations.StoreAndPop : Prop :=
  ∀ (r : Idx) (addr : Addr) (s : State), Memory.wf s.mem → storeFault (effective r addr s) s = none →
    let u := stored (effective r addr s) s.acc s
    let v := setSp (sp s - 1) u
    (loadFault (sp s - 1) v = none →
      completesAs (.stx r addr) s { v with acc := loadWord (sp s - 1) v, rau := (s.rau &&& 0o43) ||| 0o04 }) ∧
    (∀ f, loadFault (sp s - 1) v = some f → exec (.stx r addr) s = .next (recover f u)) ∧
    ∀ t, exec (.stx r addr) s = .next t →
      ∀ p, cellWritten (effective r addr s) s ≠ some p → memRead p t = memRead p s

/-- `XTS`: the push, then the load with the index register read after it; a load fault leaves the pushed word and
restores SP; every memory cell but that of the evicted line reads as before (R112, R186, R276). -/
def Obligations.PushAndLoad : Prop :=
  ∀ (r : Idx) (addr : Addr) (s : State), Memory.wf s.mem → storeFault (sp s) s = none →
    let u := stored (sp s) s.acc s
    let v := setSp (sp s + 1) u
    let a := modified addr s + idx r v
    (loadFault a v = none →
      completesAs (.xts r addr) s { v with acc := loadWord a v, rau := (s.rau &&& 0o43) ||| 0o04 }) ∧
    (∀ f, loadFault a v = some f → exec (.xts r addr) s = .next (recover f u)) ∧
    ∀ t, exec (.xts r addr) s = .next t →
      ∀ p, cellWritten (sp s) s ≠ some p → memRead p t = memRead p s

/-- `ATI` and `ITA`, for every register they reach; in supervisor mode with translation disabled `ATI` marks IBP and
DWP as supervisor addresses (R33, R280, R282). -/
def Obligations.IndexTransfers : Prop :=
  ∀ (r : Idx) (addr : Addr) (s : State),
    let j := selector (effective r addr s) s
    completesAs (.ati r addr) s
      (writeM j
        (if supervisor s = true ∧ s.psw.getLsbD 0 = true ∧ (j = 0o34 ∨ j = 0o35)
          then (s.acc.extractLsb' 0 15).setWidth 16 ||| 0o100000 else (s.acc.extractLsb' 0 15).setWidth 16) s) ∧
    completesAs (.ita r addr) s
      { s with acc := (readM j s).setWidth 48, rau := (s.rau &&& 0o43) ||| 0o04 }

/-- `STI`: the pop, the load and the register; for SP itself the load is from the new SP; a load fault restores SP
and writes no register (R186, R281). -/
def Obligations.RegisterFromAccPops : Prop :=
  ∀ (r : Idx) (addr : Addr) (s : State),
    let j := selector (effective r addr s) s
    let x := s.acc.extractLsb' 0 15
    let v := if j = 0o17 then s else setSp (sp s - 1) s
    let a := if j = 0o17 then x else sp s - 1
    (loadFault a v = none →
      completesAs (.sti r addr) s
        { writeM j (x.setWidth 16) { v with acc := loadWord a v } with rau := (s.rau &&& 0o43) ||| 0o04 }) ∧
    ∀ f, loadFault a v = some f → exec (.sti r addr) s = .next (recover f s)

/-- `ITS`: the register is selected before the push and read after it; every memory cell but that of the evicted line
reads as before (R112, R283). -/
def Obligations.PushThenIndexToAcc : Prop :=
  ∀ (r : Idx) (addr : Addr) (s : State), Memory.wf s.mem → storeFault (sp s) s = none →
    let v := setSp (sp s + 1) (stored (sp s) s.acc s)
    completesAs (.its r addr) s
      { v with
        acc := (readM (selector (effective r addr s) s) v).setWidth 48, rau := (s.rau &&& 0o43) ||| 0o04 } ∧
    ∀ t, exec (.its r addr) s = .next t →
      ∀ p, cellWritten (sp s) s ≠ some p → memRead p t = memRead p s

/-- `MTJ` and `J+M`: the target from the modified literal, the source from the index field, the sum modulo 2^15
(R33, R284, R285). -/
def Obligations.RegisterToRegister : Prop :=
  ∀ (r : Idx) (addr : Addr) (s : State),
    let j := selector (modified addr s) s
    completesAs (.mtj r addr) s (writeM j ((idx r s).setWidth 16) s) ∧
    completesAs (.jaddM r addr) s
      (writeM j (BitVec.ofNat 16 (((readM j s).toNat + (idx r s).toNat) % 2 ^ 15)) s)

/-- `VTM` and `UTM`: the register, and with register 0 in supervisor mode the three disable bits of PSW and nothing
else (R286, R287). -/
def Obligations.LiteralToIndex : Prop :=
  ∀ (r : Idx) (addr : Addr) (s : State),
    ∀ e ∈ [(Instr.vtm, modified addr s), (.utm, effective r addr s)],
      (r = 0 ∧ supervisor s = true →
        ∃ p : Addr, completesAs (e.1 r addr) s { s with psw := p } ∧
          ∀ b < 15, p.getLsbD b = if b = 0 ∨ b = 1 ∨ b = 10 then e.2.getLsbD b else s.psw.getLsbD b) ∧
      (r = 0 ∧ supervisor s = false → completesAs (e.1 r addr) s s) ∧
      (r ≠ 0 → completesAs (e.1 r addr) s (setIdx r e.2 s))

/-! ## Branches and address modification -/

/-- `UZA` and `U1A`: ACC is copied to RMR; the group and ACC decide which of the two transfers control
(R310, R311, R312). -/
def Obligations.ConditionalBranches : Prop :=
  ∀ (r : Idx) (addr : Addr) (s : State),
    let zero : Bool :=
      if s.rau.getLsbD 4 then !s.acc.getLsbD 40
      else if s.rau.getLsbD 3 then s.acc.getLsbD 47
      else if s.rau.getLsbD 2 then decide (s.acc = 0)
      else false
    (if zero then jumpsAs (.uza r addr) (effective r addr s) s { s with rmr := s.acc }
      else completesAs (.uza r addr) s { s with rmr := s.acc }) ∧
    (if zero then completesAs (.u1a r addr) s { s with rmr := s.acc }
      else jumpsAs (.u1a r addr) (effective r addr s) s { s with rmr := s.acc })

/-- `UJ` and `VJM`, and the index-register branches `VZM`, `V1M`, `VLM` (R313 to R317). -/
def Obligations.JumpsAndLoops : Prop :=
  ∀ (r : Idx) (addr : Addr) (s : State),
    jumpsAs (.uj r addr) (effective r addr s) s s ∧
    jumpsAs (.vjm r addr) (modified addr s) s (setIdx r (s.pc + 1) s) ∧
    (if idx r s = 0 then jumpsAs (.vzm r addr) (modified addr s) s s else completesAs (.vzm r addr) s s) ∧
    (if idx r s = 0 then completesAs (.v1m r addr) s s else jumpsAs (.v1m r addr) (modified addr s) s s) ∧
    (if idx r s = 0 then completesAs (.vlm r addr) s s
      else jumpsAs (.vlm r addr) (modified addr s) s (setIdx r (idx r s + 1) s))

/-- `UTC` and `WTC` install a modification for the next half (R184, R330, R331). -/
def Obligations.AddressModifiers : Prop :=
  ∀ (r : Idx) (addr : Addr) (s : State),
    modifiesNext (.utc r addr) (effective r addr s) s s ∧
    (operandReadable r addr s →
      modifiesNext (.wtc r addr) ((operandWord r addr s).extractLsb' 0 15) s (popped r addr s))

/-- A modification reaches the next half's literal and that half only: a jump adds it to its target and leaves none;
two in a row add up (R330, R470). -/
def Obligations.ModificationLastsOneHalf : Prop :=
  ∀ (r q : Idx) (a b : Addr) (s t : State), exec (.utc r a) s = .next t → t.halted = none →
    (∃ u, exec (.uj q b) t = .next u ∧ u.pc = b + effective r a s + idx q s ∧ u.ruu.modPending = false) ∧
    ∃ u, exec (.utc q b) t = .next u ∧ u.mod = b + effective r a s + idx q s ∧ u.ruu.modPending = true

/-! ## Special registers -/

/-- `MOD`: the sub-operations whose selectors the spec numbers (R340 to R346). GRP_WIRED, which the spec leaves OPEN, is
the setup's, so that this holds for every value of it (R7, log 10). -/
def Obligations.ModNumberedSubops : Prop :=
  ∀ (r : Idx) (addr : Addr) (s : State), supervisor s = true →
    (∀ k : Fin 8, selects r addr s k.val →
      completesAs (.mod r addr) s
        { s with wb := { s.wb with lines := s.wb.lines.set k.val { s.wb.lines[k.val] with
          word := s.acc, tag := 2#2 ^^^ (BitVec.ofBool s.ruu.convolLeft ++ BitVec.ofBool s.ruu.convolRight) } } }) ∧
    (∀ k : Fin 8, selects r addr s (0o200 + k.val) →
      completesAs (.mod r addr) s { s with acc := s.wb.lines[k.val].word }) ∧
    (∀ k : Fin 8, selects r addr s (0o20 + k.val) →
      completesAs (.mod r addr) s { s with rpU := s.rpU.set k.val s.acc }) ∧
    (∀ k : Fin 4, selects r addr s (0o30 + k.val) →
      ∃ z : BitVec 32, completesAs (.mod r addr) s { s with rz := z } ∧
        ∀ b < 32, z.getLsbD b = if b / 8 = k.val then s.acc.getLsbD (b % 8) else s.rz.getLsbD b) ∧
    (selects r addr s 0o34 → completesAs (.mod r addr) s { s with mprp := s.acc }) ∧
    (selects r addr s 0o35 → completesAs (.mod r addr) s { s with prp := s.prp &&& s.acc }) ∧
    (selects r addr s 0o36 → completesAs (.mod r addr) s { s with mgrp := s.acc }) ∧
    (selects r addr s 0o37 → completesAs (.mod r addr) s { s with grp := s.grp &&& (s.acc ||| s.setup.grpWired) }) ∧
    (selects r addr s 0o237 → completesAs (.mod r addr) s { s with acc := s.grp }) ∧
    ∀ c < 32, selects r addr s (0o100 + c) →
      completesAs (.mod r addr) s
        { s with ruu := { s.ruu with
          avostDisable := c.testBit 0, convolRight := c.testBit 1, convolLeft := c.testBit 2 } }

/-- `MOD`: the sub-operations whose selectors are OPEN, but for the atomic claim (R343, R345, R348, R350 to R353).
That a receive from a processor that does not exist gives a free value (log 15), and that one from this processor itself
reads a mailbox like any other (log 46), are the model's choices. -/
def Obligations.ModOpenSubops : Prop :=
  ∀ (r : Idx) (addr : Addr) (s : State), supervisor s = true →
    let code := fun o => (Config.subopCodes.code o).toNat
    let dst := Config.ipcDst (effective r addr s) s.acc
    let src := Config.ipcSrc (effective r addr s) s.acc
    (∀ k : Fin 8, selects r addr s (Config.subopCodes.ptrWriteS.toNat + k.val) →
      completesAs (.mod r addr) s { s with rpS := s.rpS.set k.val s.acc }) ∧
    (selects r addr s (code .prpRead) → completesAs (.mod r addr) s { s with acc := s.prp }) ∧
    (selects r addr s (code .flush) → completesAs (.mod r addr) s (flushAll s)) ∧
    (selects r addr s (code .cpuId) →
      completesAs (.mod r addr) s { s with acc := Config.topology.cpuId Config.topology.self }) ∧
    (selects r addr s (code .timer) →
      completesAs (.mod r addr) s
        (if Config.timerTicks s.acc = 0 then { s with timer := { s.timer with armed := false } }
        else { s with timer := ⟨true, s.clock + Config.timerTicks s.acc⟩ })) ∧
    (∀ e ∈ [(OpenSubop.sendReq, MsgKind.request), (.sendRsp, .response)], selects r addr s (code e.1) →
      completesAs (.mod r addr) s
        (if dst < Config.topology.nCpus then
          { s with chan := s.chan ++ [⟨Config.topology.self, dst, e.2, s.acc.extractLsb' 0 8⟩] }
        else s)) ∧
    ∀ e ∈ [(OpenSubop.recvReq, MsgKind.request), (.recvRsp, .response)], selects r addr s (code e.1) →
      sparseWf Mailbox.empty s.mbox →
        if src < Config.topology.nCpus then
          ∃ m, completesAs (.mod r addr) s
              { s with acc := ((mailbox src s).byteOf e.2).byte.setWidth 48, mbox := m } ∧
            ∀ (n : Nat) (k : MsgKind),
              (sparseGet Mailbox.empty m n).byteOf k =
                if n = src ∧ k = e.2 then { (mailbox src s).byteOf k with full := false } else (mailbox n s).byteOf k
        else completesAs (.mod r addr) s { s with acc := Config.draw s.draws, draws := s.draws + 1 }

/-- `MOD` with the claim selector: the matching buffer line is flushed; of the memory then found, the old word comes to
ACC and its claimed bit is set; every other cell but the flushed line's reads as before (R357). That the address is
ACC[14:0], as the rule's pseudocode has it and as its last sentence leaves OPEN, is the model's choice (log 44). -/
def Obligations.ClaimTestsAndSets : Prop :=
  ∀ (r : Idx) (addr : Addr) (s : State), supervisor s = true → Memory.wf s.mem →
    selects r addr s (Config.subopCodes.code .claim).toNat →
    let k := resolve (s.acc.extractLsb' 0 15) s
    let p := translate k s
    ∃ (t : State) (b : WriteBuffer) (m : Memory) (found : Phys → MemCell),
      exec (.mod r addr) s = .next t ∧ goesOn .mod s t ∧
      settled t = settled { s with acc := (found p).word, wb := b, mem := m } ∧
      (∀ q, memRead q t =
        if q = p then ⟨(found p).word ||| BitVec.twoPow 48 Config.claimBit.val, (found p).tag⟩ else found q) ∧
      (wbMisses k s → b = s.wb ∧ ∀ q, found q = memRead q s) ∧
      ∀ i : Fin 8, wbHits k i s →
        b = { s.wb with lines := s.wb.lines.set i.val { s.wb.lines[i.val] with valid := false } } ∧
        ∀ q, found q =
          if q = s.wb.lines[i.val].phys then ⟨s.wb.lines[i.val].word, s.wb.lines[i.val].tag⟩ else memRead q s

/-- `MOD` with an unassigned selector does nothing; with one that the reference declines, it is refused
(R347, R349). -/
def Obligations.ModOtherSelectors : Prop :=
  ∀ (r : Idx) (addr : Addr) (s : State), supervisor s = true →
    (∀ n, selects r addr s n → knownSelector (BitVec.ofNat 8 n) = false →
      (∀ i < 8, n ≠ Config.subopCodes.ptrWriteS.toNat + i) → (∀ o, n ≠ (Config.subopCodes.code o).toNat) →
      completesAs (.mod r addr) s s) ∧
    ∀ n, selects r addr s n → 0o140 ≤ n → n < 0o200 → exec (.mod r addr) s = .refused .unimplementedSubop

/-! ## The other agents -/

/-- A refusal sets the refusal mark and changes nothing else, and no agent takes a further step until the host resets
(R194, R460). A halted processor takes no step. The turns of the other agents: devices, a sending processor, the delivery
agent with its mailbox byte, cause bit and low nibble, a foreign store, the host's halt and resume, and the host's write of
every register, on a halted processor only (R51, R141, R420, R430, R434, R440, R442, R466). Under a fair schedule
every channel is emptied of what it holds, oldest entry first: the turn after which as many deliveries as `p` has
entries have been made leaves those after `p` (R440, R441), in a run without a refusal.
The model's choices: the reach of the refusal mark (log 19), the tape that says whose turn it is (log 14), that a delivery from an empty channel does nothing
(log 15), that a resume clears the halt record alone and a halt replaces it (log 36, log 41), that a device may set any bit
(log 42) and a foreign send name any processors (log 43), the registers a host may set (log 38), and the form of the
fairness condition (log 45). -/
def Obligations.AgentsTakeTurns : Prop :=
  (∀ (s : State) (r : Refusal), s.refusalMark = some r → s.inputs.head? ≠ some .hostReset → step s = .refused r) ∧
  (∀ (schedule : Nat → Input) (s : State) (r : Refusal) (n : Nat),
    step { afterTurns schedule n s with inputs := [schedule n] } = .refused r →
    ∀ k, (∀ i, n < i → i ≤ n + k → schedule i ≠ .hostReset) →
      afterTurns schedule (n + 1 + k) s = { afterTurns schedule n s with refusalMark := some r }) ∧
  (∀ (s : State) (l : List Input), s.refusalMark = none →
    (∀ c, s.halted = some c →
      step { s with inputs := [] } = .fault (.halted c) ∧ step { s with inputs := .cpu :: l } = .fault (.halted c) ∧
      ∀ w : HostWrite, step { s with inputs := .hostSet w :: l } = .next
        (match w with
        | .acc v => { s with inputs := l, acc := v }
        | .rmr v => { s with inputs := l, rmr := v }
        | .m j v => writeM j v { s with inputs := l }
        | .pc v => { s with inputs := l, pc := v }
        | .rau v => { s with inputs := l, rau := v }
        | .ruu v => { s with inputs := l, ruu := v }
        | .grp v => { s with inputs := l, grp := v }
        | .mgrp v => { s with inputs := l, mgrp := v }
        | .prp v => { s with inputs := l, prp := v }
        | .mprp v => { s with inputs := l, mprp := v }
        | .rpU i v => { s with inputs := l, rpU := s.rpU.set i.val v }
        | .rpS i v => { s with inputs := l, rpS := s.rpS.set i.val v }
        | .rz v => { s with inputs := l, rz := v }
        | .trapping v => { s with inputs := l, trapping := v }
        | .clock v => { s with inputs := l, clock := v }
        | .timer v => { s with inputs := l, timer := v })) ∧
    (s.halted = none → ∀ w, step { s with inputs := .hostSet w :: l } = .next { s with inputs := l }) ∧
    (∀ g p, step { s with inputs := .device g p :: l } =
      .next { s with inputs := l, grp := s.grp ||| g, prp := s.prp ||| p }) ∧
    (∀ m, step { s with inputs := .send m :: l } = .next { s with inputs := l, chan := s.chan ++ [m] }) ∧
    (∀ src dst, (∀ n ∈ s.chan, ¬(n.src = src ∧ n.dst = dst)) →
      step { s with inputs := .deliver src dst :: l } = .next { s with inputs := l }) ∧
    (∀ (m : Message) (c d : List Message), s.chan = c ++ m :: d → (∀ n ∈ c, ¬(n.src = m.src ∧ n.dst = m.dst)) →
      (m.dst ≠ Config.topology.self →
        step { s with inputs := .deliver m.src m.dst :: l } = .next { s with inputs := l, chan := c ++ d }) ∧
      (m.dst = Config.topology.self → sparseWf Mailbox.empty s.mbox →
        ∃ b, step { s with inputs := .deliver m.src m.dst :: l } =
            .next { s with
              inputs := l, chan := c ++ d, mbox := b
              prp := s.prp ||| (BitVec.twoPow 48 (Config.prpCauseBit m.kind m.src).val |||
                (m.byte &&& 0xF).setWidth 48 <<< (Config.prpDataBit m.kind m.src).val) } ∧
          ∀ (n : Nat) (k : MsgKind), (sparseGet Mailbox.empty b n).byteOf k =
            if n = m.src ∧ k = m.kind then ⟨m.byte, true⟩ else (mailbox n s).byteOf k)) ∧
    (∀ p c, p.toNat < memWords s →
      step { s with inputs := .memWrite p c :: l } = .next { memWrite p c s with inputs := l }) ∧
    step { s with inputs := .hostHalt :: l } = .next { s with inputs := l, halted := some .host } ∧
    step { s with inputs := .hostResume :: l } = .next { s with inputs := l, halted := none }) ∧
  ∀ (schedule : Nat → Input) (s : State) (src dst : Nat) (p q : List Message), fair schedule →
    (∀ n, (afterTurns schedule n s).refusalMark = none) →
    (s.chan.filter fun m => m.src = src ∧ m.dst = dst) = p ++ q →
    ∃ n e, ((afterTurns schedule n s).chan.filter fun m => m.src = src ∧ m.dst = dst) = q ++ e ∧
      ((List.range n).countP fun i => schedule i = .deliver src dst) = p.length

/-! ## The machine -/

/-- Right after reset the caches, memory and the mailboxes are good. That memory lists nothing and the invalid lines
hold zero are the model's choices (log 1, log 4). -/
def Obligations.InvariantAtReset : Prop := Inv State.reset

/-- Every step keeps the caches good and memory in its canonical form and inside its bounds, and the two parameters of
the setup (R7, R45, R46, R91, R112, R131, R132). -/
def Obligations.StepKeepsInvariant : Prop :=
  ∀ s t : State, Inv s → step s = .next t → Inv t ∧ t.setup = s.setup

/-- No half run in user mode changes a page table, the protection register, an interrupt mask, PRP, a debug register,
a return register, the timer, a mailbox or a channel; it reaches supervisor mode only by an internal entry or an
extracode, at that entry's vector; and while it stays in user mode, PSW, SPSW, the saved addresses and GRP keep their
values (R33, R191, R425). -/
def Obligations.UserModeIsConfined : Prop :=
  ∀ (i : Instr) (s t : State), supervisor s = false → exec i s = .next t →
    (t.rpU = s.rpU ∧ t.rpS = s.rpS ∧ t.rz = s.rz ∧ t.mgrp = s.mgrp ∧ t.mprp = s.mprp ∧ t.prp = s.prp ∧
      t.ibp = s.ibp ∧ t.dwp = s.dwp ∧ t.ret0 = s.ret0 ∧ t.ret1 = s.ret1 ∧ t.timer = s.timer ∧ t.mbox = s.mbox ∧
      t.chan = s.chan ∧ t.ruu.avostDisable = s.ruu.avostDisable ∧ t.ruu.convolLeft = s.ruu.convolLeft ∧
      t.ruu.convolRight = s.ruu.convolRight) ∧
    (supervisor t = true →
      (t.pc = Config.vecInt ∧ t.ruu.interrupt = true ∧ t.iret = s.pc ∧ t.trapping = true) ∨
      ((∃ x, t.pc = Config.vecXc x) ∧ t.ruu.extracode = true ∧ t.eret = (nextHalf s).1 ∧ t.grp = s.grp)) ∧
    (supervisor t = false →
      t.psw = s.psw ∧ t.spsw = s.spsw ∧ t.eret = s.eret ∧ t.iret = s.iret ∧ t.grp = s.grp)

/-! ## The fetch path -/

/-- The fetch path of the prefetch cache: a hit finds its line's word and tag and touches the line; a miss finds the
memory cell at the translated address, installs it in the oldest line and touches that line; every other line and every
other field stay (R121, R131). The model's choices, defaults of parameters the spec leaves OPEN (log 10): a miss does not
look into the write buffer, and a hit on the oldest line is touched like any other. -/
def Obligations.FetchFindsAndInstalls : Prop :=
  ∀ (k : Key) (s : State),
    (∀ i : Fin 4, pfHits k i s →
      fetchCell k s = ⟨s.pf.lines[i.val].word, s.pf.lines[i.val].tag⟩ ∧
      fetchCommit k s = { s with pf := pfTouch i s.pf }) ∧
    (pfMisses k s →
      let t := fetchCommit k s
      let o := s.pf.oldest
      fetchCell k s = memRead (translate k s) s ∧ { t with pf := s.pf } = s ∧
      t.pf.lines[o.val] = ⟨true, k, (memRead (translate k s) s).word, (memRead (translate k s) s).tag⟩ ∧
      (∀ j : Fin 4, j ≠ o → t.pf.lines[j.val] = s.pf.lines[j.val]) ∧
      t.pf.newer = (pfTouch o s.pf).newer ∧ t.pf.oldest = (pfTouch o s.pf).oldest)
end

