-- ==== Sys2Proof/Laws/State.lean ====
section
/-!
SUPPORT. The fields of a state after each named update, one lemma per field, so that no later proof unfolds an update.
-/

namespace Sys2Proof.Machine

-- The many small theorems are elaborated one after another, so that the file needs few threads.
set_option Elab.async false

variable (s : State)

/-! ### `beginHalf` -/

@[simp] theorem beginHalf_setup : (beginHalf s).setup = s.setup := rfl
@[simp] theorem beginHalf_acc : (beginHalf s).acc = s.acc := rfl
@[simp] theorem beginHalf_rmr : (beginHalf s).rmr = s.rmr := rfl
@[simp] theorem beginHalf_gen : (beginHalf s).gen = s.gen := rfl
@[simp] theorem beginHalf_mod : (beginHalf s).mod = s.mod := rfl
@[simp] theorem beginHalf_psw : (beginHalf s).psw = s.psw := rfl
@[simp] theorem beginHalf_m22 : (beginHalf s).m22 = s.m22 := rfl
@[simp] theorem beginHalf_m23 : (beginHalf s).m23 = s.m23 := rfl
@[simp] theorem beginHalf_m24 : (beginHalf s).m24 = s.m24 := rfl
@[simp] theorem beginHalf_m25 : (beginHalf s).m25 = s.m25 := rfl
@[simp] theorem beginHalf_m26 : (beginHalf s).m26 = s.m26 := rfl
@[simp] theorem beginHalf_spsw : (beginHalf s).spsw = s.spsw := rfl
@[simp] theorem beginHalf_ret0 : (beginHalf s).ret0 = s.ret0 := rfl
@[simp] theorem beginHalf_ret1 : (beginHalf s).ret1 = s.ret1 := rfl
@[simp] theorem beginHalf_eret : (beginHalf s).eret = s.eret := rfl
@[simp] theorem beginHalf_iret : (beginHalf s).iret = s.iret := rfl
@[simp] theorem beginHalf_ibp : (beginHalf s).ibp = s.ibp := rfl
@[simp] theorem beginHalf_dwp : (beginHalf s).dwp = s.dwp := rfl
@[simp] theorem beginHalf_m36 : (beginHalf s).m36 = s.m36 := rfl
@[simp] theorem beginHalf_m37 : (beginHalf s).m37 = s.m37 := rfl
@[simp] theorem beginHalf_pc : (beginHalf s).pc = s.pc := rfl
@[simp] theorem beginHalf_rau : (beginHalf s).rau = s.rau := rfl
@[simp] theorem beginHalf_ruu : (beginHalf s).ruu = s.ruu := rfl
@[simp] theorem beginHalf_grp : (beginHalf s).grp = s.grp := rfl
@[simp] theorem beginHalf_mgrp : (beginHalf s).mgrp = s.mgrp := rfl
@[simp] theorem beginHalf_prp : (beginHalf s).prp = s.prp := rfl
@[simp] theorem beginHalf_mprp : (beginHalf s).mprp = s.mprp := rfl
@[simp] theorem beginHalf_rpU : (beginHalf s).rpU = s.rpU := rfl
@[simp] theorem beginHalf_rpS : (beginHalf s).rpS = s.rpS := rfl
@[simp] theorem beginHalf_rz : (beginHalf s).rz = s.rz := rfl
@[simp] theorem beginHalf_wb : (beginHalf s).wb = s.wb := rfl
@[simp] theorem beginHalf_pf : (beginHalf s).pf = s.pf := rfl
@[simp] theorem beginHalf_mem : (beginHalf s).mem = s.mem := rfl
@[simp] theorem beginHalf_trapping : (beginHalf s).trapping = s.trapping := rfl
@[simp] theorem beginHalf_corr : (beginHalf s).corr = .zero := rfl
@[simp] theorem beginHalf_nextMod : (beginHalf s).nextMod = none := rfl
@[simp] theorem beginHalf_jumped : (beginHalf s).jumped = false := rfl
@[simp] theorem beginHalf_halted : (beginHalf s).halted = s.halted := rfl
@[simp] theorem beginHalf_refusalMark : (beginHalf s).refusalMark = s.refusalMark := rfl
@[simp] theorem beginHalf_clock : (beginHalf s).clock = s.clock := rfl
@[simp] theorem beginHalf_timer : (beginHalf s).timer = s.timer := rfl
@[simp] theorem beginHalf_mbox : (beginHalf s).mbox = s.mbox := rfl
@[simp] theorem beginHalf_chan : (beginHalf s).chan = s.chan := rfl
@[simp] theorem beginHalf_draws : (beginHalf s).draws = s.draws := rfl
@[simp] theorem beginHalf_inputs : (beginHalf s).inputs = s.inputs := rfl

/-! ### `stopWith` -/

@[simp] theorem stopWith_setup (c : StopCode) : (stopWith c s).setup = s.setup := rfl
@[simp] theorem stopWith_acc (c : StopCode) : (stopWith c s).acc = s.acc := rfl
@[simp] theorem stopWith_rmr (c : StopCode) : (stopWith c s).rmr = s.rmr := rfl
@[simp] theorem stopWith_gen (c : StopCode) : (stopWith c s).gen = s.gen := rfl
@[simp] theorem stopWith_mod (c : StopCode) : (stopWith c s).mod = s.mod := rfl
@[simp] theorem stopWith_psw (c : StopCode) : (stopWith c s).psw = s.psw := rfl
@[simp] theorem stopWith_m22 (c : StopCode) : (stopWith c s).m22 = s.m22 := rfl
@[simp] theorem stopWith_m23 (c : StopCode) : (stopWith c s).m23 = s.m23 := rfl
@[simp] theorem stopWith_m24 (c : StopCode) : (stopWith c s).m24 = s.m24 := rfl
@[simp] theorem stopWith_m25 (c : StopCode) : (stopWith c s).m25 = s.m25 := rfl
@[simp] theorem stopWith_m26 (c : StopCode) : (stopWith c s).m26 = s.m26 := rfl
@[simp] theorem stopWith_spsw (c : StopCode) : (stopWith c s).spsw = s.spsw := rfl
@[simp] theorem stopWith_ret0 (c : StopCode) : (stopWith c s).ret0 = s.ret0 := rfl
@[simp] theorem stopWith_ret1 (c : StopCode) : (stopWith c s).ret1 = s.ret1 := rfl
@[simp] theorem stopWith_eret (c : StopCode) : (stopWith c s).eret = s.eret := rfl
@[simp] theorem stopWith_iret (c : StopCode) : (stopWith c s).iret = s.iret := rfl
@[simp] theorem stopWith_ibp (c : StopCode) : (stopWith c s).ibp = s.ibp := rfl
@[simp] theorem stopWith_dwp (c : StopCode) : (stopWith c s).dwp = s.dwp := rfl
@[simp] theorem stopWith_m36 (c : StopCode) : (stopWith c s).m36 = s.m36 := rfl
@[simp] theorem stopWith_m37 (c : StopCode) : (stopWith c s).m37 = s.m37 := rfl
@[simp] theorem stopWith_pc (c : StopCode) : (stopWith c s).pc = s.pc := rfl
@[simp] theorem stopWith_rau (c : StopCode) : (stopWith c s).rau = s.rau := rfl
@[simp] theorem stopWith_ruu (c : StopCode) : (stopWith c s).ruu = s.ruu := rfl
@[simp] theorem stopWith_grp (c : StopCode) : (stopWith c s).grp = s.grp := rfl
@[simp] theorem stopWith_mgrp (c : StopCode) : (stopWith c s).mgrp = s.mgrp := rfl
@[simp] theorem stopWith_prp (c : StopCode) : (stopWith c s).prp = s.prp := rfl
@[simp] theorem stopWith_mprp (c : StopCode) : (stopWith c s).mprp = s.mprp := rfl
@[simp] theorem stopWith_rpU (c : StopCode) : (stopWith c s).rpU = s.rpU := rfl
@[simp] theorem stopWith_rpS (c : StopCode) : (stopWith c s).rpS = s.rpS := rfl
@[simp] theorem stopWith_rz (c : StopCode) : (stopWith c s).rz = s.rz := rfl
@[simp] theorem stopWith_wb (c : StopCode) : (stopWith c s).wb = s.wb := rfl
@[simp] theorem stopWith_pf (c : StopCode) : (stopWith c s).pf = s.pf := rfl
@[simp] theorem stopWith_mem (c : StopCode) : (stopWith c s).mem = s.mem := rfl
@[simp] theorem stopWith_trapping (c : StopCode) : (stopWith c s).trapping = s.trapping := rfl
@[simp] theorem stopWith_corr (c : StopCode) : (stopWith c s).corr = s.corr := rfl
@[simp] theorem stopWith_nextMod (c : StopCode) : (stopWith c s).nextMod = s.nextMod := rfl
@[simp] theorem stopWith_jumped (c : StopCode) : (stopWith c s).jumped = s.jumped := rfl
@[simp] theorem stopWith_halted (c : StopCode) : (stopWith c s).halted = some c := rfl
@[simp] theorem stopWith_refusalMark (c : StopCode) : (stopWith c s).refusalMark = s.refusalMark := rfl
@[simp] theorem stopWith_clock (c : StopCode) : (stopWith c s).clock = s.clock := rfl
@[simp] theorem stopWith_timer (c : StopCode) : (stopWith c s).timer = s.timer := rfl
@[simp] theorem stopWith_mbox (c : StopCode) : (stopWith c s).mbox = s.mbox := rfl
@[simp] theorem stopWith_chan (c : StopCode) : (stopWith c s).chan = s.chan := rfl
@[simp] theorem stopWith_draws (c : StopCode) : (stopWith c s).draws = s.draws := rfl
@[simp] theorem stopWith_inputs (c : StopCode) : (stopWith c s).inputs = s.inputs := rfl

/-! ### `markRefused` -/

@[simp] theorem markRefused_setup (r : Refusal) : (markRefused r s).setup = s.setup := rfl
@[simp] theorem markRefused_acc (r : Refusal) : (markRefused r s).acc = s.acc := rfl
@[simp] theorem markRefused_rmr (r : Refusal) : (markRefused r s).rmr = s.rmr := rfl
@[simp] theorem markRefused_gen (r : Refusal) : (markRefused r s).gen = s.gen := rfl
@[simp] theorem markRefused_mod (r : Refusal) : (markRefused r s).mod = s.mod := rfl
@[simp] theorem markRefused_psw (r : Refusal) : (markRefused r s).psw = s.psw := rfl
@[simp] theorem markRefused_m22 (r : Refusal) : (markRefused r s).m22 = s.m22 := rfl
@[simp] theorem markRefused_m23 (r : Refusal) : (markRefused r s).m23 = s.m23 := rfl
@[simp] theorem markRefused_m24 (r : Refusal) : (markRefused r s).m24 = s.m24 := rfl
@[simp] theorem markRefused_m25 (r : Refusal) : (markRefused r s).m25 = s.m25 := rfl
@[simp] theorem markRefused_m26 (r : Refusal) : (markRefused r s).m26 = s.m26 := rfl
@[simp] theorem markRefused_spsw (r : Refusal) : (markRefused r s).spsw = s.spsw := rfl
@[simp] theorem markRefused_ret0 (r : Refusal) : (markRefused r s).ret0 = s.ret0 := rfl
@[simp] theorem markRefused_ret1 (r : Refusal) : (markRefused r s).ret1 = s.ret1 := rfl
@[simp] theorem markRefused_eret (r : Refusal) : (markRefused r s).eret = s.eret := rfl
@[simp] theorem markRefused_iret (r : Refusal) : (markRefused r s).iret = s.iret := rfl
@[simp] theorem markRefused_ibp (r : Refusal) : (markRefused r s).ibp = s.ibp := rfl
@[simp] theorem markRefused_dwp (r : Refusal) : (markRefused r s).dwp = s.dwp := rfl
@[simp] theorem markRefused_m36 (r : Refusal) : (markRefused r s).m36 = s.m36 := rfl
@[simp] theorem markRefused_m37 (r : Refusal) : (markRefused r s).m37 = s.m37 := rfl
@[simp] theorem markRefused_pc (r : Refusal) : (markRefused r s).pc = s.pc := rfl
@[simp] theorem markRefused_rau (r : Refusal) : (markRefused r s).rau = s.rau := rfl
@[simp] theorem markRefused_ruu (r : Refusal) : (markRefused r s).ruu = s.ruu := rfl
@[simp] theorem markRefused_grp (r : Refusal) : (markRefused r s).grp = s.grp := rfl
@[simp] theorem markRefused_mgrp (r : Refusal) : (markRefused r s).mgrp = s.mgrp := rfl
@[simp] theorem markRefused_prp (r : Refusal) : (markRefused r s).prp = s.prp := rfl
@[simp] theorem markRefused_mprp (r : Refusal) : (markRefused r s).mprp = s.mprp := rfl
@[simp] theorem markRefused_rpU (r : Refusal) : (markRefused r s).rpU = s.rpU := rfl
@[simp] theorem markRefused_rpS (r : Refusal) : (markRefused r s).rpS = s.rpS := rfl
@[simp] theorem markRefused_rz (r : Refusal) : (markRefused r s).rz = s.rz := rfl
@[simp] theorem markRefused_wb (r : Refusal) : (markRefused r s).wb = s.wb := rfl
@[simp] theorem markRefused_pf (r : Refusal) : (markRefused r s).pf = s.pf := rfl
@[simp] theorem markRefused_mem (r : Refusal) : (markRefused r s).mem = s.mem := rfl
@[simp] theorem markRefused_trapping (r : Refusal) : (markRefused r s).trapping = s.trapping := rfl
@[simp] theorem markRefused_corr (r : Refusal) : (markRefused r s).corr = s.corr := rfl
@[simp] theorem markRefused_nextMod (r : Refusal) : (markRefused r s).nextMod = s.nextMod := rfl
@[simp] theorem markRefused_jumped (r : Refusal) : (markRefused r s).jumped = s.jumped := rfl
@[simp] theorem markRefused_halted (r : Refusal) : (markRefused r s).halted = s.halted := rfl
@[simp] theorem markRefused_refusalMark (r : Refusal) : (markRefused r s).refusalMark = some r := rfl
@[simp] theorem markRefused_clock (r : Refusal) : (markRefused r s).clock = s.clock := rfl
@[simp] theorem markRefused_timer (r : Refusal) : (markRefused r s).timer = s.timer := rfl
@[simp] theorem markRefused_mbox (r : Refusal) : (markRefused r s).mbox = s.mbox := rfl
@[simp] theorem markRefused_chan (r : Refusal) : (markRefused r s).chan = s.chan := rfl
@[simp] theorem markRefused_draws (r : Refusal) : (markRefused r s).draws = s.draws := rfl
@[simp] theorem markRefused_inputs (r : Refusal) : (markRefused r s).inputs = s.inputs := rfl

/-! ### `setGroup` -/

@[simp] theorem setGroup_setup (g : Group) : (setGroup g s).setup = s.setup := rfl
@[simp] theorem setGroup_acc (g : Group) : (setGroup g s).acc = s.acc := rfl
@[simp] theorem setGroup_rmr (g : Group) : (setGroup g s).rmr = s.rmr := rfl
@[simp] theorem setGroup_gen (g : Group) : (setGroup g s).gen = s.gen := rfl
@[simp] theorem setGroup_mod (g : Group) : (setGroup g s).mod = s.mod := rfl
@[simp] theorem setGroup_psw (g : Group) : (setGroup g s).psw = s.psw := rfl
@[simp] theorem setGroup_m22 (g : Group) : (setGroup g s).m22 = s.m22 := rfl
@[simp] theorem setGroup_m23 (g : Group) : (setGroup g s).m23 = s.m23 := rfl
@[simp] theorem setGroup_m24 (g : Group) : (setGroup g s).m24 = s.m24 := rfl
@[simp] theorem setGroup_m25 (g : Group) : (setGroup g s).m25 = s.m25 := rfl
@[simp] theorem setGroup_m26 (g : Group) : (setGroup g s).m26 = s.m26 := rfl
@[simp] theorem setGroup_spsw (g : Group) : (setGroup g s).spsw = s.spsw := rfl
@[simp] theorem setGroup_ret0 (g : Group) : (setGroup g s).ret0 = s.ret0 := rfl
@[simp] theorem setGroup_ret1 (g : Group) : (setGroup g s).ret1 = s.ret1 := rfl
@[simp] theorem setGroup_eret (g : Group) : (setGroup g s).eret = s.eret := rfl
@[simp] theorem setGroup_iret (g : Group) : (setGroup g s).iret = s.iret := rfl
@[simp] theorem setGroup_ibp (g : Group) : (setGroup g s).ibp = s.ibp := rfl
@[simp] theorem setGroup_dwp (g : Group) : (setGroup g s).dwp = s.dwp := rfl
@[simp] theorem setGroup_m36 (g : Group) : (setGroup g s).m36 = s.m36 := rfl
@[simp] theorem setGroup_m37 (g : Group) : (setGroup g s).m37 = s.m37 := rfl
@[simp] theorem setGroup_pc (g : Group) : (setGroup g s).pc = s.pc := rfl
@[simp] theorem setGroup_rau (g : Group) : (setGroup g s).rau = rauWithGroup g s.rau := rfl
@[simp] theorem setGroup_ruu (g : Group) : (setGroup g s).ruu = s.ruu := rfl
@[simp] theorem setGroup_grp (g : Group) : (setGroup g s).grp = s.grp := rfl
@[simp] theorem setGroup_mgrp (g : Group) : (setGroup g s).mgrp = s.mgrp := rfl
@[simp] theorem setGroup_prp (g : Group) : (setGroup g s).prp = s.prp := rfl
@[simp] theorem setGroup_mprp (g : Group) : (setGroup g s).mprp = s.mprp := rfl
@[simp] theorem setGroup_rpU (g : Group) : (setGroup g s).rpU = s.rpU := rfl
@[simp] theorem setGroup_rpS (g : Group) : (setGroup g s).rpS = s.rpS := rfl
@[simp] theorem setGroup_rz (g : Group) : (setGroup g s).rz = s.rz := rfl
@[simp] theorem setGroup_wb (g : Group) : (setGroup g s).wb = s.wb := rfl
@[simp] theorem setGroup_pf (g : Group) : (setGroup g s).pf = s.pf := rfl
@[simp] theorem setGroup_mem (g : Group) : (setGroup g s).mem = s.mem := rfl
@[simp] theorem setGroup_trapping (g : Group) : (setGroup g s).trapping = s.trapping := rfl
@[simp] theorem setGroup_corr (g : Group) : (setGroup g s).corr = s.corr := rfl
@[simp] theorem setGroup_nextMod (g : Group) : (setGroup g s).nextMod = s.nextMod := rfl
@[simp] theorem setGroup_jumped (g : Group) : (setGroup g s).jumped = s.jumped := rfl
@[simp] theorem setGroup_halted (g : Group) : (setGroup g s).halted = s.halted := rfl
@[simp] theorem setGroup_refusalMark (g : Group) : (setGroup g s).refusalMark = s.refusalMark := rfl
@[simp] theorem setGroup_clock (g : Group) : (setGroup g s).clock = s.clock := rfl
@[simp] theorem setGroup_timer (g : Group) : (setGroup g s).timer = s.timer := rfl
@[simp] theorem setGroup_mbox (g : Group) : (setGroup g s).mbox = s.mbox := rfl
@[simp] theorem setGroup_chan (g : Group) : (setGroup g s).chan = s.chan := rfl
@[simp] theorem setGroup_draws (g : Group) : (setGroup g s).draws = s.draws := rfl
@[simp] theorem setGroup_inputs (g : Group) : (setGroup g s).inputs = s.inputs := rfl

/-! ### `jump` -/

@[simp] theorem jump_setup (a : Addr) : (jump a s).setup = s.setup := rfl
@[simp] theorem jump_acc (a : Addr) : (jump a s).acc = s.acc := rfl
@[simp] theorem jump_rmr (a : Addr) : (jump a s).rmr = s.rmr := rfl
@[simp] theorem jump_gen (a : Addr) : (jump a s).gen = s.gen := rfl
@[simp] theorem jump_mod (a : Addr) : (jump a s).mod = s.mod := rfl
@[simp] theorem jump_psw (a : Addr) : (jump a s).psw = s.psw := rfl
@[simp] theorem jump_m22 (a : Addr) : (jump a s).m22 = s.m22 := rfl
@[simp] theorem jump_m23 (a : Addr) : (jump a s).m23 = s.m23 := rfl
@[simp] theorem jump_m24 (a : Addr) : (jump a s).m24 = s.m24 := rfl
@[simp] theorem jump_m25 (a : Addr) : (jump a s).m25 = s.m25 := rfl
@[simp] theorem jump_m26 (a : Addr) : (jump a s).m26 = s.m26 := rfl
@[simp] theorem jump_spsw (a : Addr) : (jump a s).spsw = s.spsw := rfl
@[simp] theorem jump_ret0 (a : Addr) : (jump a s).ret0 = s.ret0 := rfl
@[simp] theorem jump_ret1 (a : Addr) : (jump a s).ret1 = s.ret1 := rfl
@[simp] theorem jump_eret (a : Addr) : (jump a s).eret = s.eret := rfl
@[simp] theorem jump_iret (a : Addr) : (jump a s).iret = s.iret := rfl
@[simp] theorem jump_ibp (a : Addr) : (jump a s).ibp = s.ibp := rfl
@[simp] theorem jump_dwp (a : Addr) : (jump a s).dwp = s.dwp := rfl
@[simp] theorem jump_m36 (a : Addr) : (jump a s).m36 = s.m36 := rfl
@[simp] theorem jump_m37 (a : Addr) : (jump a s).m37 = s.m37 := rfl
@[simp] theorem jump_pc (a : Addr) : (jump a s).pc = a := rfl
@[simp] theorem jump_rau (a : Addr) : (jump a s).rau = s.rau := rfl
@[simp] theorem jump_ruu (a : Addr) : (jump a s).ruu = { s.ruu with right := false } := rfl
@[simp] theorem jump_grp (a : Addr) : (jump a s).grp = s.grp := rfl
@[simp] theorem jump_mgrp (a : Addr) : (jump a s).mgrp = s.mgrp := rfl
@[simp] theorem jump_prp (a : Addr) : (jump a s).prp = s.prp := rfl
@[simp] theorem jump_mprp (a : Addr) : (jump a s).mprp = s.mprp := rfl
@[simp] theorem jump_rpU (a : Addr) : (jump a s).rpU = s.rpU := rfl
@[simp] theorem jump_rpS (a : Addr) : (jump a s).rpS = s.rpS := rfl
@[simp] theorem jump_rz (a : Addr) : (jump a s).rz = s.rz := rfl
@[simp] theorem jump_wb (a : Addr) : (jump a s).wb = s.wb := rfl
@[simp] theorem jump_pf (a : Addr) : (jump a s).pf = s.pf := rfl
@[simp] theorem jump_mem (a : Addr) : (jump a s).mem = s.mem := rfl
@[simp] theorem jump_trapping (a : Addr) : (jump a s).trapping = s.trapping := rfl
@[simp] theorem jump_corr (a : Addr) : (jump a s).corr = s.corr := rfl
@[simp] theorem jump_nextMod (a : Addr) : (jump a s).nextMod = s.nextMod := rfl
@[simp] theorem jump_jumped (a : Addr) : (jump a s).jumped = true := rfl
@[simp] theorem jump_halted (a : Addr) : (jump a s).halted = s.halted := rfl
@[simp] theorem jump_refusalMark (a : Addr) : (jump a s).refusalMark = s.refusalMark := rfl
@[simp] theorem jump_clock (a : Addr) : (jump a s).clock = s.clock := rfl
@[simp] theorem jump_timer (a : Addr) : (jump a s).timer = s.timer := rfl
@[simp] theorem jump_mbox (a : Addr) : (jump a s).mbox = s.mbox := rfl
@[simp] theorem jump_chan (a : Addr) : (jump a s).chan = s.chan := rfl
@[simp] theorem jump_draws (a : Addr) : (jump a s).draws = s.draws := rfl
@[simp] theorem jump_inputs (a : Addr) : (jump a s).inputs = s.inputs := rfl

/-! ### `memWrite` -/

@[simp] theorem memWrite_setup (p : Phys) (c : MemCell) : (memWrite p c s).setup = s.setup := rfl
@[simp] theorem memWrite_acc (p : Phys) (c : MemCell) : (memWrite p c s).acc = s.acc := rfl
@[simp] theorem memWrite_rmr (p : Phys) (c : MemCell) : (memWrite p c s).rmr = s.rmr := rfl
@[simp] theorem memWrite_gen (p : Phys) (c : MemCell) : (memWrite p c s).gen = s.gen := rfl
@[simp] theorem memWrite_mod (p : Phys) (c : MemCell) : (memWrite p c s).mod = s.mod := rfl
@[simp] theorem memWrite_psw (p : Phys) (c : MemCell) : (memWrite p c s).psw = s.psw := rfl
@[simp] theorem memWrite_m22 (p : Phys) (c : MemCell) : (memWrite p c s).m22 = s.m22 := rfl
@[simp] theorem memWrite_m23 (p : Phys) (c : MemCell) : (memWrite p c s).m23 = s.m23 := rfl
@[simp] theorem memWrite_m24 (p : Phys) (c : MemCell) : (memWrite p c s).m24 = s.m24 := rfl
@[simp] theorem memWrite_m25 (p : Phys) (c : MemCell) : (memWrite p c s).m25 = s.m25 := rfl
@[simp] theorem memWrite_m26 (p : Phys) (c : MemCell) : (memWrite p c s).m26 = s.m26 := rfl
@[simp] theorem memWrite_spsw (p : Phys) (c : MemCell) : (memWrite p c s).spsw = s.spsw := rfl
@[simp] theorem memWrite_ret0 (p : Phys) (c : MemCell) : (memWrite p c s).ret0 = s.ret0 := rfl
@[simp] theorem memWrite_ret1 (p : Phys) (c : MemCell) : (memWrite p c s).ret1 = s.ret1 := rfl
@[simp] theorem memWrite_eret (p : Phys) (c : MemCell) : (memWrite p c s).eret = s.eret := rfl
@[simp] theorem memWrite_iret (p : Phys) (c : MemCell) : (memWrite p c s).iret = s.iret := rfl
@[simp] theorem memWrite_ibp (p : Phys) (c : MemCell) : (memWrite p c s).ibp = s.ibp := rfl
@[simp] theorem memWrite_dwp (p : Phys) (c : MemCell) : (memWrite p c s).dwp = s.dwp := rfl
@[simp] theorem memWrite_m36 (p : Phys) (c : MemCell) : (memWrite p c s).m36 = s.m36 := rfl
@[simp] theorem memWrite_m37 (p : Phys) (c : MemCell) : (memWrite p c s).m37 = s.m37 := rfl
@[simp] theorem memWrite_pc (p : Phys) (c : MemCell) : (memWrite p c s).pc = s.pc := rfl
@[simp] theorem memWrite_rau (p : Phys) (c : MemCell) : (memWrite p c s).rau = s.rau := rfl
@[simp] theorem memWrite_ruu (p : Phys) (c : MemCell) : (memWrite p c s).ruu = s.ruu := rfl
@[simp] theorem memWrite_grp (p : Phys) (c : MemCell) : (memWrite p c s).grp = s.grp := rfl
@[simp] theorem memWrite_mgrp (p : Phys) (c : MemCell) : (memWrite p c s).mgrp = s.mgrp := rfl
@[simp] theorem memWrite_prp (p : Phys) (c : MemCell) : (memWrite p c s).prp = s.prp := rfl
@[simp] theorem memWrite_mprp (p : Phys) (c : MemCell) : (memWrite p c s).mprp = s.mprp := rfl
@[simp] theorem memWrite_rpU (p : Phys) (c : MemCell) : (memWrite p c s).rpU = s.rpU := rfl
@[simp] theorem memWrite_rpS (p : Phys) (c : MemCell) : (memWrite p c s).rpS = s.rpS := rfl
@[simp] theorem memWrite_rz (p : Phys) (c : MemCell) : (memWrite p c s).rz = s.rz := rfl
@[simp] theorem memWrite_wb (p : Phys) (c : MemCell) : (memWrite p c s).wb = s.wb := rfl
@[simp] theorem memWrite_pf (p : Phys) (c : MemCell) : (memWrite p c s).pf = s.pf := rfl
@[simp] theorem memWrite_mem (p : Phys) (c : MemCell) : (memWrite p c s).mem = sparseSet MemCell.unlisted p.toNat c s.mem := rfl
@[simp] theorem memWrite_trapping (p : Phys) (c : MemCell) : (memWrite p c s).trapping = s.trapping := rfl
@[simp] theorem memWrite_corr (p : Phys) (c : MemCell) : (memWrite p c s).corr = s.corr := rfl
@[simp] theorem memWrite_nextMod (p : Phys) (c : MemCell) : (memWrite p c s).nextMod = s.nextMod := rfl
@[simp] theorem memWrite_jumped (p : Phys) (c : MemCell) : (memWrite p c s).jumped = s.jumped := rfl
@[simp] theorem memWrite_halted (p : Phys) (c : MemCell) : (memWrite p c s).halted = s.halted := rfl
@[simp] theorem memWrite_refusalMark (p : Phys) (c : MemCell) : (memWrite p c s).refusalMark = s.refusalMark := rfl
@[simp] theorem memWrite_clock (p : Phys) (c : MemCell) : (memWrite p c s).clock = s.clock := rfl
@[simp] theorem memWrite_timer (p : Phys) (c : MemCell) : (memWrite p c s).timer = s.timer := rfl
@[simp] theorem memWrite_mbox (p : Phys) (c : MemCell) : (memWrite p c s).mbox = s.mbox := rfl
@[simp] theorem memWrite_chan (p : Phys) (c : MemCell) : (memWrite p c s).chan = s.chan := rfl
@[simp] theorem memWrite_draws (p : Phys) (c : MemCell) : (memWrite p c s).draws = s.draws := rfl
@[simp] theorem memWrite_inputs (p : Phys) (c : MemCell) : (memWrite p c s).inputs = s.inputs := rfl

/-! ### `setMailbox` -/

@[simp] theorem setMailbox_setup (n : Nat) (b : Mailbox) : (setMailbox n b s).setup = s.setup := rfl
@[simp] theorem setMailbox_acc (n : Nat) (b : Mailbox) : (setMailbox n b s).acc = s.acc := rfl
@[simp] theorem setMailbox_rmr (n : Nat) (b : Mailbox) : (setMailbox n b s).rmr = s.rmr := rfl
@[simp] theorem setMailbox_gen (n : Nat) (b : Mailbox) : (setMailbox n b s).gen = s.gen := rfl
@[simp] theorem setMailbox_mod (n : Nat) (b : Mailbox) : (setMailbox n b s).mod = s.mod := rfl
@[simp] theorem setMailbox_psw (n : Nat) (b : Mailbox) : (setMailbox n b s).psw = s.psw := rfl
@[simp] theorem setMailbox_m22 (n : Nat) (b : Mailbox) : (setMailbox n b s).m22 = s.m22 := rfl
@[simp] theorem setMailbox_m23 (n : Nat) (b : Mailbox) : (setMailbox n b s).m23 = s.m23 := rfl
@[simp] theorem setMailbox_m24 (n : Nat) (b : Mailbox) : (setMailbox n b s).m24 = s.m24 := rfl
@[simp] theorem setMailbox_m25 (n : Nat) (b : Mailbox) : (setMailbox n b s).m25 = s.m25 := rfl
@[simp] theorem setMailbox_m26 (n : Nat) (b : Mailbox) : (setMailbox n b s).m26 = s.m26 := rfl
@[simp] theorem setMailbox_spsw (n : Nat) (b : Mailbox) : (setMailbox n b s).spsw = s.spsw := rfl
@[simp] theorem setMailbox_ret0 (n : Nat) (b : Mailbox) : (setMailbox n b s).ret0 = s.ret0 := rfl
@[simp] theorem setMailbox_ret1 (n : Nat) (b : Mailbox) : (setMailbox n b s).ret1 = s.ret1 := rfl
@[simp] theorem setMailbox_eret (n : Nat) (b : Mailbox) : (setMailbox n b s).eret = s.eret := rfl
@[simp] theorem setMailbox_iret (n : Nat) (b : Mailbox) : (setMailbox n b s).iret = s.iret := rfl
@[simp] theorem setMailbox_ibp (n : Nat) (b : Mailbox) : (setMailbox n b s).ibp = s.ibp := rfl
@[simp] theorem setMailbox_dwp (n : Nat) (b : Mailbox) : (setMailbox n b s).dwp = s.dwp := rfl
@[simp] theorem setMailbox_m36 (n : Nat) (b : Mailbox) : (setMailbox n b s).m36 = s.m36 := rfl
@[simp] theorem setMailbox_m37 (n : Nat) (b : Mailbox) : (setMailbox n b s).m37 = s.m37 := rfl
@[simp] theorem setMailbox_pc (n : Nat) (b : Mailbox) : (setMailbox n b s).pc = s.pc := rfl
@[simp] theorem setMailbox_rau (n : Nat) (b : Mailbox) : (setMailbox n b s).rau = s.rau := rfl
@[simp] theorem setMailbox_ruu (n : Nat) (b : Mailbox) : (setMailbox n b s).ruu = s.ruu := rfl
@[simp] theorem setMailbox_grp (n : Nat) (b : Mailbox) : (setMailbox n b s).grp = s.grp := rfl
@[simp] theorem setMailbox_mgrp (n : Nat) (b : Mailbox) : (setMailbox n b s).mgrp = s.mgrp := rfl
@[simp] theorem setMailbox_prp (n : Nat) (b : Mailbox) : (setMailbox n b s).prp = s.prp := rfl
@[simp] theorem setMailbox_mprp (n : Nat) (b : Mailbox) : (setMailbox n b s).mprp = s.mprp := rfl
@[simp] theorem setMailbox_rpU (n : Nat) (b : Mailbox) : (setMailbox n b s).rpU = s.rpU := rfl
@[simp] theorem setMailbox_rpS (n : Nat) (b : Mailbox) : (setMailbox n b s).rpS = s.rpS := rfl
@[simp] theorem setMailbox_rz (n : Nat) (b : Mailbox) : (setMailbox n b s).rz = s.rz := rfl
@[simp] theorem setMailbox_wb (n : Nat) (b : Mailbox) : (setMailbox n b s).wb = s.wb := rfl
@[simp] theorem setMailbox_pf (n : Nat) (b : Mailbox) : (setMailbox n b s).pf = s.pf := rfl
@[simp] theorem setMailbox_mem (n : Nat) (b : Mailbox) : (setMailbox n b s).mem = s.mem := rfl
@[simp] theorem setMailbox_trapping (n : Nat) (b : Mailbox) : (setMailbox n b s).trapping = s.trapping := rfl
@[simp] theorem setMailbox_corr (n : Nat) (b : Mailbox) : (setMailbox n b s).corr = s.corr := rfl
@[simp] theorem setMailbox_nextMod (n : Nat) (b : Mailbox) : (setMailbox n b s).nextMod = s.nextMod := rfl
@[simp] theorem setMailbox_jumped (n : Nat) (b : Mailbox) : (setMailbox n b s).jumped = s.jumped := rfl
@[simp] theorem setMailbox_halted (n : Nat) (b : Mailbox) : (setMailbox n b s).halted = s.halted := rfl
@[simp] theorem setMailbox_refusalMark (n : Nat) (b : Mailbox) : (setMailbox n b s).refusalMark = s.refusalMark := rfl
@[simp] theorem setMailbox_clock (n : Nat) (b : Mailbox) : (setMailbox n b s).clock = s.clock := rfl
@[simp] theorem setMailbox_timer (n : Nat) (b : Mailbox) : (setMailbox n b s).timer = s.timer := rfl
@[simp] theorem setMailbox_mbox (n : Nat) (b : Mailbox) : (setMailbox n b s).mbox = sparseSet Mailbox.empty n b s.mbox := rfl
@[simp] theorem setMailbox_chan (n : Nat) (b : Mailbox) : (setMailbox n b s).chan = s.chan := rfl
@[simp] theorem setMailbox_draws (n : Nat) (b : Mailbox) : (setMailbox n b s).draws = s.draws := rfl
@[simp] theorem setMailbox_inputs (n : Nat) (b : Mailbox) : (setMailbox n b s).inputs = s.inputs := rfl

/-! ### `setWbLine` -/

@[simp] theorem setWbLine_setup (i : Fin 8) (l : WbLine) : (setWbLine i l s).setup = s.setup := rfl
@[simp] theorem setWbLine_acc (i : Fin 8) (l : WbLine) : (setWbLine i l s).acc = s.acc := rfl
@[simp] theorem setWbLine_rmr (i : Fin 8) (l : WbLine) : (setWbLine i l s).rmr = s.rmr := rfl
@[simp] theorem setWbLine_gen (i : Fin 8) (l : WbLine) : (setWbLine i l s).gen = s.gen := rfl
@[simp] theorem setWbLine_mod (i : Fin 8) (l : WbLine) : (setWbLine i l s).mod = s.mod := rfl
@[simp] theorem setWbLine_psw (i : Fin 8) (l : WbLine) : (setWbLine i l s).psw = s.psw := rfl
@[simp] theorem setWbLine_m22 (i : Fin 8) (l : WbLine) : (setWbLine i l s).m22 = s.m22 := rfl
@[simp] theorem setWbLine_m23 (i : Fin 8) (l : WbLine) : (setWbLine i l s).m23 = s.m23 := rfl
@[simp] theorem setWbLine_m24 (i : Fin 8) (l : WbLine) : (setWbLine i l s).m24 = s.m24 := rfl
@[simp] theorem setWbLine_m25 (i : Fin 8) (l : WbLine) : (setWbLine i l s).m25 = s.m25 := rfl
@[simp] theorem setWbLine_m26 (i : Fin 8) (l : WbLine) : (setWbLine i l s).m26 = s.m26 := rfl
@[simp] theorem setWbLine_spsw (i : Fin 8) (l : WbLine) : (setWbLine i l s).spsw = s.spsw := rfl
@[simp] theorem setWbLine_ret0 (i : Fin 8) (l : WbLine) : (setWbLine i l s).ret0 = s.ret0 := rfl
@[simp] theorem setWbLine_ret1 (i : Fin 8) (l : WbLine) : (setWbLine i l s).ret1 = s.ret1 := rfl
@[simp] theorem setWbLine_eret (i : Fin 8) (l : WbLine) : (setWbLine i l s).eret = s.eret := rfl
@[simp] theorem setWbLine_iret (i : Fin 8) (l : WbLine) : (setWbLine i l s).iret = s.iret := rfl
@[simp] theorem setWbLine_ibp (i : Fin 8) (l : WbLine) : (setWbLine i l s).ibp = s.ibp := rfl
@[simp] theorem setWbLine_dwp (i : Fin 8) (l : WbLine) : (setWbLine i l s).dwp = s.dwp := rfl
@[simp] theorem setWbLine_m36 (i : Fin 8) (l : WbLine) : (setWbLine i l s).m36 = s.m36 := rfl
@[simp] theorem setWbLine_m37 (i : Fin 8) (l : WbLine) : (setWbLine i l s).m37 = s.m37 := rfl
@[simp] theorem setWbLine_pc (i : Fin 8) (l : WbLine) : (setWbLine i l s).pc = s.pc := rfl
@[simp] theorem setWbLine_rau (i : Fin 8) (l : WbLine) : (setWbLine i l s).rau = s.rau := rfl
@[simp] theorem setWbLine_ruu (i : Fin 8) (l : WbLine) : (setWbLine i l s).ruu = s.ruu := rfl
@[simp] theorem setWbLine_grp (i : Fin 8) (l : WbLine) : (setWbLine i l s).grp = s.grp := rfl
@[simp] theorem setWbLine_mgrp (i : Fin 8) (l : WbLine) : (setWbLine i l s).mgrp = s.mgrp := rfl
@[simp] theorem setWbLine_prp (i : Fin 8) (l : WbLine) : (setWbLine i l s).prp = s.prp := rfl
@[simp] theorem setWbLine_mprp (i : Fin 8) (l : WbLine) : (setWbLine i l s).mprp = s.mprp := rfl
@[simp] theorem setWbLine_rpU (i : Fin 8) (l : WbLine) : (setWbLine i l s).rpU = s.rpU := rfl
@[simp] theorem setWbLine_rpS (i : Fin 8) (l : WbLine) : (setWbLine i l s).rpS = s.rpS := rfl
@[simp] theorem setWbLine_rz (i : Fin 8) (l : WbLine) : (setWbLine i l s).rz = s.rz := rfl
@[simp] theorem setWbLine_wb (i : Fin 8) (l : WbLine) : (setWbLine i l s).wb = { s.wb with lines := s.wb.lines.set i.val l } := rfl
@[simp] theorem setWbLine_pf (i : Fin 8) (l : WbLine) : (setWbLine i l s).pf = s.pf := rfl
@[simp] theorem setWbLine_mem (i : Fin 8) (l : WbLine) : (setWbLine i l s).mem = s.mem := rfl
@[simp] theorem setWbLine_trapping (i : Fin 8) (l : WbLine) : (setWbLine i l s).trapping = s.trapping := rfl
@[simp] theorem setWbLine_corr (i : Fin 8) (l : WbLine) : (setWbLine i l s).corr = s.corr := rfl
@[simp] theorem setWbLine_nextMod (i : Fin 8) (l : WbLine) : (setWbLine i l s).nextMod = s.nextMod := rfl
@[simp] theorem setWbLine_jumped (i : Fin 8) (l : WbLine) : (setWbLine i l s).jumped = s.jumped := rfl
@[simp] theorem setWbLine_halted (i : Fin 8) (l : WbLine) : (setWbLine i l s).halted = s.halted := rfl
@[simp] theorem setWbLine_refusalMark (i : Fin 8) (l : WbLine) : (setWbLine i l s).refusalMark = s.refusalMark := rfl
@[simp] theorem setWbLine_clock (i : Fin 8) (l : WbLine) : (setWbLine i l s).clock = s.clock := rfl
@[simp] theorem setWbLine_timer (i : Fin 8) (l : WbLine) : (setWbLine i l s).timer = s.timer := rfl
@[simp] theorem setWbLine_mbox (i : Fin 8) (l : WbLine) : (setWbLine i l s).mbox = s.mbox := rfl
@[simp] theorem setWbLine_chan (i : Fin 8) (l : WbLine) : (setWbLine i l s).chan = s.chan := rfl
@[simp] theorem setWbLine_draws (i : Fin 8) (l : WbLine) : (setWbLine i l s).draws = s.draws := rfl
@[simp] theorem setWbLine_inputs (i : Fin 8) (l : WbLine) : (setWbLine i l s).inputs = s.inputs := rfl

/-! ### `setPfLine` -/

@[simp] theorem setPfLine_setup (i : Fin 4) (l : PfLine) : (setPfLine i l s).setup = s.setup := rfl
@[simp] theorem setPfLine_acc (i : Fin 4) (l : PfLine) : (setPfLine i l s).acc = s.acc := rfl
@[simp] theorem setPfLine_rmr (i : Fin 4) (l : PfLine) : (setPfLine i l s).rmr = s.rmr := rfl
@[simp] theorem setPfLine_gen (i : Fin 4) (l : PfLine) : (setPfLine i l s).gen = s.gen := rfl
@[simp] theorem setPfLine_mod (i : Fin 4) (l : PfLine) : (setPfLine i l s).mod = s.mod := rfl
@[simp] theorem setPfLine_psw (i : Fin 4) (l : PfLine) : (setPfLine i l s).psw = s.psw := rfl
@[simp] theorem setPfLine_m22 (i : Fin 4) (l : PfLine) : (setPfLine i l s).m22 = s.m22 := rfl
@[simp] theorem setPfLine_m23 (i : Fin 4) (l : PfLine) : (setPfLine i l s).m23 = s.m23 := rfl
@[simp] theorem setPfLine_m24 (i : Fin 4) (l : PfLine) : (setPfLine i l s).m24 = s.m24 := rfl
@[simp] theorem setPfLine_m25 (i : Fin 4) (l : PfLine) : (setPfLine i l s).m25 = s.m25 := rfl
@[simp] theorem setPfLine_m26 (i : Fin 4) (l : PfLine) : (setPfLine i l s).m26 = s.m26 := rfl
@[simp] theorem setPfLine_spsw (i : Fin 4) (l : PfLine) : (setPfLine i l s).spsw = s.spsw := rfl
@[simp] theorem setPfLine_ret0 (i : Fin 4) (l : PfLine) : (setPfLine i l s).ret0 = s.ret0 := rfl
@[simp] theorem setPfLine_ret1 (i : Fin 4) (l : PfLine) : (setPfLine i l s).ret1 = s.ret1 := rfl
@[simp] theorem setPfLine_eret (i : Fin 4) (l : PfLine) : (setPfLine i l s).eret = s.eret := rfl
@[simp] theorem setPfLine_iret (i : Fin 4) (l : PfLine) : (setPfLine i l s).iret = s.iret := rfl
@[simp] theorem setPfLine_ibp (i : Fin 4) (l : PfLine) : (setPfLine i l s).ibp = s.ibp := rfl
@[simp] theorem setPfLine_dwp (i : Fin 4) (l : PfLine) : (setPfLine i l s).dwp = s.dwp := rfl
@[simp] theorem setPfLine_m36 (i : Fin 4) (l : PfLine) : (setPfLine i l s).m36 = s.m36 := rfl
@[simp] theorem setPfLine_m37 (i : Fin 4) (l : PfLine) : (setPfLine i l s).m37 = s.m37 := rfl
@[simp] theorem setPfLine_pc (i : Fin 4) (l : PfLine) : (setPfLine i l s).pc = s.pc := rfl
@[simp] theorem setPfLine_rau (i : Fin 4) (l : PfLine) : (setPfLine i l s).rau = s.rau := rfl
@[simp] theorem setPfLine_ruu (i : Fin 4) (l : PfLine) : (setPfLine i l s).ruu = s.ruu := rfl
@[simp] theorem setPfLine_grp (i : Fin 4) (l : PfLine) : (setPfLine i l s).grp = s.grp := rfl
@[simp] theorem setPfLine_mgrp (i : Fin 4) (l : PfLine) : (setPfLine i l s).mgrp = s.mgrp := rfl
@[simp] theorem setPfLine_prp (i : Fin 4) (l : PfLine) : (setPfLine i l s).prp = s.prp := rfl
@[simp] theorem setPfLine_mprp (i : Fin 4) (l : PfLine) : (setPfLine i l s).mprp = s.mprp := rfl
@[simp] theorem setPfLine_rpU (i : Fin 4) (l : PfLine) : (setPfLine i l s).rpU = s.rpU := rfl
@[simp] theorem setPfLine_rpS (i : Fin 4) (l : PfLine) : (setPfLine i l s).rpS = s.rpS := rfl
@[simp] theorem setPfLine_rz (i : Fin 4) (l : PfLine) : (setPfLine i l s).rz = s.rz := rfl
@[simp] theorem setPfLine_wb (i : Fin 4) (l : PfLine) : (setPfLine i l s).wb = s.wb := rfl
@[simp] theorem setPfLine_pf (i : Fin 4) (l : PfLine) : (setPfLine i l s).pf = { s.pf with lines := s.pf.lines.set i.val l } := rfl
@[simp] theorem setPfLine_mem (i : Fin 4) (l : PfLine) : (setPfLine i l s).mem = s.mem := rfl
@[simp] theorem setPfLine_trapping (i : Fin 4) (l : PfLine) : (setPfLine i l s).trapping = s.trapping := rfl
@[simp] theorem setPfLine_corr (i : Fin 4) (l : PfLine) : (setPfLine i l s).corr = s.corr := rfl
@[simp] theorem setPfLine_nextMod (i : Fin 4) (l : PfLine) : (setPfLine i l s).nextMod = s.nextMod := rfl
@[simp] theorem setPfLine_jumped (i : Fin 4) (l : PfLine) : (setPfLine i l s).jumped = s.jumped := rfl
@[simp] theorem setPfLine_halted (i : Fin 4) (l : PfLine) : (setPfLine i l s).halted = s.halted := rfl
@[simp] theorem setPfLine_refusalMark (i : Fin 4) (l : PfLine) : (setPfLine i l s).refusalMark = s.refusalMark := rfl
@[simp] theorem setPfLine_clock (i : Fin 4) (l : PfLine) : (setPfLine i l s).clock = s.clock := rfl
@[simp] theorem setPfLine_timer (i : Fin 4) (l : PfLine) : (setPfLine i l s).timer = s.timer := rfl
@[simp] theorem setPfLine_mbox (i : Fin 4) (l : PfLine) : (setPfLine i l s).mbox = s.mbox := rfl
@[simp] theorem setPfLine_chan (i : Fin 4) (l : PfLine) : (setPfLine i l s).chan = s.chan := rfl
@[simp] theorem setPfLine_draws (i : Fin 4) (l : PfLine) : (setPfLine i l s).draws = s.draws := rfl
@[simp] theorem setPfLine_inputs (i : Fin 4) (l : PfLine) : (setPfLine i l s).inputs = s.inputs := rfl

/-! ### `touchWb` -/

@[simp] theorem touchWb_setup (i : Fin 8) : (touchWb i s).setup = s.setup := rfl
@[simp] theorem touchWb_acc (i : Fin 8) : (touchWb i s).acc = s.acc := rfl
@[simp] theorem touchWb_rmr (i : Fin 8) : (touchWb i s).rmr = s.rmr := rfl
@[simp] theorem touchWb_gen (i : Fin 8) : (touchWb i s).gen = s.gen := rfl
@[simp] theorem touchWb_mod (i : Fin 8) : (touchWb i s).mod = s.mod := rfl
@[simp] theorem touchWb_psw (i : Fin 8) : (touchWb i s).psw = s.psw := rfl
@[simp] theorem touchWb_m22 (i : Fin 8) : (touchWb i s).m22 = s.m22 := rfl
@[simp] theorem touchWb_m23 (i : Fin 8) : (touchWb i s).m23 = s.m23 := rfl
@[simp] theorem touchWb_m24 (i : Fin 8) : (touchWb i s).m24 = s.m24 := rfl
@[simp] theorem touchWb_m25 (i : Fin 8) : (touchWb i s).m25 = s.m25 := rfl
@[simp] theorem touchWb_m26 (i : Fin 8) : (touchWb i s).m26 = s.m26 := rfl
@[simp] theorem touchWb_spsw (i : Fin 8) : (touchWb i s).spsw = s.spsw := rfl
@[simp] theorem touchWb_ret0 (i : Fin 8) : (touchWb i s).ret0 = s.ret0 := rfl
@[simp] theorem touchWb_ret1 (i : Fin 8) : (touchWb i s).ret1 = s.ret1 := rfl
@[simp] theorem touchWb_eret (i : Fin 8) : (touchWb i s).eret = s.eret := rfl
@[simp] theorem touchWb_iret (i : Fin 8) : (touchWb i s).iret = s.iret := rfl
@[simp] theorem touchWb_ibp (i : Fin 8) : (touchWb i s).ibp = s.ibp := rfl
@[simp] theorem touchWb_dwp (i : Fin 8) : (touchWb i s).dwp = s.dwp := rfl
@[simp] theorem touchWb_m36 (i : Fin 8) : (touchWb i s).m36 = s.m36 := rfl
@[simp] theorem touchWb_m37 (i : Fin 8) : (touchWb i s).m37 = s.m37 := rfl
@[simp] theorem touchWb_pc (i : Fin 8) : (touchWb i s).pc = s.pc := rfl
@[simp] theorem touchWb_rau (i : Fin 8) : (touchWb i s).rau = s.rau := rfl
@[simp] theorem touchWb_ruu (i : Fin 8) : (touchWb i s).ruu = s.ruu := rfl
@[simp] theorem touchWb_grp (i : Fin 8) : (touchWb i s).grp = s.grp := rfl
@[simp] theorem touchWb_mgrp (i : Fin 8) : (touchWb i s).mgrp = s.mgrp := rfl
@[simp] theorem touchWb_prp (i : Fin 8) : (touchWb i s).prp = s.prp := rfl
@[simp] theorem touchWb_mprp (i : Fin 8) : (touchWb i s).mprp = s.mprp := rfl
@[simp] theorem touchWb_rpU (i : Fin 8) : (touchWb i s).rpU = s.rpU := rfl
@[simp] theorem touchWb_rpS (i : Fin 8) : (touchWb i s).rpS = s.rpS := rfl
@[simp] theorem touchWb_rz (i : Fin 8) : (touchWb i s).rz = s.rz := rfl
@[simp] theorem touchWb_wb (i : Fin 8) : (touchWb i s).wb = wbTouch i s.wb := rfl
@[simp] theorem touchWb_pf (i : Fin 8) : (touchWb i s).pf = s.pf := rfl
@[simp] theorem touchWb_mem (i : Fin 8) : (touchWb i s).mem = s.mem := rfl
@[simp] theorem touchWb_trapping (i : Fin 8) : (touchWb i s).trapping = s.trapping := rfl
@[simp] theorem touchWb_corr (i : Fin 8) : (touchWb i s).corr = s.corr := rfl
@[simp] theorem touchWb_nextMod (i : Fin 8) : (touchWb i s).nextMod = s.nextMod := rfl
@[simp] theorem touchWb_jumped (i : Fin 8) : (touchWb i s).jumped = s.jumped := rfl
@[simp] theorem touchWb_halted (i : Fin 8) : (touchWb i s).halted = s.halted := rfl
@[simp] theorem touchWb_refusalMark (i : Fin 8) : (touchWb i s).refusalMark = s.refusalMark := rfl
@[simp] theorem touchWb_clock (i : Fin 8) : (touchWb i s).clock = s.clock := rfl
@[simp] theorem touchWb_timer (i : Fin 8) : (touchWb i s).timer = s.timer := rfl
@[simp] theorem touchWb_mbox (i : Fin 8) : (touchWb i s).mbox = s.mbox := rfl
@[simp] theorem touchWb_chan (i : Fin 8) : (touchWb i s).chan = s.chan := rfl
@[simp] theorem touchWb_draws (i : Fin 8) : (touchWb i s).draws = s.draws := rfl
@[simp] theorem touchWb_inputs (i : Fin 8) : (touchWb i s).inputs = s.inputs := rfl

/-! ### `touchPf` -/

@[simp] theorem touchPf_setup (i : Fin 4) : (touchPf i s).setup = s.setup := rfl
@[simp] theorem touchPf_acc (i : Fin 4) : (touchPf i s).acc = s.acc := rfl
@[simp] theorem touchPf_rmr (i : Fin 4) : (touchPf i s).rmr = s.rmr := rfl
@[simp] theorem touchPf_gen (i : Fin 4) : (touchPf i s).gen = s.gen := rfl
@[simp] theorem touchPf_mod (i : Fin 4) : (touchPf i s).mod = s.mod := rfl
@[simp] theorem touchPf_psw (i : Fin 4) : (touchPf i s).psw = s.psw := rfl
@[simp] theorem touchPf_m22 (i : Fin 4) : (touchPf i s).m22 = s.m22 := rfl
@[simp] theorem touchPf_m23 (i : Fin 4) : (touchPf i s).m23 = s.m23 := rfl
@[simp] theorem touchPf_m24 (i : Fin 4) : (touchPf i s).m24 = s.m24 := rfl
@[simp] theorem touchPf_m25 (i : Fin 4) : (touchPf i s).m25 = s.m25 := rfl
@[simp] theorem touchPf_m26 (i : Fin 4) : (touchPf i s).m26 = s.m26 := rfl
@[simp] theorem touchPf_spsw (i : Fin 4) : (touchPf i s).spsw = s.spsw := rfl
@[simp] theorem touchPf_ret0 (i : Fin 4) : (touchPf i s).ret0 = s.ret0 := rfl
@[simp] theorem touchPf_ret1 (i : Fin 4) : (touchPf i s).ret1 = s.ret1 := rfl
@[simp] theorem touchPf_eret (i : Fin 4) : (touchPf i s).eret = s.eret := rfl
@[simp] theorem touchPf_iret (i : Fin 4) : (touchPf i s).iret = s.iret := rfl
@[simp] theorem touchPf_ibp (i : Fin 4) : (touchPf i s).ibp = s.ibp := rfl
@[simp] theorem touchPf_dwp (i : Fin 4) : (touchPf i s).dwp = s.dwp := rfl
@[simp] theorem touchPf_m36 (i : Fin 4) : (touchPf i s).m36 = s.m36 := rfl
@[simp] theorem touchPf_m37 (i : Fin 4) : (touchPf i s).m37 = s.m37 := rfl
@[simp] theorem touchPf_pc (i : Fin 4) : (touchPf i s).pc = s.pc := rfl
@[simp] theorem touchPf_rau (i : Fin 4) : (touchPf i s).rau = s.rau := rfl
@[simp] theorem touchPf_ruu (i : Fin 4) : (touchPf i s).ruu = s.ruu := rfl
@[simp] theorem touchPf_grp (i : Fin 4) : (touchPf i s).grp = s.grp := rfl
@[simp] theorem touchPf_mgrp (i : Fin 4) : (touchPf i s).mgrp = s.mgrp := rfl
@[simp] theorem touchPf_prp (i : Fin 4) : (touchPf i s).prp = s.prp := rfl
@[simp] theorem touchPf_mprp (i : Fin 4) : (touchPf i s).mprp = s.mprp := rfl
@[simp] theorem touchPf_rpU (i : Fin 4) : (touchPf i s).rpU = s.rpU := rfl
@[simp] theorem touchPf_rpS (i : Fin 4) : (touchPf i s).rpS = s.rpS := rfl
@[simp] theorem touchPf_rz (i : Fin 4) : (touchPf i s).rz = s.rz := rfl
@[simp] theorem touchPf_wb (i : Fin 4) : (touchPf i s).wb = s.wb := rfl
@[simp] theorem touchPf_pf (i : Fin 4) : (touchPf i s).pf = pfTouch i s.pf := rfl
@[simp] theorem touchPf_mem (i : Fin 4) : (touchPf i s).mem = s.mem := rfl
@[simp] theorem touchPf_trapping (i : Fin 4) : (touchPf i s).trapping = s.trapping := rfl
@[simp] theorem touchPf_corr (i : Fin 4) : (touchPf i s).corr = s.corr := rfl
@[simp] theorem touchPf_nextMod (i : Fin 4) : (touchPf i s).nextMod = s.nextMod := rfl
@[simp] theorem touchPf_jumped (i : Fin 4) : (touchPf i s).jumped = s.jumped := rfl
@[simp] theorem touchPf_halted (i : Fin 4) : (touchPf i s).halted = s.halted := rfl
@[simp] theorem touchPf_refusalMark (i : Fin 4) : (touchPf i s).refusalMark = s.refusalMark := rfl
@[simp] theorem touchPf_clock (i : Fin 4) : (touchPf i s).clock = s.clock := rfl
@[simp] theorem touchPf_timer (i : Fin 4) : (touchPf i s).timer = s.timer := rfl
@[simp] theorem touchPf_mbox (i : Fin 4) : (touchPf i s).mbox = s.mbox := rfl
@[simp] theorem touchPf_chan (i : Fin 4) : (touchPf i s).chan = s.chan := rfl
@[simp] theorem touchPf_draws (i : Fin 4) : (touchPf i s).draws = s.draws := rfl
@[simp] theorem touchPf_inputs (i : Fin 4) : (touchPf i s).inputs = s.inputs := rfl

/-! ### `setIdx` -/

@[simp] theorem setIdx_setup (r : Idx) (v : Addr) : (setIdx r v s).setup = s.setup := by unfold setIdx; split <;> rfl
@[simp] theorem setIdx_acc (r : Idx) (v : Addr) : (setIdx r v s).acc = s.acc := by unfold setIdx; split <;> rfl
@[simp] theorem setIdx_rmr (r : Idx) (v : Addr) : (setIdx r v s).rmr = s.rmr := by unfold setIdx; split <;> rfl
@[simp] theorem setIdx_mod (r : Idx) (v : Addr) : (setIdx r v s).mod = s.mod := by unfold setIdx; split <;> rfl
@[simp] theorem setIdx_psw (r : Idx) (v : Addr) : (setIdx r v s).psw = s.psw := by unfold setIdx; split <;> rfl
@[simp] theorem setIdx_m22 (r : Idx) (v : Addr) : (setIdx r v s).m22 = s.m22 := by unfold setIdx; split <;> rfl
@[simp] theorem setIdx_m23 (r : Idx) (v : Addr) : (setIdx r v s).m23 = s.m23 := by unfold setIdx; split <;> rfl
@[simp] theorem setIdx_m24 (r : Idx) (v : Addr) : (setIdx r v s).m24 = s.m24 := by unfold setIdx; split <;> rfl
@[simp] theorem setIdx_m25 (r : Idx) (v : Addr) : (setIdx r v s).m25 = s.m25 := by unfold setIdx; split <;> rfl
@[simp] theorem setIdx_m26 (r : Idx) (v : Addr) : (setIdx r v s).m26 = s.m26 := by unfold setIdx; split <;> rfl
@[simp] theorem setIdx_spsw (r : Idx) (v : Addr) : (setIdx r v s).spsw = s.spsw := by unfold setIdx; split <;> rfl
@[simp] theorem setIdx_ret0 (r : Idx) (v : Addr) : (setIdx r v s).ret0 = s.ret0 := by unfold setIdx; split <;> rfl
@[simp] theorem setIdx_ret1 (r : Idx) (v : Addr) : (setIdx r v s).ret1 = s.ret1 := by unfold setIdx; split <;> rfl
@[simp] theorem setIdx_eret (r : Idx) (v : Addr) : (setIdx r v s).eret = s.eret := by unfold setIdx; split <;> rfl
@[simp] theorem setIdx_iret (r : Idx) (v : Addr) : (setIdx r v s).iret = s.iret := by unfold setIdx; split <;> rfl
@[simp] theorem setIdx_ibp (r : Idx) (v : Addr) : (setIdx r v s).ibp = s.ibp := by unfold setIdx; split <;> rfl
@[simp] theorem setIdx_dwp (r : Idx) (v : Addr) : (setIdx r v s).dwp = s.dwp := by unfold setIdx; split <;> rfl
@[simp] theorem setIdx_m36 (r : Idx) (v : Addr) : (setIdx r v s).m36 = s.m36 := by unfold setIdx; split <;> rfl
@[simp] theorem setIdx_m37 (r : Idx) (v : Addr) : (setIdx r v s).m37 = s.m37 := by unfold setIdx; split <;> rfl
@[simp] theorem setIdx_pc (r : Idx) (v : Addr) : (setIdx r v s).pc = s.pc := by unfold setIdx; split <;> rfl
@[simp] theorem setIdx_rau (r : Idx) (v : Addr) : (setIdx r v s).rau = s.rau := by unfold setIdx; split <;> rfl
@[simp] theorem setIdx_ruu (r : Idx) (v : Addr) : (setIdx r v s).ruu = s.ruu := by unfold setIdx; split <;> rfl
@[simp] theorem setIdx_grp (r : Idx) (v : Addr) : (setIdx r v s).grp = s.grp := by unfold setIdx; split <;> rfl
@[simp] theorem setIdx_mgrp (r : Idx) (v : Addr) : (setIdx r v s).mgrp = s.mgrp := by unfold setIdx; split <;> rfl
@[simp] theorem setIdx_prp (r : Idx) (v : Addr) : (setIdx r v s).prp = s.prp := by unfold setIdx; split <;> rfl
@[simp] theorem setIdx_mprp (r : Idx) (v : Addr) : (setIdx r v s).mprp = s.mprp := by unfold setIdx; split <;> rfl
@[simp] theorem setIdx_rpU (r : Idx) (v : Addr) : (setIdx r v s).rpU = s.rpU := by unfold setIdx; split <;> rfl
@[simp] theorem setIdx_rpS (r : Idx) (v : Addr) : (setIdx r v s).rpS = s.rpS := by unfold setIdx; split <;> rfl
@[simp] theorem setIdx_rz (r : Idx) (v : Addr) : (setIdx r v s).rz = s.rz := by unfold setIdx; split <;> rfl
@[simp] theorem setIdx_wb (r : Idx) (v : Addr) : (setIdx r v s).wb = s.wb := by unfold setIdx; split <;> rfl
@[simp] theorem setIdx_pf (r : Idx) (v : Addr) : (setIdx r v s).pf = s.pf := by unfold setIdx; split <;> rfl
@[simp] theorem setIdx_mem (r : Idx) (v : Addr) : (setIdx r v s).mem = s.mem := by unfold setIdx; split <;> rfl
@[simp] theorem setIdx_trapping (r : Idx) (v : Addr) : (setIdx r v s).trapping = s.trapping := by unfold setIdx; split <;> rfl
@[simp] theorem setIdx_corr (r : Idx) (v : Addr) : (setIdx r v s).corr = s.corr := by unfold setIdx; split <;> rfl
@[simp] theorem setIdx_nextMod (r : Idx) (v : Addr) : (setIdx r v s).nextMod = s.nextMod := by unfold setIdx; split <;> rfl
@[simp] theorem setIdx_jumped (r : Idx) (v : Addr) : (setIdx r v s).jumped = s.jumped := by unfold setIdx; split <;> rfl
@[simp] theorem setIdx_halted (r : Idx) (v : Addr) : (setIdx r v s).halted = s.halted := by unfold setIdx; split <;> rfl
@[simp] theorem setIdx_refusalMark (r : Idx) (v : Addr) : (setIdx r v s).refusalMark = s.refusalMark := by unfold setIdx; split <;> rfl
@[simp] theorem setIdx_clock (r : Idx) (v : Addr) : (setIdx r v s).clock = s.clock := by unfold setIdx; split <;> rfl
@[simp] theorem setIdx_timer (r : Idx) (v : Addr) : (setIdx r v s).timer = s.timer := by unfold setIdx; split <;> rfl
@[simp] theorem setIdx_mbox (r : Idx) (v : Addr) : (setIdx r v s).mbox = s.mbox := by unfold setIdx; split <;> rfl
@[simp] theorem setIdx_chan (r : Idx) (v : Addr) : (setIdx r v s).chan = s.chan := by unfold setIdx; split <;> rfl
@[simp] theorem setIdx_draws (r : Idx) (v : Addr) : (setIdx r v s).draws = s.draws := by unfold setIdx; split <;> rfl
@[simp] theorem setIdx_inputs (r : Idx) (v : Addr) : (setIdx r v s).inputs = s.inputs := by unfold setIdx; split <;> rfl

/-! ### `setSp` -/

@[simp] theorem setSp_setup (v : Addr) : (setSp v s).setup = s.setup := rfl
@[simp] theorem setSp_acc (v : Addr) : (setSp v s).acc = s.acc := rfl
@[simp] theorem setSp_rmr (v : Addr) : (setSp v s).rmr = s.rmr := rfl
@[simp] theorem setSp_mod (v : Addr) : (setSp v s).mod = s.mod := rfl
@[simp] theorem setSp_psw (v : Addr) : (setSp v s).psw = s.psw := rfl
@[simp] theorem setSp_m22 (v : Addr) : (setSp v s).m22 = s.m22 := rfl
@[simp] theorem setSp_m23 (v : Addr) : (setSp v s).m23 = s.m23 := rfl
@[simp] theorem setSp_m24 (v : Addr) : (setSp v s).m24 = s.m24 := rfl
@[simp] theorem setSp_m25 (v : Addr) : (setSp v s).m25 = s.m25 := rfl
@[simp] theorem setSp_m26 (v : Addr) : (setSp v s).m26 = s.m26 := rfl
@[simp] theorem setSp_spsw (v : Addr) : (setSp v s).spsw = s.spsw := rfl
@[simp] theorem setSp_ret0 (v : Addr) : (setSp v s).ret0 = s.ret0 := rfl
@[simp] theorem setSp_ret1 (v : Addr) : (setSp v s).ret1 = s.ret1 := rfl
@[simp] theorem setSp_eret (v : Addr) : (setSp v s).eret = s.eret := rfl
@[simp] theorem setSp_iret (v : Addr) : (setSp v s).iret = s.iret := rfl
@[simp] theorem setSp_ibp (v : Addr) : (setSp v s).ibp = s.ibp := rfl
@[simp] theorem setSp_dwp (v : Addr) : (setSp v s).dwp = s.dwp := rfl
@[simp] theorem setSp_m36 (v : Addr) : (setSp v s).m36 = s.m36 := rfl
@[simp] theorem setSp_m37 (v : Addr) : (setSp v s).m37 = s.m37 := rfl
@[simp] theorem setSp_pc (v : Addr) : (setSp v s).pc = s.pc := rfl
@[simp] theorem setSp_rau (v : Addr) : (setSp v s).rau = s.rau := rfl
@[simp] theorem setSp_ruu (v : Addr) : (setSp v s).ruu = s.ruu := rfl
@[simp] theorem setSp_grp (v : Addr) : (setSp v s).grp = s.grp := rfl
@[simp] theorem setSp_mgrp (v : Addr) : (setSp v s).mgrp = s.mgrp := rfl
@[simp] theorem setSp_prp (v : Addr) : (setSp v s).prp = s.prp := rfl
@[simp] theorem setSp_mprp (v : Addr) : (setSp v s).mprp = s.mprp := rfl
@[simp] theorem setSp_rpU (v : Addr) : (setSp v s).rpU = s.rpU := rfl
@[simp] theorem setSp_rpS (v : Addr) : (setSp v s).rpS = s.rpS := rfl
@[simp] theorem setSp_rz (v : Addr) : (setSp v s).rz = s.rz := rfl
@[simp] theorem setSp_wb (v : Addr) : (setSp v s).wb = s.wb := rfl
@[simp] theorem setSp_pf (v : Addr) : (setSp v s).pf = s.pf := rfl
@[simp] theorem setSp_mem (v : Addr) : (setSp v s).mem = s.mem := rfl
@[simp] theorem setSp_trapping (v : Addr) : (setSp v s).trapping = s.trapping := rfl
@[simp] theorem setSp_corr (v : Addr) : (setSp v s).corr = s.corr := rfl
@[simp] theorem setSp_nextMod (v : Addr) : (setSp v s).nextMod = s.nextMod := rfl
@[simp] theorem setSp_jumped (v : Addr) : (setSp v s).jumped = s.jumped := rfl
@[simp] theorem setSp_halted (v : Addr) : (setSp v s).halted = s.halted := rfl
@[simp] theorem setSp_refusalMark (v : Addr) : (setSp v s).refusalMark = s.refusalMark := rfl
@[simp] theorem setSp_clock (v : Addr) : (setSp v s).clock = s.clock := rfl
@[simp] theorem setSp_timer (v : Addr) : (setSp v s).timer = s.timer := rfl
@[simp] theorem setSp_mbox (v : Addr) : (setSp v s).mbox = s.mbox := rfl
@[simp] theorem setSp_chan (v : Addr) : (setSp v s).chan = s.chan := rfl
@[simp] theorem setSp_draws (v : Addr) : (setSp v s).draws = s.draws := rfl
@[simp] theorem setSp_inputs (v : Addr) : (setSp v s).inputs = s.inputs := rfl

/-! ### `popSp` -/

@[simp] theorem popSp_setup : (popSp s).setup = s.setup := rfl
@[simp] theorem popSp_acc : (popSp s).acc = s.acc := rfl
@[simp] theorem popSp_rmr : (popSp s).rmr = s.rmr := rfl
@[simp] theorem popSp_mod : (popSp s).mod = s.mod := rfl
@[simp] theorem popSp_psw : (popSp s).psw = s.psw := rfl
@[simp] theorem popSp_m22 : (popSp s).m22 = s.m22 := rfl
@[simp] theorem popSp_m23 : (popSp s).m23 = s.m23 := rfl
@[simp] theorem popSp_m24 : (popSp s).m24 = s.m24 := rfl
@[simp] theorem popSp_m25 : (popSp s).m25 = s.m25 := rfl
@[simp] theorem popSp_m26 : (popSp s).m26 = s.m26 := rfl
@[simp] theorem popSp_spsw : (popSp s).spsw = s.spsw := rfl
@[simp] theorem popSp_ret0 : (popSp s).ret0 = s.ret0 := rfl
@[simp] theorem popSp_ret1 : (popSp s).ret1 = s.ret1 := rfl
@[simp] theorem popSp_eret : (popSp s).eret = s.eret := rfl
@[simp] theorem popSp_iret : (popSp s).iret = s.iret := rfl
@[simp] theorem popSp_ibp : (popSp s).ibp = s.ibp := rfl
@[simp] theorem popSp_dwp : (popSp s).dwp = s.dwp := rfl
@[simp] theorem popSp_m36 : (popSp s).m36 = s.m36 := rfl
@[simp] theorem popSp_m37 : (popSp s).m37 = s.m37 := rfl
@[simp] theorem popSp_pc : (popSp s).pc = s.pc := rfl
@[simp] theorem popSp_rau : (popSp s).rau = s.rau := rfl
@[simp] theorem popSp_ruu : (popSp s).ruu = s.ruu := rfl
@[simp] theorem popSp_grp : (popSp s).grp = s.grp := rfl
@[simp] theorem popSp_mgrp : (popSp s).mgrp = s.mgrp := rfl
@[simp] theorem popSp_prp : (popSp s).prp = s.prp := rfl
@[simp] theorem popSp_mprp : (popSp s).mprp = s.mprp := rfl
@[simp] theorem popSp_rpU : (popSp s).rpU = s.rpU := rfl
@[simp] theorem popSp_rpS : (popSp s).rpS = s.rpS := rfl
@[simp] theorem popSp_rz : (popSp s).rz = s.rz := rfl
@[simp] theorem popSp_wb : (popSp s).wb = s.wb := rfl
@[simp] theorem popSp_pf : (popSp s).pf = s.pf := rfl
@[simp] theorem popSp_mem : (popSp s).mem = s.mem := rfl
@[simp] theorem popSp_trapping : (popSp s).trapping = s.trapping := rfl
@[simp] theorem popSp_nextMod : (popSp s).nextMod = s.nextMod := rfl
@[simp] theorem popSp_jumped : (popSp s).jumped = s.jumped := rfl
@[simp] theorem popSp_halted : (popSp s).halted = s.halted := rfl
@[simp] theorem popSp_refusalMark : (popSp s).refusalMark = s.refusalMark := rfl
@[simp] theorem popSp_clock : (popSp s).clock = s.clock := rfl
@[simp] theorem popSp_timer : (popSp s).timer = s.timer := rfl
@[simp] theorem popSp_mbox : (popSp s).mbox = s.mbox := rfl
@[simp] theorem popSp_chan : (popSp s).chan = s.chan := rfl
@[simp] theorem popSp_draws : (popSp s).draws = s.draws := rfl
@[simp] theorem popSp_inputs : (popSp s).inputs = s.inputs := rfl
@[simp] theorem popSp_corr : (popSp s).corr = .plusOne := rfl

/-! ### `pushSp` -/

@[simp] theorem pushSp_setup : (pushSp s).setup = s.setup := rfl
@[simp] theorem pushSp_acc : (pushSp s).acc = s.acc := rfl
@[simp] theorem pushSp_rmr : (pushSp s).rmr = s.rmr := rfl
@[simp] theorem pushSp_mod : (pushSp s).mod = s.mod := rfl
@[simp] theorem pushSp_psw : (pushSp s).psw = s.psw := rfl
@[simp] theorem pushSp_m22 : (pushSp s).m22 = s.m22 := rfl
@[simp] theorem pushSp_m23 : (pushSp s).m23 = s.m23 := rfl
@[simp] theorem pushSp_m24 : (pushSp s).m24 = s.m24 := rfl
@[simp] theorem pushSp_m25 : (pushSp s).m25 = s.m25 := rfl
@[simp] theorem pushSp_m26 : (pushSp s).m26 = s.m26 := rfl
@[simp] theorem pushSp_spsw : (pushSp s).spsw = s.spsw := rfl
@[simp] theorem pushSp_ret0 : (pushSp s).ret0 = s.ret0 := rfl
@[simp] theorem pushSp_ret1 : (pushSp s).ret1 = s.ret1 := rfl
@[simp] theorem pushSp_eret : (pushSp s).eret = s.eret := rfl
@[simp] theorem pushSp_iret : (pushSp s).iret = s.iret := rfl
@[simp] theorem pushSp_ibp : (pushSp s).ibp = s.ibp := rfl
@[simp] theorem pushSp_dwp : (pushSp s).dwp = s.dwp := rfl
@[simp] theorem pushSp_m36 : (pushSp s).m36 = s.m36 := rfl
@[simp] theorem pushSp_m37 : (pushSp s).m37 = s.m37 := rfl
@[simp] theorem pushSp_pc : (pushSp s).pc = s.pc := rfl
@[simp] theorem pushSp_rau : (pushSp s).rau = s.rau := rfl
@[simp] theorem pushSp_ruu : (pushSp s).ruu = s.ruu := rfl
@[simp] theorem pushSp_grp : (pushSp s).grp = s.grp := rfl
@[simp] theorem pushSp_mgrp : (pushSp s).mgrp = s.mgrp := rfl
@[simp] theorem pushSp_prp : (pushSp s).prp = s.prp := rfl
@[simp] theorem pushSp_mprp : (pushSp s).mprp = s.mprp := rfl
@[simp] theorem pushSp_rpU : (pushSp s).rpU = s.rpU := rfl
@[simp] theorem pushSp_rpS : (pushSp s).rpS = s.rpS := rfl
@[simp] theorem pushSp_rz : (pushSp s).rz = s.rz := rfl
@[simp] theorem pushSp_wb : (pushSp s).wb = s.wb := rfl
@[simp] theorem pushSp_pf : (pushSp s).pf = s.pf := rfl
@[simp] theorem pushSp_mem : (pushSp s).mem = s.mem := rfl
@[simp] theorem pushSp_trapping : (pushSp s).trapping = s.trapping := rfl
@[simp] theorem pushSp_nextMod : (pushSp s).nextMod = s.nextMod := rfl
@[simp] theorem pushSp_jumped : (pushSp s).jumped = s.jumped := rfl
@[simp] theorem pushSp_halted : (pushSp s).halted = s.halted := rfl
@[simp] theorem pushSp_refusalMark : (pushSp s).refusalMark = s.refusalMark := rfl
@[simp] theorem pushSp_clock : (pushSp s).clock = s.clock := rfl
@[simp] theorem pushSp_timer : (pushSp s).timer = s.timer := rfl
@[simp] theorem pushSp_mbox : (pushSp s).mbox = s.mbox := rfl
@[simp] theorem pushSp_chan : (pushSp s).chan = s.chan := rfl
@[simp] theorem pushSp_draws : (pushSp s).draws = s.draws := rfl
@[simp] theorem pushSp_inputs : (pushSp s).inputs = s.inputs := rfl
@[simp] theorem pushSp_corr : (pushSp s).corr = .minusOne := rfl

/-! ### `popped` -/

@[simp] theorem popped_setup (r : Idx) (a : Addr) : (popped r a s).setup = s.setup := by unfold popped; split <;> rfl
@[simp] theorem popped_acc (r : Idx) (a : Addr) : (popped r a s).acc = s.acc := by unfold popped; split <;> rfl
@[simp] theorem popped_rmr (r : Idx) (a : Addr) : (popped r a s).rmr = s.rmr := by unfold popped; split <;> rfl
@[simp] theorem popped_mod (r : Idx) (a : Addr) : (popped r a s).mod = s.mod := by unfold popped; split <;> rfl
@[simp] theorem popped_psw (r : Idx) (a : Addr) : (popped r a s).psw = s.psw := by unfold popped; split <;> rfl
@[simp] theorem popped_m22 (r : Idx) (a : Addr) : (popped r a s).m22 = s.m22 := by unfold popped; split <;> rfl
@[simp] theorem popped_m23 (r : Idx) (a : Addr) : (popped r a s).m23 = s.m23 := by unfold popped; split <;> rfl
@[simp] theorem popped_m24 (r : Idx) (a : Addr) : (popped r a s).m24 = s.m24 := by unfold popped; split <;> rfl
@[simp] theorem popped_m25 (r : Idx) (a : Addr) : (popped r a s).m25 = s.m25 := by unfold popped; split <;> rfl
@[simp] theorem popped_m26 (r : Idx) (a : Addr) : (popped r a s).m26 = s.m26 := by unfold popped; split <;> rfl
@[simp] theorem popped_spsw (r : Idx) (a : Addr) : (popped r a s).spsw = s.spsw := by unfold popped; split <;> rfl
@[simp] theorem popped_ret0 (r : Idx) (a : Addr) : (popped r a s).ret0 = s.ret0 := by unfold popped; split <;> rfl
@[simp] theorem popped_ret1 (r : Idx) (a : Addr) : (popped r a s).ret1 = s.ret1 := by unfold popped; split <;> rfl
@[simp] theorem popped_eret (r : Idx) (a : Addr) : (popped r a s).eret = s.eret := by unfold popped; split <;> rfl
@[simp] theorem popped_iret (r : Idx) (a : Addr) : (popped r a s).iret = s.iret := by unfold popped; split <;> rfl
@[simp] theorem popped_ibp (r : Idx) (a : Addr) : (popped r a s).ibp = s.ibp := by unfold popped; split <;> rfl
@[simp] theorem popped_dwp (r : Idx) (a : Addr) : (popped r a s).dwp = s.dwp := by unfold popped; split <;> rfl
@[simp] theorem popped_m36 (r : Idx) (a : Addr) : (popped r a s).m36 = s.m36 := by unfold popped; split <;> rfl
@[simp] theorem popped_m37 (r : Idx) (a : Addr) : (popped r a s).m37 = s.m37 := by unfold popped; split <;> rfl
@[simp] theorem popped_pc (r : Idx) (a : Addr) : (popped r a s).pc = s.pc := by unfold popped; split <;> rfl
@[simp] theorem popped_rau (r : Idx) (a : Addr) : (popped r a s).rau = s.rau := by unfold popped; split <;> rfl
@[simp] theorem popped_ruu (r : Idx) (a : Addr) : (popped r a s).ruu = s.ruu := by unfold popped; split <;> rfl
@[simp] theorem popped_grp (r : Idx) (a : Addr) : (popped r a s).grp = s.grp := by unfold popped; split <;> rfl
@[simp] theorem popped_mgrp (r : Idx) (a : Addr) : (popped r a s).mgrp = s.mgrp := by unfold popped; split <;> rfl
@[simp] theorem popped_prp (r : Idx) (a : Addr) : (popped r a s).prp = s.prp := by unfold popped; split <;> rfl
@[simp] theorem popped_mprp (r : Idx) (a : Addr) : (popped r a s).mprp = s.mprp := by unfold popped; split <;> rfl
@[simp] theorem popped_rpU (r : Idx) (a : Addr) : (popped r a s).rpU = s.rpU := by unfold popped; split <;> rfl
@[simp] theorem popped_rpS (r : Idx) (a : Addr) : (popped r a s).rpS = s.rpS := by unfold popped; split <;> rfl
@[simp] theorem popped_rz (r : Idx) (a : Addr) : (popped r a s).rz = s.rz := by unfold popped; split <;> rfl
@[simp] theorem popped_wb (r : Idx) (a : Addr) : (popped r a s).wb = s.wb := by unfold popped; split <;> rfl
@[simp] theorem popped_pf (r : Idx) (a : Addr) : (popped r a s).pf = s.pf := by unfold popped; split <;> rfl
@[simp] theorem popped_mem (r : Idx) (a : Addr) : (popped r a s).mem = s.mem := by unfold popped; split <;> rfl
@[simp] theorem popped_trapping (r : Idx) (a : Addr) : (popped r a s).trapping = s.trapping := by unfold popped; split <;> rfl
@[simp] theorem popped_nextMod (r : Idx) (a : Addr) : (popped r a s).nextMod = s.nextMod := by unfold popped; split <;> rfl
@[simp] theorem popped_jumped (r : Idx) (a : Addr) : (popped r a s).jumped = s.jumped := by unfold popped; split <;> rfl
@[simp] theorem popped_halted (r : Idx) (a : Addr) : (popped r a s).halted = s.halted := by unfold popped; split <;> rfl
@[simp] theorem popped_refusalMark (r : Idx) (a : Addr) : (popped r a s).refusalMark = s.refusalMark := by unfold popped; split <;> rfl
@[simp] theorem popped_clock (r : Idx) (a : Addr) : (popped r a s).clock = s.clock := by unfold popped; split <;> rfl
@[simp] theorem popped_timer (r : Idx) (a : Addr) : (popped r a s).timer = s.timer := by unfold popped; split <;> rfl
@[simp] theorem popped_mbox (r : Idx) (a : Addr) : (popped r a s).mbox = s.mbox := by unfold popped; split <;> rfl
@[simp] theorem popped_chan (r : Idx) (a : Addr) : (popped r a s).chan = s.chan := by unfold popped; split <;> rfl
@[simp] theorem popped_draws (r : Idx) (a : Addr) : (popped r a s).draws = s.draws := by unfold popped; split <;> rfl
@[simp] theorem popped_inputs (r : Idx) (a : Addr) : (popped r a s).inputs = s.inputs := by unfold popped; split <;> rfl

end Sys2Proof.Machine
end

