-- ==== Sys2Proof/Laws/Memory.lean ====
section
/-!
SUPPORT. The sparse lists: what a write reads back as, and that every operation keeps the canonical form.
-/

namespace Sys2Proof.Machine

variable {α : Type} (d : α)

theorem sparseGet_eq_default_of_lt {l : List (Nat × α)} {n : Nat} (h : ∀ c ∈ l, n < c.1) : sparseGet d l n = d := by
  induction l with
  | nil => rfl
  | cons c l ih =>
    have hc : n < c.1 := h c (by simp)
    have : n ≠ c.1 := by omega
    simp [sparseGet, this, ih fun e he => h e (by simp [he])]

/-- A read after a write: the written value at the key, the old value elsewhere. -/
theorem sparseGet_sparseSet [DecidableEq α] {l : List (Nat × α)} (h : sparseWf d l) (n m : Nat) (v : α) :
    sparseGet d (sparseSet d n v l) m = if m = n then v else sparseGet d l m := by
  induction l with
  | nil => by_cases hv : v = d <;> by_cases hm : m = n <;> simp [sparseSet, sparseGet, hv, hm]
  | cons c l ih =>
    obtain ⟨k, w⟩ := c
    have hlt : ∀ c ∈ l, k < c.1 := (List.pairwise_cons.1 h.1).1
    have hl : sparseWf d l := ⟨(List.pairwise_cons.1 h.1).2, fun c hc => h.2 c (by simp [hc])⟩
    rcases lt_trichotomy n k with hnk | rfl | hnk
    · by_cases hv : v = d <;> by_cases hm : m = n
      · subst hm
        have h1 : m ≠ k := by omega
        simp [sparseSet, hnk, hv, sparseGet, h1,
          sparseGet_eq_default_of_lt d (l := l) (n := m) fun c hc => by have := hlt c hc; omega]
      · simp [sparseSet, hnk, hv, hm]
      · simp [sparseSet, hnk, hv, hm, sparseGet]
      · simp [sparseSet, hnk, hv, hm, sparseGet]
    · by_cases hv : v = d <;> by_cases hm : m = n
      · subst hm; simp [sparseSet, hv, sparseGet_eq_default_of_lt d hlt]
      · simp [sparseSet, hv, hm, sparseGet]
      · simp [sparseSet, hv, hm, sparseGet]
      · simp [sparseSet, hv, hm, sparseGet]
    · have h1 : ¬ n < k := by omega
      have h2 : n ≠ k := by omega
      by_cases hm : m = k
      · subst hm
        have : m ≠ n := by omega
        simp [sparseSet, h1, h2, sparseGet, this]
      · simp [sparseSet, h1, h2, sparseGet, hm, ih hl]

theorem mem_sparseSet [DecidableEq α] {l : List (Nat × α)} {n : Nat} {v : α} {c : Nat × α} (h : c ∈ sparseSet d n v l) :
    (c = (n, v) ∧ v ≠ d) ∨ c ∈ l := by
  induction l with
  | nil => by_cases hv : v = d <;> simp_all [sparseSet]
  | cons e l ih =>
    obtain ⟨k, w⟩ := e
    unfold sparseSet at h
    split_ifs at h <;> simp_all
    · tauto
    · rcases h with h | h
      · exact .inr (.inl h)
      · rcases ih h with h | h <;> simp [h]

/-- A write keeps the canonical form. -/
theorem sparseSet_wf [DecidableEq α] {l : List (Nat × α)} (h : sparseWf d l) (n : Nat) (v : α) : sparseWf d (sparseSet d n v l) := by
  refine ⟨?_, fun c hc => ?_⟩
  · induction l with
    | nil => by_cases hv : v = d <;> simp [sparseSet, hv]
    | cons e l ih =>
      obtain ⟨k, w⟩ := e
      have hlt : ∀ c ∈ l, k < c.1 := (List.pairwise_cons.1 h.1).1
      have hl : sparseWf d l := ⟨(List.pairwise_cons.1 h.1).2, fun c hc => h.2 c (by simp [hc])⟩
      unfold sparseSet
      split_ifs with h1 h2 h3 h4
      · exact h.1
      · refine List.pairwise_cons.2 ⟨fun c hc => ?_, h.1⟩
        rcases List.mem_cons.1 hc with rfl | hc
        · exact h1
        · have := hlt c hc; simp only; omega
      · exact hl.1
      · subst h3; exact List.pairwise_cons.2 ⟨hlt, hl.1⟩
      · refine List.pairwise_cons.2 ⟨fun c hc => ?_, ih hl⟩
        rcases mem_sparseSet d hc with ⟨rfl, -⟩ | hc
        · simp only; omega
        · exact hlt c hc
  · rcases mem_sparseSet d hc with ⟨rfl, hv⟩ | hc
    · exact hv
    · exact h.2 c hc

/-- `MemWrite` keeps the canonical form of memory. -/
theorem memWrite_wf {s : State} (h : Memory.wf s.mem) (p : Phys) (c : MemCell) : Memory.wf (memWrite p c s).mem :=
  sparseSet_wf _ h _ _

/-- `MemRead` after `MemWrite`. -/
theorem memRead_memWrite {s : State} (h : Memory.wf s.mem) (p q : Phys) (c : MemCell) :
    memRead q (memWrite p c s) = if q = p then c else memRead q s := by
  simp only [memRead, memWrite_mem, sparseGet_sparseSet _ h, BitVec.toNat_inj]

/-- A mailbox read after a mailbox write. -/
theorem mailbox_setMailbox {s : State} (h : sparseWf Mailbox.empty s.mbox) (n m : Nat) (b : Mailbox) :
    mailbox m (setMailbox n b s) = if m = n then b else mailbox m s := by
  simp only [mailbox, setMailbox_mbox, sparseGet_sparseSet _ h]

/-- A mailbox write keeps the canonical form of the mailboxes. -/
theorem setMailbox_wf {s : State} (h : sparseWf Mailbox.empty s.mbox) (n : Nat) (b : Mailbox) :
    sparseWf Mailbox.empty (setMailbox n b s).mbox :=
  sparseSet_wf _ h _ _

/-- Memory right after reset has its canonical form. -/
theorem reset_mem_wf : Memory.wf State.reset.mem := by decide

end Sys2Proof.Machine
end

