-- ==== Sys2Proof/Laws/Recency.lean ====
section
/-!
SUPPORT. The recency relation: what a touch does to each pair, and that it keeps a total order with its oldest line.
-/

namespace Sys2Proof.Machine

/-- A pair bit orders its two lines one way. -/
theorem newer_swap {w n i j : Nat} (bits : BitVec w) (h : i ≠ j) : newer n bits j i = !newer n bits i j := by
  unfold newer
  rcases Nat.lt_or_gt_of_ne h with h1 | h1
  · simp [h1, Nat.lt_asymm h1]
  · simp [h1, Nat.lt_asymm h1]

theorem onesOf_8 : ∀ i < 8, ∀ j < 8, ∀ k < 8, j < k → (onesOf 8 28 i).getLsbD (pairIndex 8 j k) = decide (j = i) := by
  decide +kernel

theorem zerosOf_8 : ∀ i < 8, ∀ j < 8, ∀ k < 8, j < k → (zerosOf 8 28 i).getLsbD (pairIndex 8 j k) = decide (k = i) := by
  decide +kernel

theorem onesOf_4 : ∀ i < 4, ∀ j < 4, ∀ k < 4, j < k → (onesOf 4 6 i).getLsbD (pairIndex 4 j k) = decide (j = i) := by
  decide +kernel

theorem zerosOf_4 : ∀ i < 4, ∀ j < 4, ∀ k < 4, j < k → (zerosOf 4 6 i).getLsbD (pairIndex 4 j k) = decide (k = i) := by
  decide +kernel

theorem pairIndex_8 : ∀ j < 8, ∀ k < 8, j < k → pairIndex 8 j k < 28 := by decide

theorem pairIndex_4 : ∀ j < 4, ∀ k < 4, j < k → pairIndex 4 j k < 6 := by decide

/-- Every pair of the write buffer's relation after a touch (R131). -/
theorem newer_touch_8 (bits : BitVec 28) {i j k : Nat} (hi : i < 8) (hj : j < 8) (hk : k < 8) (h : j ≠ k) :
    newer 8 (touchBits 8 bits i) j k = if j = i then true else if k = i then false else newer 8 bits j k := by
  rcases Nat.lt_or_gt_of_ne h with h1 | h1
  · have := pairIndex_8 j hj k hk h1
    simp only [newer, h1, if_true, touchBits, BitVec.getLsbD_and, BitVec.getLsbD_or, BitVec.getLsbD_not,
      onesOf_8 i hi j hj k hk h1, zerosOf_8 i hi j hj k hk h1, this, decide_true, Bool.true_and]
    by_cases ha : j = i <;> by_cases hb : k = i <;> simp [ha, hb]
    omega
  · have := pairIndex_8 k hk j hj h1
    simp only [newer, Nat.lt_asymm h1, if_false, touchBits, BitVec.getLsbD_and, BitVec.getLsbD_or,
      BitVec.getLsbD_not, onesOf_8 i hi k hk j hj h1, zerosOf_8 i hi k hk j hj h1, this, decide_true, Bool.true_and]
    by_cases ha : j = i <;> by_cases hb : k = i <;> simp [ha, hb]

/-- Every pair of the prefetch cache's relation after a touch (R131). -/
theorem newer_touch_4 (bits : BitVec 6) {i j k : Nat} (hi : i < 4) (hj : j < 4) (hk : k < 4) (h : j ≠ k) :
    newer 4 (touchBits 4 bits i) j k = if j = i then true else if k = i then false else newer 4 bits j k := by
  rcases Nat.lt_or_gt_of_ne h with h1 | h1
  · have := pairIndex_4 j hj k hk h1
    simp only [newer, h1, if_true, touchBits, BitVec.getLsbD_and, BitVec.getLsbD_or, BitVec.getLsbD_not,
      onesOf_4 i hi j hj k hk h1, zerosOf_4 i hi j hj k hk h1, this, decide_true, Bool.true_and]
    by_cases ha : j = i <;> by_cases hb : k = i <;> simp [ha, hb]
    omega
  · have := pairIndex_4 k hk j hj h1
    simp only [newer, Nat.lt_asymm h1, if_false, touchBits, BitVec.getLsbD_and, BitVec.getLsbD_or,
      BitVec.getLsbD_not, onesOf_4 i hi k hk j hj h1, zerosOf_4 i hi k hk j hj h1, this, decide_true, Bool.true_and]
    by_cases ha : j = i <;> by_cases hb : k = i <;> simp [ha, hb]

/-- A relation that agrees with a total order off line `i`, where line `i` wins every comparison, is a total order. -/
theorem recencyTotal_of_wins {w n i : Nat} {a b : BitVec w} (h : recencyTotal n a)
    (hn : ∀ j < n, ∀ k < n, j ≠ k → newer n b j k = if j = i then true else if k = i then false else newer n a j k) :
    recencyTotal n b := by
  intro x hx y hy z hz hxy hyz hxz h1 h2
  rw [hn _ hx _ hy hxy] at h1
  rw [hn _ hy _ hz hyz] at h2
  rw [hn _ hx _ hz hxz]
  by_cases ha : x = i
  · simp [ha]
  · by_cases hb : y = i
    · simp [ha, hb] at h1
    · by_cases hc : z = i
      · simp [hb, hc] at h2
      · simp only [ha, hb, hc, if_false] at *
        exact h x hx y hy z hz hxy hyz hxz h1 h2

/-- A total order has an oldest line (R132). -/
theorem exists_oldest {w n : Nat} {bits : BitVec w} (h : recencyTotal n bits) (hn : 0 < n) :
    ∃ o < n, ∀ j < n, j ≠ o → newer n bits j o = true := by
  have : ∀ m, 0 < m → m ≤ n → ∃ o < m, ∀ j < m, j ≠ o → newer n bits j o = true := by
    intro m
    induction m with
    | zero => intro h0; omega
    | succ m ih =>
      intro _ hm
      by_cases h0 : m = 0
      · exact ⟨0, by omega, fun j hj hne => by omega⟩
      · obtain ⟨o, ho, hall⟩ := ih (by omega) (by omega)
        by_cases hw : newer n bits m o = true
        · refine ⟨o, by omega, fun j hj hne => ?_⟩
          by_cases hjm : j = m
          · rw [hjm]; exact hw
          · exact hall j (by omega) hne
        · have hom : newer n bits o m = true := by
            have hsw := newer_swap (n := n) bits (show m ≠ o by omega)
            rw [hsw]; simp [hw]
          refine ⟨m, by omega, fun j hj hne => ?_⟩
          by_cases hjo : j = o
          · rw [hjo]; exact hom
          · exact h j (by omega) o (by omega) m (by omega) hjo (by omega) hne (hall j (by omega) hjo) hom
  exact this n hn (Nat.le_refl n)

theorem isOldest_iff {w n o : Nat} {bits : BitVec w} :
    isOldest n bits o = true ↔ ∀ j < n, j ≠ o → newer n bits j o = true := by
  simp only [isOldest, List.all_eq_true, List.mem_range, Bool.or_eq_true, beq_iff_eq]
  exact forall₂_congr fun j _ => by tauto

/-- In a total order the recomputed pointer names the oldest line (R132). -/
theorem oldestOf_isOldest {w n : Nat} {bits : BitVec w} (h : recencyTotal n bits) (c : Fin n) :
    isOldest n bits (oldestOf n bits c).val = true := by
  obtain ⟨o, ho, hall⟩ := exists_oldest h c.pos
  have hex : ((List.range n).find? (isOldest n bits)).isSome := by
    rw [List.find?_isSome]
    exact ⟨o, List.mem_range.2 ho, isOldest_iff.2 hall⟩
  obtain ⟨x, hx⟩ := Option.isSome_iff_exists.1 hex
  have hlt : x < n := List.mem_range.1 (List.mem_of_find?_eq_some hx)
  have : oldestOf n bits c = ⟨x, hlt⟩ := by simp [oldestOf, hx, hlt]
  rw [this]
  exact List.find?_some hx

/-- A touched write buffer stays in total order with its oldest pointer right (R131, R132). -/
theorem wbTouch_total {b : WriteBuffer} (h : recencyTotal 8 b.newer) (i : Fin 8) :
    recencyTotal 8 (wbTouch i b).newer ∧ isOldest 8 (wbTouch i b).newer (wbTouch i b).oldest.val = true := by
  have ht : recencyTotal 8 (touchBits 8 b.newer i.val) :=
    recencyTotal_of_wins (i := i.val) h fun j hj k hk hne => newer_touch_8 _ i.isLt hj hk hne
  exact ⟨ht, oldestOf_isOldest ht _⟩

/-- A touched prefetch cache stays in total order with its oldest pointer right (R131, R132). -/
theorem pfTouch_total {c : Prefetch} (h : recencyTotal 4 c.newer) (i : Fin 4) :
    recencyTotal 4 (pfTouch i c).newer ∧ isOldest 4 (pfTouch i c).newer (pfTouch i c).oldest.val = true := by
  have ht : recencyTotal 4 (touchBits 4 c.newer i.val) :=
    recencyTotal_of_wins (i := i.val) h fun j hj k hk hne => newer_touch_4 _ i.isLt hj hk hne
  exact ⟨ht, oldestOf_isOldest ht _⟩

end Sys2Proof.Machine
end

