-- ==== Sys2Proof/Laws/Cache.lean ====
section
/-!
SUPPORT. What the store, flush and fetch paths can do to the caches and to memory, and that each keeps them good.
-/

namespace Sys2Proof.Machine

/-! ### Looking a line up -/

/-- The first line number that satisfies a test, in a rising list of all of them. -/
theorem find_lines {n : Nat} {L : List (Fin n)} (hm : ∀ i, i ∈ L) (hp : L.Pairwise (· < ·)) (q : Fin n → Bool) :
    (∀ i, L.find? q = some i ↔ q i = true ∧ ∀ j < i, q j = false) ∧
    (L.find? q = none ↔ ∀ i, q i = false) := by
  constructor
  · intro i
    constructor
    · intro h
      refine ⟨List.find?_some h, fun j hj => ?_⟩
      obtain ⟨-, as, bs, hl, hb⟩ := List.find?_eq_some_iff_append.1 h
      have hja : j ∈ as ++ i :: bs := hl ▸ hm j
      rcases List.mem_append.1 hja with h1 | h1
      · simpa using hb j h1
      · have hpw := hl ▸ hp
        have hgt := (List.pairwise_append.1 hpw).2.1
        rcases List.mem_cons.1 h1 with rfl | h2
        · exact absurd hj (lt_irrefl _)
        · exact absurd ((List.pairwise_cons.1 hgt).1 j h2) (by omega)
    · rintro ⟨hq, hb⟩
      have hs : (L.find? q).isSome := by rw [List.find?_isSome]; exact ⟨i, hm i, hq⟩
      obtain ⟨k, hk⟩ := Option.isSome_iff_exists.1 hs
      have hkq := List.find?_some hk
      rcases lt_trichotomy k i with h1 | rfl | h1
      · rw [hb k h1] at hkq; cases hkq
      · exact hk
      · exfalso
        obtain ⟨-, as, bs, hl, hbf⟩ := List.find?_eq_some_iff_append.1 hk
        have hia : i ∈ as ++ k :: bs := hl ▸ hm i
        rcases List.mem_append.1 hia with h2 | h2
        · have := hbf i h2; simp [hq] at this
        · have hpw := hl ▸ hp
          have hgt := (List.pairwise_append.1 hpw).2.1
          rcases List.mem_cons.1 h2 with h3 | h3
          · subst h3; exact lt_irrefl _ h1
          · exact absurd ((List.pairwise_cons.1 hgt).1 i h3) (by omega)
  · rw [List.find?_eq_none]
    exact ⟨fun h i => by simpa using h i (hm i), fun h i _ => by simp [h i]⟩

theorem wbFind_some {k : Key} {s : State} {i : Fin 8} : wbFind k s = some i ↔ wbHits k i s := by
  rw [wbFind, (find_lines (by decide) (by decide) _).1 i, wbHits]
  simp only [Bool.and_eq_true, beq_iff_eq, Bool.eq_false_iff, ne_eq]

theorem wbFind_none {k : Key} {s : State} : wbFind k s = none ↔ wbMisses k s := by
  rw [wbFind, (find_lines (by decide) (by decide) _).2, wbMisses]
  simp only [Bool.and_eq_true, beq_iff_eq, Bool.eq_false_iff, ne_eq]

theorem pfFind_some {k : Key} {s : State} {i : Fin 4} : pfFind k s = some i ↔ pfHits k i s := by
  rw [pfFind, (find_lines (by decide) (by decide) _).1 i, pfHits]
  simp only [Bool.and_eq_true, beq_iff_eq, Bool.eq_false_iff, ne_eq]

theorem pfFind_none {k : Key} {s : State} : pfFind k s = none ↔ pfMisses k s := by
  rw [pfFind, (find_lines (by decide) (by decide) _).2, pfMisses]
  simp only [Bool.and_eq_true, beq_iff_eq, Bool.eq_false_iff, ne_eq]

/-! ### A replaced line -/

theorem setWbLine_get (i j : Fin 8) (l : WbLine) (s : State) :
    (setWbLine i l s).wb.lines[j.val] = if j = i then l else s.wb.lines[j.val] := by
  by_cases h : j = i
  · subst h; simp [setWbLine]
  · have : i.val ≠ j.val := fun e => h (Fin.ext e.symm)
    simp [setWbLine, h, this]

theorem setPfLine_get (i j : Fin 4) (l : PfLine) (s : State) :
    (setPfLine i l s).pf.lines[j.val] = if j = i then l else s.pf.lines[j.val] := by
  by_cases h : j = i
  · subst h; simp [setPfLine]
  · have : i.val ≠ j.val := fun e => h (Fin.ext e.symm)
    simp [setPfLine, h, this]

@[simp] theorem wbTouch_lines (i : Fin 8) (b : WriteBuffer) : (wbTouch i b).lines = b.lines := rfl
@[simp] theorem pfTouch_lines (i : Fin 4) (c : Prefetch) : (pfTouch i c).lines = c.lines := rfl

/-! ### Write-back and flush -/

@[simp] theorem writeBack_setup (i : Fin 8) (s : State) : (writeBack i s).setup = s.setup := by
  simp only [writeBack]; split <;> rfl

@[simp] theorem writeBack_wb (i : Fin 8) (s : State) : (writeBack i s).wb = s.wb := by
  simp only [writeBack]; split <;> rfl

/-- A write-back changes memory alone. -/
theorem writeBack_frame (i : Fin 8) (s : State) : { writeBack i s with mem := s.mem } = s := by
  simp only [writeBack]; split <;> rfl

theorem writeBack_wf {s : State} (h : Memory.wf s.mem) (i : Fin 8) : Memory.wf (writeBack i s).mem := by
  simp only [writeBack]; split
  · exact memWrite_wf h _ _
  · exact h

/-- Memory after a write-back (R112, R113). -/
theorem memRead_writeBack {s : State} (h : Memory.wf s.mem) (i : Fin 8) (p : Phys) :
    memRead p (writeBack i s) =
      if s.wb.lines[i.val].valid = true ∧ p = s.wb.lines[i.val].phys then
        ⟨s.wb.lines[i.val].word, s.wb.lines[i.val].tag⟩
      else memRead p s := by
  simp only [writeBack]
  by_cases hv : s.wb.lines[i.val].valid = true
  · rw [if_pos hv, memRead_memWrite h]; simp [hv]
  · rw [if_neg hv]; simp [hv]

theorem memRead_congr {s t : State} (h : t.mem = s.mem) (p : Phys) : memRead p t = memRead p s := by
  rw [memRead, memRead, h]

theorem flushLine_mem (i : Fin 8) (s : State) : (flushLine i s).mem = (writeBack i s).mem := rfl

theorem flushLine_get (i j : Fin 8) (s : State) :
    (flushLine i s).wb.lines[j.val] =
      if j = i then { s.wb.lines[i.val] with valid := false } else s.wb.lines[j.val] := by
  rw [flushLine, setWbLine_get]
  simp

theorem flushLine_frame (i : Fin 8) (s : State) : { flushLine i s with wb := s.wb, mem := s.mem } = s := by
  simp only [flushLine, writeBack]; split <;> rfl

theorem flushLine_newer (i : Fin 8) (s : State) :
    (flushLine i s).wb.newer = s.wb.newer ∧ (flushLine i s).wb.oldest = s.wb.oldest := by
  simp only [flushLine, writeBack]; split <;> exact ⟨rfl, rfl⟩

/-- A flush of the lines of a list, one after another. -/
theorem flushList (L : List (Fin 8)) (s : State) (h : Memory.wf s.mem) :
    let t := L.foldl (fun t i => flushLine i t) s
    { t with wb := s.wb, mem := s.mem } = s ∧ t.wb.newer = s.wb.newer ∧ t.wb.oldest = s.wb.oldest ∧
      Memory.wf t.mem ∧
      ∀ j : Fin 8, t.wb.lines[j.val] = if j ∈ L then { s.wb.lines[j.val] with valid := false } else s.wb.lines[j.val] := by
  induction L generalizing s with
  | nil => exact ⟨rfl, rfl, rfl, h, fun j => by simp⟩
  | cons i L ih =>
    have hw : Memory.wf (flushLine i s).mem := writeBack_wf h i
    obtain ⟨h1, h2, h3, h4, h5⟩ := ih (flushLine i s) hw
    simp only [List.foldl_cons]
    refine ⟨?_, ?_, ?_, h4, fun j => ?_⟩
    · have hf := flushLine_frame i s
      generalize List.foldl (fun t i => flushLine i t) (flushLine i s) L = t at h1
      calc { t with wb := s.wb, mem := s.mem }
          = { ({ t with wb := (flushLine i s).wb, mem := (flushLine i s).mem } : State) with wb := s.wb, mem := s.mem } := rfl
        _ = { flushLine i s with wb := s.wb, mem := s.mem } := by rw [h1]
        _ = s := hf
    · exact h2.trans (flushLine_newer i s).1
    · exact h3.trans (flushLine_newer i s).2
    · rw [h5 j, flushLine_get]
      by_cases hj : j = i
      · subst hj; by_cases hm : j ∈ L <;> simp [hm]
      · simp [hj]

/-- Memory after such a flush, for a list without repeats: the last line of the list at an address decides. -/
theorem memRead_flushList (L : List (Fin 8)) (hL : L.Nodup) (s : State) (h : Memory.wf s.mem) (p : Phys) :
    memRead p (L.foldl (fun t i => flushLine i t) s) =
      match L.reverse.find? (fun i => s.wb.lines[i.val].valid && s.wb.lines[i.val].phys == p) with
      | some i => ⟨s.wb.lines[i.val].word, s.wb.lines[i.val].tag⟩
      | none => memRead p s := by
  induction L generalizing s with
  | nil => rfl
  | cons i L ih =>
    have hw : Memory.wf (flushLine i s).mem := writeBack_wf h i
    obtain ⟨hi, hL'⟩ := List.nodup_cons.1 hL
    have hsame : ∀ j ∈ L, (flushLine i s).wb.lines[j.val] = s.wb.lines[j.val] := by
      intro j hj
      rw [flushLine_get, if_neg]
      rintro rfl; exact hi hj
    have hfind : L.reverse.find? (fun j => (flushLine i s).wb.lines[j.val].valid &&
        (flushLine i s).wb.lines[j.val].phys == p) =
        L.reverse.find? (fun j => s.wb.lines[j.val].valid && s.wb.lines[j.val].phys == p) := by
      refine List.find?_congr fun j hj => ?_
      rw [hsame j (List.mem_reverse.1 hj)]
    rw [List.foldl_cons, ih hL' _ hw, hfind, List.reverse_cons, List.find?_append]
    cases hr : L.reverse.find? (fun j => s.wb.lines[j.val].valid && s.wb.lines[j.val].phys == p) with
    | some j =>
      have hj : j ∈ L := List.mem_reverse.1 (List.mem_of_find?_eq_some hr)
      simp [hsame j hj]
    | none =>
      rw [memRead_congr (flushLine_mem i s), memRead_writeBack h]
      by_cases hc : s.wb.lines[i.val].valid = true ∧ p = s.wb.lines[i.val].phys
      · obtain ⟨hv, rfl⟩ := hc; simp [List.find?, hv]
      · have : (s.wb.lines[i.val].valid && s.wb.lines[i.val].phys == p) = false := by
          by_contra hh
          simp only [Bool.not_eq_false, Bool.and_eq_true, beq_iff_eq] at hh
          exact hc ⟨hh.1, hh.2.symm⟩
        simp [List.find?, this, hc]

/-- The whole flush (R113). -/
theorem flushAll_spec {s : State} (h : Memory.wf s.mem) :
    let t := flushAll s
    { t with wb := s.wb, mem := s.mem } = s ∧ t.wb.newer = s.wb.newer ∧ t.wb.oldest = s.wb.oldest ∧
      Memory.wf t.mem ∧ ∀ j : Fin 8, t.wb.lines[j.val] = { s.wb.lines[j.val] with valid := false } := by
  obtain ⟨h1, h2, h3, h4, h5⟩ := flushList wbLines s h
  refine ⟨h1, h2, h3, h4, fun j => ?_⟩
  have : j ∈ wbLines := by revert j; decide
  have hj := h5 j
  rw [if_pos this] at hj
  exact hj

/-! ### Stores -/

/-- A store that hits line `i` (R111). -/
theorem storeAt_hit {k : Key} {s : State} {i : Fin 8} (h : wbFind k s = some i) (w : Word) :
    storeAt k w s = storeHit i w (storeTag s) s := by
  simp [storeAt, Params.wbEnabled, Params.storeInvalidatesPf, h]

/-- A store that misses (R112). -/
theorem storeAt_miss {k : Key} {s : State} (h : wbFind k s = none) (w : Word) :
    storeAt k w s = storeMiss k w (storeTag s) s := by
  simp [storeAt, Params.wbEnabled, Params.storeInvalidatesPf, h]

/-- The lines after a store: the written one and the others (R111, R112). -/
theorem storeAt_lines (k : Key) (w : Word) (s : State) :
    ∃ i : Fin 8, (wbFind k s = some i ∨ wbFind k s = none ∧ i = s.wb.oldest) ∧
      ∀ j : Fin 8, (storeAt k w s).wb.lines[j.val] =
        if j = i then
          (if wbFind k s = none then ⟨true, k, translate k s, w, storeTag s⟩
          else { s.wb.lines[i.val] with word := w, tag := storeTag s })
        else s.wb.lines[j.val] := by
  cases h : wbFind k s with
  | some i =>
    refine ⟨i, .inl rfl, fun j => ?_⟩
    rw [storeAt_hit h]
    simp only [storeHit]
    split
    · rw [setWbLine_get]; simp
    · simp only [touchWb, wbTouch_lines]; rw [setWbLine_get]; simp
  | none =>
    refine ⟨s.wb.oldest, .inr ⟨rfl, rfl⟩, fun j => ?_⟩
    rw [storeAt_miss h]
    simp only [storeMiss, touchWb, wbTouch_lines]
    rw [setWbLine_get]; simp

/-- A store changes the buffer and memory alone. -/
theorem storeAt_frame (k : Key) (w : Word) (s : State) :
    { storeAt k w s with wb := s.wb, mem := s.mem } = s := by
  cases h : wbFind k s with
  | some i => rw [storeAt_hit h]; simp only [storeHit]; split <;> rfl
  | none => rw [storeAt_miss h]; simp only [storeMiss, writeBack]; split <;> rfl

theorem storeAt_mem (k : Key) (w : Word) (s : State) :
    (storeAt k w s).mem = match wbFind k s with
      | some _ => s.mem
      | none => (writeBack s.wb.oldest s).mem := by
  cases h : wbFind k s with
  | some i => rw [storeAt_hit h]; simp only [storeHit]; split <;> rfl
  | none => rw [storeAt_miss h]; rfl

/-- A store changes no memory cell but that of the line it evicts (R110, R112). -/
theorem memRead_stored {a : Addr} {w : Word} {s : State} (h : Memory.wf s.mem) {p : Phys}
    (hp : cellWritten a s ≠ some p) : memRead p (stored a w s) = memRead p s := by
  unfold stored
  by_cases ha : a = 0
  · rw [if_pos ha]
  · rw [if_neg ha]
    unfold cellWritten at hp
    rw [if_neg ha] at hp
    cases hf : wbFind (resolve a s) s with
    | some i => exact memRead_congr (by rw [storeAt_mem, hf]) p
    | none =>
      have hm : (storeAt (resolve a s) w s).mem = (writeBack s.wb.oldest s).mem := by rw [storeAt_mem, hf]
      rw [memRead_congr hm, memRead_writeBack h, if_neg]
      rintro ⟨hv, rfl⟩
      rw [hf] at hp
      simp [hv] at hp

end Sys2Proof.Machine
end

