-- ==== Sys2Proof/Laws/Regs.lean ====
section
/-!
SUPPORT. The register file: what a write reads back as, through the 4-bit index field and the 5-bit selector.
-/

namespace Sys2Proof.Machine

@[simp] theorem idx_zero (s : State) : idx 0#4 s = 0#15 := rfl

@[simp] theorem setIdx_zero (v : Addr) (s : State) : setIdx 0#4 v s = s := rfl

/-- A read of `M[r]` after a write of `M[q]` (R33). -/
theorem idx_setIdx (r q : Idx) (v : Addr) (s : State) :
    idx r (setIdx q v s) = if r = q ∧ q ≠ 0#4 then v else idx r s := by
  by_cases hq : q = 0#4
  · simp [setIdx, hq]
  · by_cases hr : r = 0#4
    · subst hr
      have : ¬(0#4 = q) := fun h => hq h.symm
      simp [this]
    · have hr' : r.toNat ≠ 0 := fun h => hr (BitVec.eq_of_toNat_eq (by simpa using h))
      have hq' : q.toNat ≠ 0 := fun h => hq (BitVec.eq_of_toNat_eq (by simpa using h))
      by_cases hrq : r = q
      · subst hrq; simp [idx, setIdx, hq]
      · have : q.toNat - 1 ≠ r.toNat - 1 := fun h => hrq (BitVec.eq_of_toNat_eq (by omega))
        simp [idx, setIdx, hq, hr, hrq, this]

/-- The registers `M[r]` read the same in states with the same general registers. -/
theorem idx_congr {s t : State} (h : s.gen = t.gen) (r : Idx) : idx r s = idx r t := by
  simp [idx, h]

@[simp] theorem sp_setSp (v : Addr) (s : State) : sp (setSp v s) = v := by
  simp [sp, setSp, idx_setIdx, spIdx]

/-- Writing back the value a register has changes nothing. -/
theorem setIdx_idx (r : Idx) (s : State) : setIdx r (idx r s) s = s := by
  by_cases hr : r = 0#4
  · simp [setIdx, hr]
  · simp [setIdx, idx, hr]

@[simp] theorem setSp_sp (s : State) : setSp (sp s) s = s := setIdx_idx _ _

/-- A second write of a register overwrites the first. -/
theorem setIdx_setIdx (r : Idx) (v w : Addr) (s : State) : setIdx r w (setIdx r v s) = setIdx r w s := by
  by_cases hr : r = 0#4 <;> simp [setIdx, hr]

/-- What a slot keeps of a 16-bit value: 16 bits in IBP and DWP, nothing in slot 0, 15 bits elsewhere (R32, R33). -/
def keptValue (j : BitVec 5) (v : Key) : Key :=
  if j = 0 then 0 else if j = 0o34 ∨ j = 0o35 then v else (v.setWidth 15).setWidth 16

/-- `M[j] <- v` for a general register. -/
theorem writeM_general {j : BitVec 5} (h : j.toNat < 16) (v : Key) (s : State) :
    writeM j v s = setIdx (j.setWidth 4) (v.setWidth 15) s := by
  unfold writeM
  split <;> first | omega | rfl

/-- `M[j]` for a general register. -/
theorem readM_general {j : BitVec 5} (h : j.toNat < 16) (s : State) :
    readM j s = (idx (j.setWidth 4) s).setWidth 16 := by
  unfold readM
  split <;> first | omega | rfl

end Sys2Proof.Machine
end

