-- ==== Sys2Proof/Laws/Half.lean ====
section
/-!
SUPPORT. What the run of one half can do: how a completed effect commits, and what a raised fault leaves.
-/

namespace Sys2Proof.Machine

/-! ### Reads that the start of a half does not change -/

@[simp] theorem modified_beginHalf (a : Addr) (s : State) : modified a (beginHalf s) = modified a s := rfl
@[simp] theorem effective_beginHalf (r : Idx) (a : Addr) (s : State) : effective r a (beginHalf s) = effective r a s := rfl
@[simp] theorem idx_beginHalf (r : Idx) (s : State) : idx r (beginHalf s) = idx r s := rfl
@[simp] theorem sp_beginHalf (s : State) : sp (beginHalf s) = sp s := rfl
@[simp] theorem supervisor_beginHalf (s : State) : supervisor (beginHalf s) = supervisor s := rfl
@[simp] theorem resolve_beginHalf (a : Addr) (s : State) : resolve a (beginHalf s) = resolve a s := rfl
@[simp] theorem readM_beginHalf (j : BitVec 5) (s : State) : readM j (beginHalf s) = readM j s := rfl
@[simp] theorem selector_beginHalf (a : Addr) (s : State) : selector a (beginHalf s) = selector a s := rfl
@[simp] theorem loadFault_beginHalf (a : Addr) (s : State) : loadFault a (beginHalf s) = loadFault a s := rfl
@[simp] theorem loadWord_beginHalf (a : Addr) (s : State) : loadWord a (beginHalf s) = loadWord a s := rfl
@[simp] theorem loadFault_corr (a : Addr) (s : State) (c : Corr) :
    loadFault a { s with corr := c } = loadFault a s := rfl
@[simp] theorem loadWord_corr (a : Addr) (s : State) (c : Corr) :
    loadWord a { s with corr := c } = loadWord a s := rfl
@[simp] theorem storeFault_beginHalf (a : Addr) (s : State) : storeFault a (beginHalf s) = storeFault a s := rfl

/-! ### Equality up to the sequencing fields -/

@[simp] theorem settled_beginHalf (s : State) : settled (beginHalf s) = settled s := rfl

/-! ### Commit -/

/-- The modification that a half leaves, as one update (R184, R330). -/
theorem installMod_eq (t : State) :
    installMod t =
      { t with mod := t.nextMod.getD t.mod, ruu := { t.ruu with modPending := t.nextMod.isSome } } := by
  cases h : t.nextMod <;> simp [installMod, h]

/-- The advance, as one update (R188). -/
theorem advance_eq (t : State) :
    advance t =
      { t with pc := if t.ruu.right then t.pc + 1 else t.pc, ruu := { t.ruu with right := !t.ruu.right } } := by
  cases h : t.ruu.right <;> simp [advance, h]

/-- A commit changes the pc, RUU, MOD, TRAPPING, the halt record and CLOCK alone (R184). -/
theorem commit_frame (op : Op) (t : State) :
    { commit op t with
      pc := t.pc, ruu := t.ruu, mod := t.mod, trapping := t.trapping, halted := t.halted, clock := t.clock } = t := by
  simp only [commit, advance_eq, installMod_eq]
  split
  · rfl
  · split <;> rfl

/-- The modification a commit leaves: the one the half set up, or none; of RUU only the live half changes besides
(R184). -/
theorem commit_mod (op : Op) (t : State) :
    (commit op t).mod = t.nextMod.getD t.mod ∧
      (commit op t).ruu = { t.ruu with right := (commit op t).ruu.right, modPending := t.nextMod.isSome } := by
  simp only [commit, advance_eq, installMod_eq]
  split
  · exact ⟨rfl, rfl⟩
  · split <;> exact ⟨rfl, rfl⟩

/-- A commit after a transfer keeps the pc and the live half (R184, R185). -/
theorem commit_jumped (op : Op) {t : State} (h : t.jumped = true) :
    (commit op t).pc = t.pc ∧ (commit op t).ruu.right = t.ruu.right ∧ (commit op t).trapping = false ∧
      (commit op t).halted = t.halted ∧ (commit op t).clock = t.clock + delay op true := by
  cases hn : t.nextMod <;> simp [commit, installMod, runsOut, hn, h]

/-- A half that completes without a transfer: its successor, and nothing else changed (R184, R188). -/
theorem commit_goesOn {op : Op} {s t : State} (hn : t.nextMod = none) (hj : t.jumped = false) (hp : t.pc = s.pc)
    (hr : t.ruu.right = s.ruu.right) (hh : t.halted = s.halted) (hc : t.clock = s.clock) :
    goesOn op s (commit op t) ∧ settled (commit op t) = settled t := by
  by_cases h1 : s.ruu.right = true
  · by_cases h2 : s.pc = 0o77777#15
    · simp [commit, installMod, runsOut, goesOn, followsOn, settled, stopWith, hn, hj, hp, hr, h1, h2]
    · simp [commit, installMod, runsOut, goesOn, followsOn, settled, advance, nextHalf, hn, hj, hp, hr, hh, hc, h1, h2]
  · simp [commit, installMod, runsOut, goesOn, followsOn, settled, advance, nextHalf, hn, hj, hp, hr, hh, hc, h1]

/-- A half that completes and leaves a modification for the next one (R184, R330). -/
theorem commit_modifies {op : Op} {s t : State} {v : Addr} (hn : t.nextMod = some v) (hj : t.jumped = false)
    (hp : t.pc = s.pc) (hr : t.ruu.right = s.ruu.right) (hh : t.halted = s.halted) (hc : t.clock = s.clock) :
    (commit op t).ruu.modPending = true ∧ followsOn op s (commit op t) ∧
      settled (commit op t) = settled { t with mod := v } := by
  by_cases h1 : s.ruu.right = true
  · by_cases h2 : s.pc = 0o77777#15
    · simp [commit, installMod, runsOut, followsOn, settled, stopWith, hn, hj, hp, hr, h1, h2]
    · simp [commit, installMod, runsOut, followsOn, settled, advance, nextHalf, hn, hj, hp, hr, hh, hc, h1, h2]
  · simp [commit, installMod, runsOut, followsOn, settled, advance, nextHalf, hn, hj, hp, hr, hh, hc, h1]

/-- A half that completes with a transfer: control is at the left half of the target (R184, R185). -/
theorem commit_goesTo {op : Op} {s t : State} {a : Addr} (hn : t.nextMod = none) (hj : t.jumped = true)
    (hp : t.pc = a) (hr : t.ruu.right = false) (hh : t.halted = s.halted) (hc : t.clock = s.clock) :
    goesTo op a s (commit op t) ∧ settled (commit op t) = settled t := by
  simp [commit, installMod, runsOut, goesTo, settled, hn, hj, hp, hr, hh, hc]

/-- An effect that completes in line. -/
theorem run_completesAs {i : Instr} {s t u : State} {effect : State → Res Unit} (hi : exec i s = run i.op s effect)
    (he : effect (beginHalf s) = .ok () t) (hn : t.nextMod = none) (hj : t.jumped = false) (hp : t.pc = s.pc)
    (hr : t.ruu.right = s.ruu.right) (hh : t.halted = s.halted) (hc : t.clock = s.clock)
    (hu : settled t = settled u) : completesAs i s u := by
  have h := commit_goesOn (op := i.op) hn hj hp hr hh hc
  exact ⟨commit i.op t, by rw [hi, run, runHalf, he], h.1, h.2.trans hu⟩

/-- An effect that completes with a transfer. -/
theorem run_jumpsAs {i : Instr} {s t u : State} {a : Addr} {effect : State → Res Unit}
    (hi : exec i s = run i.op s effect) (he : effect (beginHalf s) = .ok () t) (hn : t.nextMod = none)
    (hj : t.jumped = true) (hp : t.pc = a) (hr : t.ruu.right = false) (hh : t.halted = s.halted)
    (hc : t.clock = s.clock) (hu : settled t = settled u) : jumpsAs i a s u := by
  have h := commit_goesTo (op := i.op) hn hj hp hr hh hc
  exact ⟨commit i.op t, by rw [hi, run, runHalf, he], h.1, h.2.trans hu⟩

/-- An effect that completes in line and installs a modification. -/
theorem run_modifiesNext {i : Instr} {s t u : State} {v : Addr} {effect : State → Res Unit}
    (hi : exec i s = run i.op s effect) (he : effect (beginHalf s) = .ok () t) (hn : t.nextMod = some v)
    (hj : t.jumped = false) (hp : t.pc = s.pc) (hr : t.ruu.right = s.ruu.right) (hh : t.halted = s.halted)
    (hc : t.clock = s.clock) (hu : settled t = settled u) : modifiesNext i v s u := by
  have h := commit_modifies (op := i.op) hn hj hp hr hh hc
  have hv : settled { t with mod := v } = settled { u with mod := v } := by
    have : ∀ x : State, settled { x with mod := v } = { settled x with mod := v } := fun _ => rfl
    rw [this, this, hu]
  exact ⟨commit i.op t, by rw [hi, run, runHalf, he], h.1, h.2.1, h.2.2.trans hv⟩

/-- An effect that raises. -/
theorem run_raises {i : Instr} {s t : State} {f : Trap} {effect : State → Res Unit}
    (hi : exec i s = run i.op s effect) (he : effect (beginHalf s) = .raised f t) :
    exec i s = .next (recover f (revert f s t)) := by
  rw [hi, run, runHalf, he]

/-! ### Loads and the memory operand -/

@[simp] theorem loadEffect_eq (k : Key) (s : State) : loadEffect k s = s := by simp [loadEffect, Params.loadHitRefresh]

/-- A load either raises in the state it began in, or returns its word and changes nothing (R115). -/
theorem load_eq (a : Addr) (s : State) :
    load a s = match loadFault a s with
      | some f => .raised f s
      | none => .ok (loadWord a s) s := by
  unfold load
  split <;> simp [*]

/-- A memory operand: its word with the stack popped, or its fault in the popped state (R222, R270). -/
theorem operandX_eq (r : Idx) (addr : Addr) (s : State) :
    operandX r addr s = match loadFault (operandAddr r addr s) (popped r addr s) with
      | some f => .raised f (popped r addr s)
      | none => .ok (operandWord r addr s) (popped r addr s) := by
  rw [operandX, load_eq]; rfl

/-- The pop commutes with the start of the half, but for CORR. -/
theorem popped_beginHalf (r : Idx) (addr : Addr) (s : State) :
    popped r addr (beginHalf s) =
      { beginHalf (popped r addr s) with corr := if addressesStack r addr s then .plusOne else .zero } := by
  have h : addressesStack r addr (beginHalf s) = addressesStack r addr s := rfl
  unfold popped
  rw [h]
  split <;> rfl

@[simp] theorem operandAddr_beginHalf (r : Idx) (addr : Addr) (s : State) :
    operandAddr r addr (beginHalf s) = operandAddr r addr s := by
  rw [operandAddr, popped_beginHalf]; rfl

@[simp] theorem operandWord_beginHalf (r : Idx) (addr : Addr) (s : State) :
    operandWord r addr (beginHalf s) = operandWord r addr s := by
  rw [operandWord, operandAddr_beginHalf, popped_beginHalf]; rfl

theorem operandX_readable {r : Idx} {addr : Addr} {s : State} (h : operandReadable r addr s) :
    operandX r addr (beginHalf s) = .ok (operandWord r addr s) (popped r addr (beginHalf s)) := by
  rw [operandX_eq, operandWord_beginHalf, operandAddr_beginHalf]
  have : loadFault (operandAddr r addr s) (popped r addr (beginHalf s)) = none := by
    rw [popped_beginHalf, loadFault_corr, loadFault_beginHalf]; exact h
  rw [this]

theorem operandX_faulting {r : Idx} {addr : Addr} {s : State} {f : Trap}
    (h : loadFault (operandAddr r addr s) (popped r addr s) = some f) :
    operandX r addr (beginHalf s) = .raised f (popped r addr (beginHalf s)) := by
  rw [operandX_eq, operandAddr_beginHalf]
  have : loadFault (operandAddr r addr s) (popped r addr (beginHalf s)) = some f := by
    rw [popped_beginHalf, loadFault_corr, loadFault_beginHalf]; exact h
  rw [this]

/-! ### The revert of a faulting half -/

/-- The stack correction undoes the pop (R186, R272). -/
theorem sp_popped_corr (r : Idx) (addr : Addr) (s : State) :
    sp (popped r addr (beginHalf s)) + Corr.offset (popped r addr (beginHalf s)).corr = sp s := by
  have h : addressesStack r addr (beginHalf s) = addressesStack r addr s := rfl
  unfold popped
  rw [h]
  split
  · show sp (setSp (sp s - 1) (beginHalf s)) + 1 = sp s
    rw [sp_setSp, BitVec.sub_add_cancel]
  · show sp s + 0 = sp s
    simp

/-- A half whose only effect before its fault is the pop of its operand reverts to the state it began in. -/
theorem revert_popped {f : Trap} (hf : Cause.isArith f.cause = false) (r : Idx) (addr : Addr) (s : State) :
    revert f s (popped r addr (beginHalf s)) = s := by
  have h : setSp (sp (popped r addr (beginHalf s)) + Corr.offset (popped r addr (beginHalf s)).corr)
      { s with mem := (popped r addr (beginHalf s)).mem, wb := (popped r addr (beginHalf s)).wb,
               pf := (popped r addr (beginHalf s)).pf, draws := (popped r addr (beginHalf s)).draws } = s := by
    rw [sp_popped_corr]
    simp
  simp only [revert, hf, h]
  rfl

/-- A load raises none of the arithmetic causes (R115). -/
theorem loadFault_not_arith {a : Addr} {s : State} {f : Trap} (h : loadFault a s = some f) :
    Cause.isArith f.cause = false := by
  have hp : ∀ g, protFault a s = some g → g.cause = .operandProt := by
    intro g hg; unfold protFault at hg; split_ifs at hg; split at hg
    · split_ifs at hg; cases hg; rfl
    · cases hg
  have hw : ∀ k g, watchFault k s = some g → g.cause = .watchpoint := by
    intro k g hg; unfold watchFault at hg; split_ifs at hg; cases hg; rfl
  have ht : ∀ c n, (if Params.acceptedLoadTag c then none else some (⟨.ramCheck, some n⟩ : Trap)) = some f →
      Cause.isArith f.cause = false := by
    intro c n hg; split at hg <;> cases hg; rfl
  unfold loadFault at h
  split at h
  · cases h
  · split at h
    · next g hg => cases h; rw [hp _ hg]; rfl
    · split at h
      · next g hg =>
        cases h; rw [Params.loadWatch, if_pos rfl] at hg; rw [hw _ _ hg]; rfl
      · exact ht _ _ h

end Sys2Proof.Machine
end

