-- ==== Sys2Proof/Laws/Ops.lean ====
section
/-!
SUPPORT. The shared operations of the meanings, one lemma each that says once everything the operation can do: a memory
operand, a store, a write of the register file, an arithmetic result, a privileged half, the literal fields.
-/

namespace Sys2Proof.Machine

/-- The state a part of a half has reached, whether it went through or raised. -/
def Res.state {α : Type} : Res α → State
  | .ok _ s => s
  | .raised _ s => s

/-- A property of states that both parts keep holds of the state two parts reach. -/
theorem bind_state {α β : Type} (P : State → Prop) (x : Res α) (f : α → State → Res β) (hx : P (Res.state x))
    (hf : ∀ a t, P t → P (Res.state (f a t))) : P (Res.state (x.bind f)) := by
  cases x with
  | ok a t => exact hf a t hx
  | raised f t => exact hx

/-- A load reaches the state it began in (R115). -/
theorem load_state (a : Addr) (s : State) : Res.state (load a s) = s := by
  rw [load_eq]; split <;> rfl

/-! ### Memory operands -/

/-- A readable operand: its word, and the state with the stack popped (R222, R270). -/
theorem operandX_popped {r : Idx} {addr : Addr} {s : State} (h : operandReadable r addr s) :
    operandX r addr (beginHalf s) = .ok (operandWord r addr s)
      { beginHalf (popped r addr s) with corr := if addressesStack r addr s then .plusOne else .zero } := by
  rw [operandX_readable h, popped_beginHalf]

/-- An unreadable operand: the fault raised, and the half undone (R186, R272). -/
theorem runX_faults {i : Instr} {r : Idx} {addr : Addr} {s : State} {f : Trap} {g : Word → State → Res Unit}
    (hi : exec i s = run i.op s fun t => (operandX r addr t).bind g)
    (h : loadFault (operandAddr r addr s) (popped r addr s) = some f) : exec i s = .next (recover f s) := by
  have he : (operandX r addr (beginHalf s)).bind g = .raised f (popped r addr (beginHalf s)) := by
    rw [operandX_faulting h]; rfl
  rw [run_raises hi he, revert_popped (loadFault_not_arith h)]

/-- An arithmetic fault after the operand is read: the pop undone, free values in ACC and RMR (R186). -/
theorem revert_arith {f : Trap} (hf : Cause.isArith f.cause = true) (r : Idx) (addr : Addr) (s : State) :
    revert f s { beginHalf (popped r addr s) with corr := if addressesStack r addr s then .plusOne else .zero } =
      arithFaulted s := by
  have h : setSp (sp s)
      { s with
        mem := (popped r addr s).mem, wb := (popped r addr s).wb, pf := (popped r addr s).pf
        draws := (popped r addr s).draws } = s := by simp
  have h2 := sp_popped_corr r addr s
  rw [popped_beginHalf] at h2
  simp only [revert, hf, if_true]
  rw [h2]
  show arithFaulted (setSp (sp s)
      { s with
        mem := (popped r addr s).mem, wb := (popped r addr s).wb, pf := (popped r addr s).pf
        draws := (popped r addr s).draws }) = _
  rw [h]

/-- `expo(X)` as a number (R224). -/
theorem expo_eq (x : Word) : expo x = ((x.toNat / 2 ^ 41 % 128 : Nat) - 64) := by
  simp [expo, BitVec.extractLsb'_toNat, Nat.shiftRight_eq_div_pow]

/-- `lit7(EA)` as a number (R224). -/
theorem lit7_eq (x : Addr) : lit7 x = ((x.toNat % 128 : Nat) - 64) := by
  simp [lit7, BitVec.extractLsb'_toNat]

/-- The end-around sum as numbers (R246). -/
theorem endAroundAdd_toNat (a b : Word) :
    (endAroundAdd a b).toNat = ((a.toNat + b.toNat) % 2 ^ 48 + (a.toNat + b.toNat) / 2 ^ 48) % 2 ^ 48 := by
  have ha := a.isLt
  have hb := b.isLt
  have hs : (a.setWidth 49 + b.setWidth 49).toNat = a.toNat + b.toNat := by simp; omega
  have hbit : (a.setWidth 49 + b.setWidth 49).getLsbD 48 = decide (2 ^ 48 ≤ a.toNat + b.toNat) := by
    rw [BitVec.getLsbD, hs, Nat.testBit_eq_decide_div_mod_eq]
    congr 1
    simp only [eq_iff_iff]; omega
  simp only [endAroundAdd]
  rw [hbit, BitVec.toNat_add, BitVec.toNat_setWidth, hs]
  by_cases h : 2 ^ 48 ≤ a.toNat + b.toNat
  · simp only [h, decide_true, if_true]
    have : (a.toNat + b.toNat) / 2 ^ 48 = 1 := by omega
    rw [this]; rfl
  · have : (a.toNat + b.toNat) / 2 ^ 48 = 0 := by omega
    rw [this]; simp only [h, decide_false]; simp

/-! ### The register file -/

theorem writeM_beginHalf (j : BitVec 5) (v : Key) (s : State) :
    writeM j v (beginHalf s) = beginHalf (writeM j v s) := by
  unfold writeM; split <;> first | rfl | (simp only [setIdx]; split <;> rfl)

/-- A write of the register file leaves the sequencing fields, RAU and RUU (R33). -/
theorem writeM_keeps (j : BitVec 5) (v : Key) (s : State) :
    (writeM j v s).nextMod = s.nextMod ∧ (writeM j v s).jumped = s.jumped ∧ (writeM j v s).pc = s.pc ∧
      (writeM j v s).ruu = s.ruu ∧ (writeM j v s).halted = s.halted ∧ (writeM j v s).clock = s.clock ∧
      (writeM j v s).rau = s.rau := by
  unfold writeM
  split <;> first
    | exact ⟨rfl, rfl, rfl, rfl, rfl, rfl, rfl⟩
    | (simp only [setIdx]; split <;> exact ⟨rfl, rfl, rfl, rfl, rfl, rfl, rfl⟩)

/-- A half whose whole effect is one write of the register file. -/
theorem run_writeM {i : Instr} {s : State} {j : BitVec 5} {v : Key}
    (hi : exec i s = runPure i.op s fun t => writeM j v t) : completesAs i s (writeM j v s) := by
  obtain ⟨h1, h2, h3, h4, h5, h6, -⟩ := writeM_keeps j v (beginHalf s)
  exact run_completesAs hi (t := writeM j v (beginHalf s)) rfl h1 h2 h3 (by rw [h4]; rfl) h5 h6
    (by rw [writeM_beginHalf]; rfl)

/-! ### Stores -/

/-- At the default of `WB_ENABLED` no store is refused (R114). -/
theorem storeRefused_eq (a : Addr) (s : State) : storeRefused a s = false := by
  simp [storeRefused, Params.wbEnabled]

theorem runStoring_eq (op : Op) (a : Addr) (s : State) (effect : State → Res Unit) :
    runStoring op a s effect = run op s effect := by
  rw [runStoring, storeRefused_eq]; rfl

/-- A store either raises and changes nothing, or stores (R110). -/
theorem store_eq (a : Addr) (w : Word) (s : State) :
    store a w s = match storeFault a s with
      | some f => .raised f s
      | none => .ok () (stored a w s) := by
  unfold store stored
  by_cases h : a = 0
  · have : storeFault a s = none := by simp [storeFault, h]
    rw [this]; simp [h]
  · rw [if_neg h]
    cases storeFault a s with
    | none => exact congrArg (Res.ok ()) (if_neg h).symm
    | some f => exact rfl

theorem storeAt_beginHalf (k : Key) (w : Word) (s : State) :
    storeAt k w (beginHalf s) = beginHalf (storeAt k w s) := by
  have hw : (beginHalf s).wb = s.wb := rfl
  cases h : wbFind k s with
  | some i =>
    have h' : wbFind k (beginHalf s) = some i := h
    rw [storeAt_hit h, storeAt_hit h']
    simp only [storeHit]
    rw [hw]; split <;> rfl
  | none =>
    have h' : wbFind k (beginHalf s) = none := h
    rw [storeAt_miss h, storeAt_miss h']
    simp only [storeMiss, writeBack]
    rw [hw]; split <;> rfl

theorem stored_beginHalf (a : Addr) (w : Word) (s : State) :
    stored a w (beginHalf s) = beginHalf (stored a w s) := by
  unfold stored; split
  · rfl
  · exact storeAt_beginHalf _ _ _

/-- A store changes the buffer and memory alone (R110). -/
theorem stored_frame (a : Addr) (w : Word) (s : State) : { stored a w s with wb := s.wb, mem := s.mem } = s := by
  unfold stored; split
  · rfl
  · exact storeAt_frame _ _ _

/-! ### Privileged halves -/

/-- In supervisor mode a privileged half runs its effect (R191). -/
theorem runPrivileged_supervisor {op : Op} {s : State} (h : supervisor s = true) (effect : State → Res Unit) :
    runPrivileged op s effect = run op s effect := by
  have : supervisor (beginHalf s) = true := h
  simp [runPrivileged, run, runHalf, this]

/-- Outside it the half raises PRIVILEGE and leaves nothing else (R191). -/
theorem runPrivileged_user {op : Op} {s : State} (h : supervisor s = false) (effect : State → Res Unit) :
    runPrivileged op s effect = .next (recover ⟨.privilege, none⟩ s) := by
  have hs : supervisor (beginHalf s) = false := h
  have hr : revert ⟨.privilege, none⟩ s (beginHalf s) = s := revert_popped (f := ⟨.privilege, none⟩) rfl 0 0 s
  simp only [runPrivileged, run, runHalf, hs]
  exact congrArg (fun t => Host.Outcome.next (recover ⟨.privilege, none⟩ t)) hr

end Sys2Proof.Machine
end

