-- ==== Sys2Proof/Laws/Frame.lean ====
section
/-!
SUPPORT. What no half changes: the setup, the tape, and the entries a channel holds already.
-/

namespace Sys2Proof.Machine

/-- `t` has the setup and the tape of `s`, and its channels continue those of `s`. -/
structure Keeps (s t : State) : Prop where
  setup : t.setup = s.setup
  inputs : t.inputs = s.inputs
  chan : ∃ c, t.chan = s.chan ++ c

theorem Keeps.refl (s : State) : Keeps s s := ⟨rfl, rfl, [], (List.append_nil _).symm⟩

/-- An update that writes none of the three fields. -/
theorem Keeps.congr {s t u : State} (h : Keeps s t) (hs : u.setup = t.setup) (hi : u.inputs = t.inputs)
    (hc : u.chan = t.chan) : Keeps s u :=
  ⟨hs.trans h.setup, hi.trans h.inputs, h.chan.imp fun _ e => hc.trans e⟩

theorem Keeps.trans {s t u : State} (h : Keeps s t) (k : Keeps t u) : Keeps s u := by
  obtain ⟨c, hc⟩ := h.chan
  obtain ⟨d, hd⟩ := k.chan
  exact ⟨k.setup.trans h.setup, k.inputs.trans h.inputs, c ++ d, by rw [hd, hc, List.append_assoc]⟩

/-! ### Registers, memory and caches -/

theorem keeps_setIdx (r : Idx) (v : Addr) (s : State) : Keeps s (setIdx r v s) :=
  (Keeps.refl s).congr (setIdx_setup ..) (setIdx_inputs ..) (setIdx_chan ..)

theorem keeps_writeM (j : BitVec 5) (v : Key) (s : State) : Keeps s (writeM j v s) := by
  unfold writeM
  split <;> first | exact (Keeps.refl s).congr rfl rfl rfl | exact keeps_setIdx _ _ s

theorem keeps_popped (r : Idx) (a : Addr) (s : State) : Keeps s (popped r a s) :=
  (Keeps.refl s).congr (popped_setup ..) (popped_inputs ..) (popped_chan ..)

theorem keeps_operandX (r : Idx) (a : Addr) (s : State) : Keeps s (Res.state (operandX r a s)) := by
  unfold operandX; rw [load_state]; exact keeps_popped r a s

/-- An update of memory and the write buffer alone. -/
theorem keeps_of_frame {s t : State} (h : { t with wb := s.wb, mem := s.mem } = s) : Keeps s t := by
  have hs := congrArg State.setup h
  have hi := congrArg State.inputs h
  have hc := congrArg State.chan h
  exact (Keeps.refl s).congr hs hi hc

theorem keeps_store (a : Addr) (w : Word) (s : State) : Keeps s (Res.state (store a w s)) := by
  rw [store_eq]; split
  · exact Keeps.refl s
  · exact keeps_of_frame (stored_frame a w s)

theorem keeps_flushLine (i : Fin 8) (s : State) : Keeps s (flushLine i s) := keeps_of_frame (flushLine_frame i s)

theorem keeps_flushAll (s : State) : Keeps s (flushAll s) := by
  have : ∀ (L : List (Fin 8)) (t : State), Keeps s t → Keeps s (L.foldl (fun t i => flushLine i t) t) := by
    intro L
    induction L with
    | nil => exact fun _ h => h
    | cons i L ih => exact fun t h => ih _ (h.trans (keeps_flushLine i t))
  exact this _ _ (Keeps.refl s)

theorem keeps_fetchCommit (k : Key) (s : State) : Keeps s (fetchCommit k s) := by
  unfold fetchCommit; split
  · split <;> exact (Keeps.refl s).congr rfl rfl rfl
  · exact (Keeps.refl s).congr rfl rfl rfl

/-! ### The engine -/

theorem keeps_commit (op : Op) (t : State) : Keeps t (commit op t) := by
  have h := commit_frame op t
  have hs := congrArg State.setup h
  have hi := congrArg State.inputs h
  have hc := congrArg State.chan h
  exact (Keeps.refl t).congr hs hi hc

theorem keeps_recover (f : Trap) (t : State) : Keeps t (recover f t) := by
  unfold recover; split
  · exact (Keeps.refl t).congr rfl rfl rfl
  · split <;> exact (Keeps.refl t).congr rfl rfl rfl

theorem keeps_revert (f : Trap) (s t : State) : Keeps s (revert f s t) := by
  unfold revert; dsimp only
  split <;> exact (Keeps.refl s).congr rfl rfl rfl

/-- A half keeps them when its effect does, raised or not. -/
theorem keeps_runHalf {op : Op} {s : State} {e : State → Res Unit}
    (he : Keeps s (Res.state (e (beginHalf s)))) : Keeps s (runHalf op s e) := by
  unfold runHalf
  cases hr : e (beginHalf s) with
  | ok a t => rw [hr] at he; exact he.trans (keeps_commit op t)
  | raised f t => exact (keeps_revert f s t).trans (keeps_recover f _)

end Sys2Proof.Machine
end

