-- ==== Sys2Proof/Laws/Invariant.lean ====
section
/-!
SUPPORT. Every shared operation keeps the invariant of Safety.lean.
-/

namespace Sys2Proof.Machine

/-- The size of memory depends on the setup alone (R7). -/
theorem memWords_congr {s t : State} (h : t.setup = s.setup) : memWords t = memWords s := by
  simp only [memWords, physPages, h]

/-- The invariant looks at the setup, the caches, memory and the mailboxes alone. -/
theorem inv_congr {s t : State} (h : Inv s) (hs : t.setup = s.setup) (hw : t.wb = s.wb) (hp : t.pf = s.pf)
    (hm : t.mem = s.mem) (hb : t.mbox = s.mbox) : Inv t where
  wbGood := by rw [memWords_congr hs, hw]; exact h.wbGood
  pfGood := by rw [hp]; exact h.pfGood
  memWf := by rw [hm]; exact h.memWf
  memInside := by rw [memWords_congr hs, hm]; exact h.memInside
  mboxWf := by rw [hb]; exact h.mboxWf

/-! ### The engine -/

theorem inv_commit {op : Op} {t : State} (h : Inv t) : Inv (commit op t) := by
  have hf := commit_frame op t
  refine inv_congr h ?_ ?_ ?_ ?_ ?_
  · have := congrArg State.setup hf; exact this
  · have := congrArg State.wb hf; exact this
  · have := congrArg State.pf hf; exact this
  · have := congrArg State.mem hf; exact this
  · have := congrArg State.mbox hf; exact this

theorem inv_recover {f : Trap} {t : State} (h : Inv t) : Inv (recover f t) := by
  unfold recover; split
  · exact inv_congr h rfl rfl rfl rfl rfl
  · split <;> exact inv_congr h rfl rfl rfl rfl rfl

theorem inv_revert {f : Trap} {s t : State} (h : Inv s) (ht : Inv t) (hk : t.setup = s.setup) : Inv (revert f s t) := by
  obtain ⟨h1, h2, h3, h4, -⟩ := ht
  rw [memWords, physPages, hk] at h1 h4
  have : Inv (setSp (sp t + Corr.offset t.corr) { s with mem := t.mem, wb := t.wb, pf := t.pf, draws := t.draws }) :=
    ⟨by simpa [memWords, physPages] using h1, by simpa using h2, by simpa using h3,
      by simpa [memWords, physPages] using h4, by simpa using h.mboxWf⟩
  unfold revert; dsimp only; split
  · exact inv_congr this rfl rfl rfl rfl rfl
  · exact this

/-- A half keeps the invariant when its effect does and leaves the setup, raised or not. -/
theorem inv_runHalf {op : Op} {s : State} {e : State → Res Unit} (h : Inv s)
    (he : Inv (Res.state (e (beginHalf s)))) (hk : Keeps s (Res.state (e (beginHalf s)))) : Inv (runHalf op s e) := by
  unfold runHalf
  cases hr : e (beginHalf s) with
  | ok a t => rw [hr] at he; exact inv_commit he
  | raised f t => rw [hr] at he; rw [hr] at hk; exact inv_recover (inv_revert h he hk.setup)

/-! ### Registers and operands -/

theorem inv_setIdx {r : Idx} {v : Addr} {s : State} (h : Inv s) : Inv (setIdx r v s) := by
  unfold setIdx; split
  · exact h
  · exact inv_congr h rfl rfl rfl rfl rfl

theorem inv_writeM {j : BitVec 5} {v : Key} {s : State} (h : Inv s) : Inv (writeM j v s) := by
  unfold writeM; split <;> first | exact inv_congr h rfl rfl rfl rfl rfl | exact inv_setIdx h

theorem inv_popped {r : Idx} {a : Addr} {s : State} (h : Inv s) : Inv (popped r a s) := by
  unfold popped; split
  · exact inv_congr (inv_setIdx (r := spIdx) (v := sp s - 1) h) rfl rfl rfl rfl rfl
  · exact h

theorem inv_operandX {r : Idx} {a : Addr} {s : State} (h : Inv s) : Inv (Res.state (operandX r a s)) := by
  unfold operandX; rw [load_state]; exact inv_popped h

/-! ### Memory and the caches -/

theorem page_offset_lt {n a b : Nat} (ha : a < n) (hb : b < 2 ^ 10) : a <<< 10 ||| b < n * 1024 := by
  rw [← Nat.shiftLeft_add_eq_or_of_lt hb, Nat.shiftLeft_eq]; omega

/-- The mask of a page number is `PHYS_PAGES - 1` (R91). -/
theorem pageMask_toNat (s : State) : (pageMask s).toNat = 2 ^ s.setup.pagesLog.val - 1 := by
  have h : 2 ^ s.setup.pagesLog.val ≤ 2 ^ 11 := Nat.pow_le_pow_right (by decide) (by omega)
  rw [pageMask, physPages, BitVec.toNat_ofNat, Nat.mod_eq_of_lt (by omega)]

/-- An entry is the packed page number modulo `PHYS_PAGES` (R91). -/
theorem tlbEntry_toNat (rp : Vector Word 8) (p : BitVec 5) (s : State) :
    (tlbEntry rp p s).toNat =
      (pageEntry (rp[p.toNat / 4]'(by have := p.isLt; omega)) (p.toNat % 4)).toNat % physPages s := by
  rw [tlbEntry, BitVec.toNat_and, pageMask_toNat, Nat.and_two_pow_sub_one_eq_mod, physPages]

theorem tlbEntry_lt (rp : Vector Word 8) (p : BitVec 5) (s : State) : (tlbEntry rp p s).toNat < physPages s := by
  rw [tlbEntry_toNat]; exact Nat.mod_lt _ (Nat.pow_pos (by decide))

/-- Every translated address lies inside memory (R91). -/
theorem translate_lt (k : Key) (s : State) : (translate k s).toNat < memWords s := by
  rw [memWords, translate, BitVec.toNat_append]
  exact page_offset_lt (tlbEntry_lt _ _ s) (k.extractLsb' 0 10).isLt

theorem inv_memWrite {p : Phys} {c : MemCell} {s : State} (h : Inv s) (hp : p.toNat < memWords s) :
    Inv (memWrite p c s) := by
  refine ⟨h.wbGood, h.pfGood, sparseSet_wf _ h.memWf _ _, fun d hd => ?_, h.mboxWf⟩
  rcases mem_sparseSet _ hd with ⟨rfl, -⟩ | hd
  · exact hp
  · exact h.memInside d hd

theorem inv_setMailbox {n : Nat} {b : Mailbox} {s : State} (h : Inv s) : Inv (setMailbox n b s) :=
  ⟨h.wbGood, h.pfGood, h.memWf, h.memInside, setMailbox_wf h.mboxWf n b⟩

theorem inv_writeBack {i : Fin 8} {s : State} (h : Inv s) : Inv (writeBack i s) := by
  unfold writeBack; dsimp only; split
  · next hv => exact inv_memWrite h (h.wbGood.inside i hv)
  · exact h

/-- A buffer line may be replaced by one that points inside memory and shares no key. -/
theorem inv_setWbLine {i : Fin 8} {l : WbLine} {s : State} (h : Inv s)
    (hl : l.valid = true → l.phys.toNat < memWords s ∧
      ∀ j : Fin 8, j ≠ i → s.wb.lines[j.val].valid = true → s.wb.lines[j.val].key ≠ l.key) :
    Inv (setWbLine i l s) := by
  refine ⟨⟨h.wbGood.total, h.wbGood.oldest, ?_, ?_⟩, h.pfGood, h.memWf, h.memInside, h.mboxWf⟩
  · intro a b
    rw [setWbLine_get, setWbLine_get]
    by_cases ha : a = i <;> by_cases hb : b = i <;> simp only [ha, hb, if_true, if_false]
    · intros; trivial
    · intro h1 h2 h3; exact absurd h3.symm ((hl h1).2 b hb h2)
    · intro h1 h2 h3; exact absurd h3 ((hl h2).2 a ha h1)
    · exact h.wbGood.unique a b
  · intro a
    rw [setWbLine_get]
    by_cases ha : a = i <;> simp only [ha, if_true, if_false]
    · intro h1; exact (hl h1).1
    · exact h.wbGood.inside a

/-- A buffer line may get another word and tag. -/
theorem inv_setWbWord {i : Fin 8} {w : Word} {t : Tag} {s : State} (h : Inv s) :
    Inv (setWbLine i { s.wb.lines[i.val] with word := w, tag := t } s) :=
  inv_setWbLine h fun hv =>
    ⟨h.wbGood.inside i hv, fun j hj hvj hkj => hj (h.wbGood.unique j i hvj hv hkj)⟩

theorem inv_touchWb {i : Fin 8} {s : State} (h : Inv s) : Inv (touchWb i s) := by
  obtain ⟨h1, h2⟩ := wbTouch_total h.wbGood.total i
  exact ⟨⟨h1, h2, h.wbGood.unique, h.wbGood.inside⟩, h.pfGood, h.memWf, h.memInside, h.mboxWf⟩

theorem inv_touchPf {i : Fin 4} {s : State} (h : Inv s) : Inv (touchPf i s) := by
  obtain ⟨h1, h2⟩ := pfTouch_total h.pfGood.total i
  exact ⟨h.wbGood, ⟨h1, h2, h.pfGood.unique⟩, h.memWf, h.memInside, h.mboxWf⟩

theorem inv_storeAt {k : Key} {w : Word} {s : State} (h : Inv s) : Inv (storeAt k w s) := by
  cases hf : wbFind k s with
  | some i =>
    rw [storeAt_hit hf]; simp only [storeHit]
    split
    · exact inv_setWbWord h
    · exact inv_touchWb (inv_setWbWord h)
  | none =>
    rw [storeAt_miss hf]; simp only [storeMiss]
    refine inv_touchWb (inv_setWbLine (inv_writeBack h) fun _ => ⟨?_, fun j _ hvj hkj => ?_⟩)
    · rw [memWords_congr (writeBack_setup ..)]; exact translate_lt k s
    simp only [writeBack_wb] at hvj hkj
    exact wbFind_none.1 hf j ⟨hvj, hkj⟩

theorem inv_store {a : Addr} {w : Word} {s : State} (h : Inv s) : Inv (Res.state (store a w s)) := by
  unfold store; split
  · exact h
  · split
    · exact h
    · exact inv_storeAt h

theorem inv_flushLine {i : Fin 8} {s : State} (h : Inv s) : Inv (flushLine i s) :=
  inv_setWbLine (inv_writeBack h) fun hv => absurd hv (by simp)

theorem inv_flushAll {s : State} (h : Inv s) : Inv (flushAll s) := by
  have : ∀ (L : List (Fin 8)) (s : State), Inv s → Inv (L.foldl (fun t i => flushLine i t) s) := by
    intro L
    induction L with
    | nil => exact fun _ h => h
    | cons i L ih => exact fun s h => ih _ (inv_flushLine h)
  exact this _ _ h

theorem inv_fetchCommit {k : Key} {s : State} (h : Inv s) : Inv (fetchCommit k s) := by
  unfold fetchCommit; split
  · split
    · exact h
    · exact inv_touchPf h
  · next hf =>
    refine inv_touchPf ⟨h.wbGood, ⟨h.pfGood.total, h.pfGood.oldest, ?_⟩, h.memWf, h.memInside, h.mboxWf⟩
    intro a b
    rw [setPfLine_get, setPfLine_get]
    by_cases ha : a = s.pf.oldest <;> by_cases hb : b = s.pf.oldest <;> simp only [ha, hb, if_true, if_false]
    · intros; trivial
    · intro h1 h2 h3; exact absurd ⟨h2, h3.symm⟩ (pfFind_none.1 hf b)
    · intro h1 h2 h3; exact absurd ⟨h1, h3⟩ (pfFind_none.1 hf a)
    · exact h.pfGood.unique a b

end Sys2Proof.Machine
end

