-- ==== Sys2Proof/Laws/PerInstr.lean ====
section
/-!
SUPPORT. The family `EncodingMatchesRow` of LAWS.json: the encoding of every instruction has the bits of its row
(30_encoding.md R151, R157..R159), its index field, and, when it is well formed, its address.
-/

namespace Sys2Proof.Laws.EncodingMatchesRow

-- The many small theorems are elaborated one after another, so that the file needs few threads.
set_option Elab.async false

/-- The encoding of an instruction selects its own row and holds its index field, in the row's format. -/
def Statement (i : Instr) : Prop :=
  i.op.selectedBy (encode i) = true ∧ idxField (encode i) = i.r ∧ formatBit (encode i) = i.op.isLong ∧
    (i.wf = true → (if i.op.isLong then longAddr (encode i) else shortAddr (encode i)) = i.addr)

/-- A short address repeats its bit 12 above. -/
theorem shortAddressOk_bits {a : Addr} (h : shortAddressOk a = true) :
    a.getLsbD 13 = a.getLsbD 12 ∧ a.getLsbD 14 = a.getLsbD 12 := by
  have hb : ∀ n : Nat, n < 3 → (a.extractLsb' 12 3).getLsbD n = a.getLsbD (12 + n) := by
    intro n hn; simp [hn]
  have h0 := hb 0 (by omega)
  have h1 := hb 1 (by omega)
  have h2 := hb 2 (by omega)
  simp only [shortAddressOk, Bool.or_eq_true, beq_iff_eq] at h
  rcases h with h | h <;> rw [h] at h0 h1 h2 <;> exact ⟨h1.symm.trans h0, h2.symm.trans h0⟩
/-- Every bit of a short-form half (R153). -/
theorem encodeShort_bit (r : Idx) (S : BitVec 6) (a : Addr) (i : Nat) :
    (encodeShort r S a).getLsbD i =
      if i < 12 then a.getLsbD i else if i < 18 then S.getLsbD (i - 12) else if i = 18 then a.getLsbD 12
      else if i = 19 then false else r.getLsbD (i - 20) := by
  unfold encodeShort
  rw [BitVec.getLsbD_append]
  split
  · next h => simp [h]
  · rw [BitVec.getLsbD_append]
    split
    · next h1 h2 => rw [if_pos (by omega)]
    · rw [BitVec.getLsbD_append]
      split
      · next h1 h2 h3 =>
        have : i = 18 := by omega
        subst this; simp
      · rw [BitVec.getLsbD_append]
        split
        · next h1 h2 h3 h4 =>
          have : i = 19 := by omega
          subst this; simp
        · next h1 h2 h3 h4 =>
          rw [if_neg (by omega), if_neg (by omega), if_neg (by omega)]
          congr 1

/-- Every bit of a long-form half (R152). -/
theorem encodeLong_bit (r : Idx) (L : BitVec 4) (a : Addr) (i : Nat) :
    (encodeLong r L a).getLsbD i =
      if i < 15 then a.getLsbD i else if i < 19 then L.getLsbD (i - 15) else if i = 19 then true
      else r.getLsbD (i - 20) := by
  unfold encodeLong
  rw [BitVec.getLsbD_append]
  split
  · rfl
  · rw [BitVec.getLsbD_append]
    split
    · next h1 h2 => rw [if_pos (by omega)]
    · rw [BitVec.getLsbD_append]
      split
      · next h1 h2 h3 =>
        have : i = 19 := by omega
        subst this; simp
      · next h1 h2 h3 =>
        rw [if_neg (by omega), if_neg (by omega)]
        congr 1

/-- The selecting bits and the fields of a short-form half (R153, R159). -/
theorem short_bits (r : Idx) (S : BitVec 6) (a : Addr) :
    encodeShort r S a &&& 0x0BF000#24 = S.setWidth 24 <<< 12 ∧ idxField (encodeShort r S a) = r ∧
      formatBit (encodeShort r S a) = false ∧ (shortAddressOk a = true → shortAddr (encodeShort r S a) = a) := by
  refine ⟨?_, ?_, ?_, fun h => ?_⟩
  · apply BitVec.eq_of_getLsbD_eq
    intro i hi
    rw [BitVec.getLsbD_and, encodeShort_bit, BitVec.getLsbD_shiftLeft, BitVec.getLsbD_setWidth]
    interval_cases i <;> simp
  · apply BitVec.eq_of_getLsbD_eq
    intro i hi
    rw [idxField, BitVec.getLsbD_extractLsb', encodeShort_bit]
    interval_cases i <;> simp
  · rw [formatBit, encodeShort_bit]; rfl
  · obtain ⟨h1, h2⟩ := shortAddressOk_bits h
    have he : (encodeShort r S a).getLsbD 18 = a.getLsbD 12 := by
      rw [encodeShort_bit]; rfl
    have hl : ∀ i < 12, (encodeShort r S a).getLsbD i = a.getLsbD i := by
      intro i hi
      rw [encodeShort_bit, if_pos hi]
    apply BitVec.eq_of_getLsbD_eq
    intro i hi
    simp only [shortAddr, he]
    rcases Nat.lt_or_ge i 12 with hlt | hge
    · have h7 : (0o70000#15).getLsbD i = false := by interval_cases i <;> rfl
      have hx : (((encodeShort r S a).extractLsb' 0 12).setWidth 15).getLsbD i = a.getLsbD i := by
        rw [BitVec.getLsbD_setWidth, BitVec.getLsbD_extractLsb']
        simp [hi, hlt, hl i hlt]
      split
      · rw [BitVec.getLsbD_or, h7, hx, Bool.false_or]
      · exact hx
    · have hx : (((encodeShort r S a).extractLsb' 0 12).setWidth 15).getLsbD i = false := by
        rw [BitVec.getLsbD_setWidth, BitVec.getLsbD_extractLsb']
        simp [Nat.not_lt.2 hge]
      have h7 : (0o70000#15).getLsbD i = true := by interval_cases i <;> rfl
      have ha : a.getLsbD i = a.getLsbD 12 := by
        interval_cases i
        · rfl
        · exact h1
        · exact h2
      split
      · next hh => rw [BitVec.getLsbD_or, h7, ha, hh]; rfl
      · next hh => rw [hx, ha]; simpa using hh
/-- The selecting bits and the fields of a long-form half (R152, R159). -/
theorem long_bits (r : Idx) (L : BitVec 4) (a : Addr) :
    encodeLong r L a &&& 0x0F8000#24 = 0x080000#24 ||| (L.setWidth 24 <<< 15) ∧ idxField (encodeLong r L a) = r ∧
      formatBit (encodeLong r L a) = true ∧ longAddr (encodeLong r L a) = a := by
  refine ⟨?_, ?_, ?_, ?_⟩
  · apply BitVec.eq_of_getLsbD_eq
    intro i hi
    rw [BitVec.getLsbD_and, encodeLong_bit, BitVec.getLsbD_or, BitVec.getLsbD_shiftLeft, BitVec.getLsbD_setWidth]
    interval_cases i <;> simp
  · apply BitVec.eq_of_getLsbD_eq
    intro i hi
    rw [idxField, BitVec.getLsbD_extractLsb', encodeLong_bit]
    interval_cases i <;> simp
  · rw [formatBit, encodeLong_bit]; rfl
  · apply BitVec.eq_of_getLsbD_eq
    intro i hi
    rw [longAddr, BitVec.getLsbD_extractLsb', encodeLong_bit, Nat.zero_add, if_pos hi]
    simp [hi]

/-- A row of the short form. -/
theorem of_short {i : Instr} {S : BitVec 6} (ho : i.op.opcode = .short S) (hl : i.op.isLong = false) :
    Statement i := by
  obtain ⟨h1, h2, h3, h4⟩ := short_bits i.r S i.addr
  have he : encode i = encodeShort i.r S i.addr := by rw [encode, ho]
  refine ⟨?_, by rw [he, h2], by rw [he, h3, hl], fun hw => ?_⟩
  · rw [Op.selectedBy, ho, he]; exact beq_iff_eq.2 h1
  · rw [hl, he]
    exact h4 (by simpa [Instr.wf, hl] using hw)

/-- A row of the long form. -/
theorem of_long {i : Instr} {L : BitVec 4} (ho : i.op.opcode = .long L) (hl : i.op.isLong = true) :
    Statement i := by
  obtain ⟨h1, h2, h3, h4⟩ := long_bits i.r L i.addr
  have he : encode i = encodeLong i.r L i.addr := by rw [encode, ho]
  refine ⟨?_, by rw [he, h2], by rw [he, h3, hl], fun _ => ?_⟩
  · rw [Op.selectedBy, ho, he]; exact beq_iff_eq.2 h1
  · rw [hl, he]; exact h4

theorem atx (r : Idx) (addr : Addr) : Statement (.atx r addr) := of_short rfl rfl
theorem stx (r : Idx) (addr : Addr) : Statement (.stx r addr) := of_short rfl rfl
theorem mod (r : Idx) (addr : Addr) : Statement (.mod r addr) := of_short rfl rfl
theorem xts (r : Idx) (addr : Addr) : Statement (.xts r addr) := of_short rfl rfl
theorem addX (r : Idx) (addr : Addr) : Statement (.addX r addr) := of_short rfl rfl
theorem subX (r : Idx) (addr : Addr) : Statement (.subX r addr) := of_short rfl rfl
theorem rsubX (r : Idx) (addr : Addr) : Statement (.rsubX r addr) := of_short rfl rfl
theorem amx (r : Idx) (addr : Addr) : Statement (.amx r addr) := of_short rfl rfl
theorem xta (r : Idx) (addr : Addr) : Statement (.xta r addr) := of_short rfl rfl
theorem aax (r : Idx) (addr : Addr) : Statement (.aax r addr) := of_short rfl rfl
theorem aex (r : Idx) (addr : Addr) : Statement (.aex r addr) := of_short rfl rfl
theorem arx (r : Idx) (addr : Addr) : Statement (.arx r addr) := of_short rfl rfl
theorem avx (r : Idx) (addr : Addr) : Statement (.avx r addr) := of_short rfl rfl
theorem aox (r : Idx) (addr : Addr) : Statement (.aox r addr) := of_short rfl rfl
theorem divX (r : Idx) (addr : Addr) : Statement (.divX r addr) := of_short rfl rfl
theorem mulX (r : Idx) (addr : Addr) : Statement (.mulX r addr) := of_short rfl rfl
theorem apx (r : Idx) (addr : Addr) : Statement (.apx r addr) := of_short rfl rfl
theorem aux (r : Idx) (addr : Addr) : Statement (.aux r addr) := of_short rfl rfl
theorem acx (r : Idx) (addr : Addr) : Statement (.acx r addr) := of_short rfl rfl
theorem anx (r : Idx) (addr : Addr) : Statement (.anx r addr) := of_short rfl rfl
theorem eaddX (r : Idx) (addr : Addr) : Statement (.eaddX r addr) := of_short rfl rfl
theorem esubX (r : Idx) (addr : Addr) : Statement (.esubX r addr) := of_short rfl rfl
theorem asx (r : Idx) (addr : Addr) : Statement (.asx r addr) := of_short rfl rfl
theorem xtr (r : Idx) (addr : Addr) : Statement (.xtr r addr) := of_short rfl rfl
theorem rte (r : Idx) (addr : Addr) : Statement (.rte r addr) := of_short rfl rfl
theorem yta (r : Idx) (addr : Addr) : Statement (.yta r addr) := of_short rfl rfl
theorem ext32 (r : Idx) (addr : Addr) : Statement (.ext32 r addr) := of_short rfl rfl
theorem ext33 (r : Idx) (addr : Addr) : Statement (.ext33 r addr) := of_short rfl rfl
theorem eaddN (r : Idx) (addr : Addr) : Statement (.eaddN r addr) := of_short rfl rfl
theorem esubN (r : Idx) (addr : Addr) : Statement (.esubN r addr) := of_short rfl rfl
theorem asn (r : Idx) (addr : Addr) : Statement (.asn r addr) := of_short rfl rfl
theorem ntr (r : Idx) (addr : Addr) : Statement (.ntr r addr) := of_short rfl rfl
theorem ati (r : Idx) (addr : Addr) : Statement (.ati r addr) := of_short rfl rfl
theorem sti (r : Idx) (addr : Addr) : Statement (.sti r addr) := of_short rfl rfl
theorem ita (r : Idx) (addr : Addr) : Statement (.ita r addr) := of_short rfl rfl
theorem its (r : Idx) (addr : Addr) : Statement (.its r addr) := of_short rfl rfl
theorem mtj (r : Idx) (addr : Addr) : Statement (.mtj r addr) := of_short rfl rfl
theorem jaddM (r : Idx) (addr : Addr) : Statement (.jaddM r addr) := of_short rfl rfl
theorem e46 (r : Idx) (addr : Addr) : Statement (.e46 r addr) := of_short rfl rfl
theorem e47 (r : Idx) (addr : Addr) : Statement (.e47 r addr) := of_short rfl rfl
theorem e50 (r : Idx) (addr : Addr) : Statement (.e50 r addr) := of_short rfl rfl
theorem e51 (r : Idx) (addr : Addr) : Statement (.e51 r addr) := of_short rfl rfl
theorem e52 (r : Idx) (addr : Addr) : Statement (.e52 r addr) := of_short rfl rfl
theorem e53 (r : Idx) (addr : Addr) : Statement (.e53 r addr) := of_short rfl rfl
theorem e54 (r : Idx) (addr : Addr) : Statement (.e54 r addr) := of_short rfl rfl
theorem e55 (r : Idx) (addr : Addr) : Statement (.e55 r addr) := of_short rfl rfl
theorem e56 (r : Idx) (addr : Addr) : Statement (.e56 r addr) := of_short rfl rfl
theorem e57 (r : Idx) (addr : Addr) : Statement (.e57 r addr) := of_short rfl rfl
theorem e60 (r : Idx) (addr : Addr) : Statement (.e60 r addr) := of_short rfl rfl
theorem e61 (r : Idx) (addr : Addr) : Statement (.e61 r addr) := of_short rfl rfl
theorem e62 (r : Idx) (addr : Addr) : Statement (.e62 r addr) := of_short rfl rfl
theorem e63 (r : Idx) (addr : Addr) : Statement (.e63 r addr) := of_short rfl rfl
theorem e64 (r : Idx) (addr : Addr) : Statement (.e64 r addr) := of_short rfl rfl
theorem e65 (r : Idx) (addr : Addr) : Statement (.e65 r addr) := of_short rfl rfl
theorem e66 (r : Idx) (addr : Addr) : Statement (.e66 r addr) := of_short rfl rfl
theorem e67 (r : Idx) (addr : Addr) : Statement (.e67 r addr) := of_short rfl rfl
theorem e70 (r : Idx) (addr : Addr) : Statement (.e70 r addr) := of_short rfl rfl
theorem e71 (r : Idx) (addr : Addr) : Statement (.e71 r addr) := of_short rfl rfl
theorem e72 (r : Idx) (addr : Addr) : Statement (.e72 r addr) := of_short rfl rfl
theorem e73 (r : Idx) (addr : Addr) : Statement (.e73 r addr) := of_short rfl rfl
theorem e74 (r : Idx) (addr : Addr) : Statement (.e74 r addr) := of_short rfl rfl
theorem e75 (r : Idx) (addr : Addr) : Statement (.e75 r addr) := of_short rfl rfl
theorem e76 (r : Idx) (addr : Addr) : Statement (.e76 r addr) := of_short rfl rfl
theorem e77 (r : Idx) (addr : Addr) : Statement (.e77 r addr) := of_short rfl rfl
theorem e20 (r : Idx) (addr : Addr) : Statement (.e20 r addr) := of_long rfl rfl
theorem e21 (r : Idx) (addr : Addr) : Statement (.e21 r addr) := of_long rfl rfl
theorem utc (r : Idx) (addr : Addr) : Statement (.utc r addr) := of_long rfl rfl
theorem wtc (r : Idx) (addr : Addr) : Statement (.wtc r addr) := of_long rfl rfl
theorem vtm (r : Idx) (addr : Addr) : Statement (.vtm r addr) := of_long rfl rfl
theorem utm (r : Idx) (addr : Addr) : Statement (.utm r addr) := of_long rfl rfl
theorem uza (r : Idx) (addr : Addr) : Statement (.uza r addr) := of_long rfl rfl
theorem u1a (r : Idx) (addr : Addr) : Statement (.u1a r addr) := of_long rfl rfl
theorem uj (r : Idx) (addr : Addr) : Statement (.uj r addr) := of_long rfl rfl
theorem vjm (r : Idx) (addr : Addr) : Statement (.vjm r addr) := of_long rfl rfl
theorem ij (r : Idx) (addr : Addr) : Statement (.ij r addr) := of_long rfl rfl
theorem stop (r : Idx) (addr : Addr) : Statement (.stop r addr) := of_long rfl rfl
theorem vzm (r : Idx) (addr : Addr) : Statement (.vzm r addr) := of_long rfl rfl
theorem v1m (r : Idx) (addr : Addr) : Statement (.v1m r addr) := of_long rfl rfl
theorem e36 (r : Idx) (addr : Addr) : Statement (.e36 r addr) := of_long rfl rfl
theorem vlm (r : Idx) (addr : Addr) : Statement (.vlm r addr) := of_long rfl rfl

end Sys2Proof.Laws.EncodingMatchesRow
end

