-- ==== Sys2Proof/Tests/Slice0.lean ====
section
/-!
SUPPORT. Tests: the well-formedness smoke test, decoding of words written out from the spec's encodings, single steps
from the vectors of spec/95_test_vectors.md (named V-…), and a witness for the hypotheses of each statement.
-/

namespace Sys2Proof.Machine

set_option Elab.async false

/-! ## Helpers -/

/-- The outcome is a next state with a property. -/
def nextHas (o : Host.Outcome State Fault Refusal) (p : State → Bool) : Bool :=
  match o with
  | .next t => p t
  | _ => false

/-- The outcome is the refusal `f`. -/
def refusedWith (o : Host.Outcome State Fault Refusal) (f : Refusal) : Bool :=
  match o with
  | .refused g => decide (g = f)
  | _ => false

/-- Every word of a list decodes to its instruction. -/
def decodesAll (l : List (Half × Instr)) : Bool := l.all fun e => decide (decode e.1 = e.2)

/-- Baseline B in supervisor mode: the supervisor table the identity, the user table "plus one". -/
def sup : State :=
  { State.reset with
    rpS := #v[0x000000018820, 0x0000000398A4, 0x00000005A928, 0x00000007B9AC, 0x00000009CA30, 0x0000000BDAB4,
      0x0000000DEB38, 0x0000000FFBBC]
    rpU := #v[0x000000020C41, 0x000000041CC5, 0x000000062D49, 0x000000083DCD, 0x0000000A4E51, 0x0000000C5ED5,
      0x0000000E6F59, 0x000008007FDD]
    pc := 0o100 }

/-- Baseline B in user mode, PSW 0. -/
def user : State := { sup with psw := 0, ruu := { sup.ruu with extracode := false } }

/-- A number word at a physical address. -/
def number (a : Nat) (w : Word) : Nat × MemCell := (a, ⟨w, tagNumber⟩)

/-- An instruction word at a physical address. -/
def insn (a : Nat) (w : Word) : Nat × MemCell := (a, ⟨w, tagInsn⟩)

/-- Supervisor baseline with one number in memory at 0200 and a value in ACC. -/
def supWith (acc x : Word) : State := { sup with acc := acc, mem := [number 0o200 x] }

/-- The write buffer with line 0 valid for supervisor address `a`. -/
def oneLine (a : Addr) (w : Word) : WriteBuffer :=
  { WriteBuffer.empty with
    lines := WriteBuffer.empty.lines.set 0 ⟨true, 0o100000#16 ||| a.setWidth 16, a.setWidth 21, w, tagNumber⟩
    newer := 0x7F, oldest := 1 }

/-! ## Well-formedness -/

theorem test_wf_refuses_short_address : (Instr.xta 0 0o12345).wf = false := by decide

theorem test_wf_refuses_short_address_bounds :
    (Instr.ntr 0 0o10000).wf = false ∧ (Instr.ntr 0 0o67777).wf = false := by decide

theorem test_wf_accepts_short_address_bounds :
    (Instr.ntr 15 0o7777).wf = true ∧ (Instr.ntr 15 0o70000).wf = true ∧ (Instr.ntr 15 0o77777).wf = true := by decide

theorem test_wf_accepts_long_address : (Instr.vtm 0 0o12345).wf = true := by decide

/-! ## Decoding -/

/-- V-E1 to V-E11; V-E7 with its stated `E = 1` set in the word (log 40). -/
theorem test_decode_vectors : decodesAll
    [(0x000000#24, .atx 0 0), (0xFFFFFF#24, .vlm 15 0o77777), (0x048FFF#24, .xta 0 0o77777),
     (0x048000#24, .xta 0 0o70000), (0x008FFF#24, .xta 0 0o7777), (0x0D8000#24, .stop 0 0),
     (0xF7FFFF#24, .e77 15 0o77777), (0x0814E5#24, .e20 0 0o12345), (0x32800A#24, .e50 3 0o12),
     (0x002080#24, .mod 0 0o200), (0x3D0000#24, .ij 3 0)] = true := by
  decide +kernel

/-- V-E12. -/
theorem test_halves_of_a_word :
    decode (halfOf 0x008080000005#48 false) = .xta 0 0o200 ∧ decode (halfOf 0x008080000005#48 true) = .atx 0 5 := by
  decide +kernel

/-- Short opcodes 000 to 007 (R153, R157): each word written from the row's fields. -/
theorem test_decode_short_00 : decodesAll
    [(0x30029C#24, .atx 3 0o1234), (0xA412EF#24, .stx 10 0o71357),
     (0x102342#24, .mod 1 0o1502), (0x843395#24, .xts 8 0o71625),
     (0xF043E8#24, .addX 15 0o1750), (0x64543B#24, .subX 6 0o72073),
     (0xD0648E#24, .rsubX 13 0o2216), (0x4474E1#24, .amx 4 0o72341)] = true := by
  decide +kernel

/-- Short opcodes 010 to 017 (R153, R157): each word written from the row's fields. -/
theorem test_decode_short_01 : decodesAll
    [(0xB08534#24, .xta 11 0o2464), (0x249587#24, .aax 2 0o72607),
     (0x90A5DA#24, .aex 9 0o2732), (0x04B62D#24, .arx 0 0o73055),
     (0x70C680#24, .avx 7 0o3200), (0xE4D6D3#24, .aox 14 0o73323),
     (0x50E726#24, .divX 5 0o3446), (0xC4F779#24, .mulX 12 0o73571)] = true := by
  decide +kernel

/-- Short opcodes 020 to 027 (R153, R157): each word written from the row's fields. -/
theorem test_decode_short_02 : decodesAll
    [(0x3107CC#24, .apx 3 0o3714), (0xA5181F#24, .aux 10 0o74037),
     (0x112872#24, .acx 1 0o4162), (0x8538C5#24, .anx 8 0o74305),
     (0xF14918#24, .eaddX 15 0o4430), (0x65596B#24, .esubX 6 0o74553),
     (0xD169BE#24, .asx 13 0o4676), (0x457A11#24, .xtr 4 0o75021)] = true := by
  decide +kernel

/-- Short opcodes 030 to 037 (R153, R157): each word written from the row's fields. -/
theorem test_decode_short_03 : decodesAll
    [(0xB18A64#24, .rte 11 0o5144), (0x259AB7#24, .yta 2 0o75267),
     (0x91AB0A#24, .ext32 9 0o5412), (0x05BB5D#24, .ext33 0 0o75535),
     (0x71CBB0#24, .eaddN 7 0o5660), (0xE5DC03#24, .esubN 14 0o76003),
     (0x51EC56#24, .asn 5 0o6126), (0xC5FCA9#24, .ntr 12 0o76251)] = true := by
  decide +kernel

/-- Short opcodes 040 to 047 (R153, R157): each word written from the row's fields. -/
theorem test_decode_short_04 : decodesAll
    [(0x320CFC#24, .ati 3 0o6374), (0xA61D4F#24, .sti 10 0o76517),
     (0x122DA2#24, .ita 1 0o6642), (0x863DF5#24, .its 8 0o76765),
     (0xF24E48#24, .mtj 15 0o7110), (0x665E9B#24, .jaddM 6 0o77233),
     (0xD26EEE#24, .e46 13 0o7356), (0x467F41#24, .e47 4 0o77501)] = true := by
  decide +kernel

/-- Short opcodes 050 to 057 (R153, R157): each word written from the row's fields. -/
theorem test_decode_short_05 : decodesAll
    [(0xB28F94#24, .e50 11 0o7624), (0x269FE7#24, .e51 2 0o77747),
     (0x92A03A#24, .e52 9 0o72), (0x06B08D#24, .e53 0 0o70215),
     (0x72C0E0#24, .e54 7 0o340), (0xE6D133#24, .e55 14 0o70463),
     (0x52E186#24, .e56 5 0o606), (0xC6F1D9#24, .e57 12 0o70731)] = true := by
  decide +kernel

/-- Short opcodes 060 to 067 (R153, R157): each word written from the row's fields. -/
theorem test_decode_short_06 : decodesAll
    [(0x33022C#24, .e60 3 0o1054), (0xA7127F#24, .e61 10 0o71177),
     (0x1322D2#24, .e62 1 0o1322), (0x873325#24, .e63 8 0o71445),
     (0xF34378#24, .e64 15 0o1570), (0x6753CB#24, .e65 6 0o71713),
     (0xD3641E#24, .e66 13 0o2036), (0x477471#24, .e67 4 0o72161)] = true := by
  decide +kernel

/-- Short opcodes 070 to 077 (R153, R157): each word written from the row's fields. -/
theorem test_decode_short_07 : decodesAll
    [(0xB384C4#24, .e70 11 0o2304), (0x279517#24, .e71 2 0o72427),
     (0x93A56A#24, .e72 9 0o2552), (0x07B5BD#24, .e73 0 0o72675),
     (0x73C610#24, .e74 7 0o3020), (0xE7D663#24, .e75 14 0o73143),
     (0x53E6B6#24, .e76 5 0o3266), (0xC7F709#24, .e77 12 0o73411)] = true := by
  decide +kernel

/-- Long opcodes 0 to 7 (R152, R158): each word written from the row's fields. -/
theorem test_decode_long_0 : decodesAll
    [(0x382725#24, .e20 3 0o23445), (0xA8A96E#24, .e21 10 0o24556),
     (0x192BB7#24, .utc 1 0o25667), (0x89AE00#24, .wtc 8 0o27000),
     (0xFA3049#24, .vtm 15 0o30111), (0x6AB292#24, .utm 6 0o31222),
     (0xDB34DB#24, .uza 13 0o32333), (0x4BB724#24, .u1a 4 0o33444)] = true := by
  decide +kernel

/-- Long opcodes 8 to 15 (R152, R158): each word written from the row's fields. -/
theorem test_decode_long_8 : decodesAll
    [(0xBC396D#24, .uj 11 0o34555), (0x2CBBB6#24, .vjm 2 0o35666),
     (0x9D3DFF#24, .ij 9 0o36777), (0x0DC048#24, .stop 0 0o40110),
     (0x7E4291#24, .vzm 7 0o41221), (0xEEC4DA#24, .v1m 14 0o42332),
     (0x5F4723#24, .e36 5 0o43443), (0xCFC96C#24, .vlm 12 0o44554)] = true := by
  decide +kernel

/-- V-X6 through `decodeTableWord`. -/
theorem test_decodeTableWord : decodeTableWord 24 0x0D8000 = some (.stop 0 0) ∧ decodeTableWord 24 0x1000000 = none := by
  decide +kernel

/-- The half placed for the next fetch runs as the first instruction after reset: `NTR 024` (V-A13). -/
theorem test_withFetchWord : nextHas (step (State.reset.withFetchWord 24 0x01F014)) (fun t => t.rau == 0o24) = true := by
  decide +kernel

/-! ## Operands and memory -/

/-- V-E13. -/
theorem test_effective_wraps : effective 3 2 { sup with gen := sup.gen.set 2 0o77777 } = 1 := by decide +kernel

/-- V-E15. -/
theorem test_effective_modified :
    effective 2 0o10 { sup with
      gen := sup.gen.set 1 0o10, mod := 5, ruu := { sup.ruu with modPending := true } } = 0o25 := by decide +kernel

/-- V-T1. -/
theorem test_pack : packEntries 1 2 3 4 = 0x000000020C41#48 := by decide +kernel

/-- V-T2. -/
theorem test_pageEntry :
    (List.range 4).map (fun e => pageEntry 0x11111D00801F#48 e) = [0x7FF, 0, 0x20, 0x21] := by decide +kernel

/-- V-T2: the table entries with 1024 and with 32 physical pages. -/
theorem test_tlbEntry :
    let entries := fun s : State => (List.range 4).map fun e => tlbEntry (s.rpU.set 0 0x11111D00801F#48) (BitVec.ofNat 5 e) s
    entries sup = [0x3FF, 0, 0x20, 0x21] ∧ entries { sup with setup := ⟨5, 0⟩ } = [0x1F, 0, 0, 1] := by decide +kernel

/-- V-T7 with the ten offset bits of R83 (log 40), V-T8, V-T9. -/
theorem test_translate :
    translate (resolve 0o5123 user) user = 0o7123 ∧ translate (resolve 0o5123 sup) sup = 0o5123 ∧
    translate (resolve 0o5123 { user with psw := 1 }) { user with psw := 1 } = 0o5123 := by decide +kernel

/-- V-W1: the store allocates line 0 and leaves memory. -/
theorem test_atx_allocates :
    nextHas (exec (.atx 0 5) { sup with acc := 0x123 }) (fun t =>
      t.wb.lines[0] == ⟨true, 0o100005, 5, 0x123, 2⟩ && t.wb.oldest == 1 && t.wb.newer == 0x7F && t.mem == []) =
      true := by decide +kernel

/-- V-W1: the load hits the buffered word. -/
theorem test_xta_hits :
    nextHas (exec (.xta 0 5) { sup with wb := oneLine 5 0x123 }) (fun t =>
      t.acc == 0x123 && t.wb.oldest == 1 && t.rau == 0o4) = true := by decide +kernel

/-- V-W4: a hit on the oldest line leaves recency. -/
theorem test_store_hit_oldest :
    nextHas (exec (.atx 0 5) { sup with acc := 7, wb := { oneLine 5 1 with newer := 0, oldest := 0 } }) (fun t =>
      t.wb.lines[0].word == 7 && t.wb.newer == 0 && t.wb.oldest == 0) = true := by decide +kernel

/-- V-W3, the ninth store: line 0 goes to memory. -/
theorem test_store_evicts :
    nextHas (exec (.atx 0 0o11) { sup with acc := 9, wb := { oneLine 1 4 with newer := 0, oldest := 0 } }) (fun t =>
      t.mem == [number 1 4] && t.wb.lines[0] == ⟨true, 0o100011, 0o11, 9, 2⟩ && t.wb.oldest == 1) = true := by
  decide +kernel

/-- V-W7. -/
theorem test_store_protected : storeFault 0o5000 { user with rz := 4 } = some ⟨.operandProt, some 2⟩ := by decide +kernel

/-- V-W9: the watchpoint, and protection before it. -/
theorem test_store_watched :
    storeFault 5 { user with psw := 0o20, dwp := 5 } = some ⟨.watchpoint, none⟩ ∧
    storeFault 5 { user with psw := 0o20, dwp := 0o100005 } = none ∧
    storeFault 5 { user with psw := 0o20, dwp := 5, rz := 1 } = some ⟨.operandProt, some 0⟩ := by decide +kernel

/-- V-W10. -/
theorem test_load_tags :
    loadFault 0o200 { sup with mem := [insn 0o200 5] } = some ⟨.ramCheck, some 0⟩ ∧
    loadFault 0o200 { sup with mem := [(0o200, ⟨5, 0⟩)] } = none ∧
    loadFault 0o200 { sup with mem := [(0o200, ⟨5, 3⟩)] } = some ⟨.ramCheck, some 0⟩ := by decide +kernel

/-- V-W11. -/
theorem test_store_tags :
    storeTag { sup with ruu := { sup.ruu with convolRight := true } } = 3 ∧
    storeTag { sup with ruu := { sup.ruu with convolLeft := true } } = 0 ∧
    storeTag { sup with ruu := { sup.ruu with convolLeft := true, convolRight := true } } = 1 := by decide +kernel

/-- V-F1, V-F2, V-F4, V-F5, V-F6. -/
theorem test_fetch_faults :
    fetchFault 0 sup = some ⟨.insnCheck, some 0⟩ ∧
    fetchFault 0o100 { user with rpU := user.rpU.set 0 0 } = some ⟨.insnProt, some 0⟩ ∧
    fetchFault 0o100 { sup with ibp := 0o100100 } = some ⟨.breakpoint, none⟩ ∧
    fetchFault 0o100 { sup with mem := [number 0o100 0] } = some ⟨.insnCheck, some 0⟩ ∧
    fetchFault 0o100 { sup with mem := [insn 0o100 0], ibp := 0o100 } = none := by decide +kernel

/-- V-F7: the first miss. -/
theorem test_fetch_installs :
    let t := fetchCommit 0o100100 { sup with mem := [insn 0o100 0x00B08000B080] }
    t.pf.lines[0] = ⟨true, 0o100100, 0x00B08000B080, 1⟩ ∧ t.pf.oldest = 1 := by decide +kernel

/-! ## The engine -/

/-- V-N1, V-N2. -/
theorem test_halves_advance :
    nextHas (exec (.ntr 0 0) sup) (fun t => t.pc == 0o100 && t.ruu.right) = true ∧
    nextHas (exec (.ntr 0 0) { sup with ruu := { sup.ruu with right := true } })
      (fun t => t.pc == 0o101 && !t.ruu.right) = true := by decide +kernel

/-- V-N3. -/
theorem test_runout :
    nextHas (exec (.ntr 0 5) { sup with pc := 0o77777, ruu := { sup.ruu with right := true } }) (fun t =>
      t.halted == some .runout && t.pc == 0o77777 && t.ruu.right && t.rau == 5) = true := by decide +kernel

/-- V-N6: the revert restores SP. -/
theorem test_revert_restores_sp :
    nextHas (exec (.xta 15 0) { user with gen := user.gen.set 14 0o100, mem := [insn 0o2077 5] }) (fun t =>
      sp t == 0o100 && t.ruu.interrupt && t.trapping) = true := by decide +kernel

/-! ## Arithmetic, logic and modes -/

/-- V-A1. -/
theorem test_arx :
    nextHas (exec (.arx 0 0o200) { supWith 5 7 with rau := 0o41 }) (fun t =>
      t.acc == 0o14 && t.rmr == 0 && t.rau == 0o51) = true := by decide +kernel

/-- V-A2, V-A3. -/
theorem test_end_around :
    endAroundAdd 0xFFFFFFFFFFFF 0xFFFFFFFFFFFF = 0xFFFFFFFFFFFF ∧ endAroundAdd 0xFFFFFFFFFFFF 1 = 1 := by
  decide +kernel

/-- V-A4. -/
theorem test_aax :
    nextHas (exec (.aax 0 0o200) (supWith 0xFF00FF00FF00 0x0FF00FF00FF0)) (fun t =>
      t.acc == 0x0F000F000F00 && t.rmr == 0 && t.rau == 0o4) = true := by decide +kernel

/-- V-A5. -/
theorem test_aex :
    nextHas (exec (.aex 0 0o200) (supWith 6 3)) (fun t => t.acc == 5 && t.rmr == 6) = true := by decide +kernel

/-- V-A6. -/
theorem test_aox :
    nextHas (exec (.aox 0 0o200) { supWith 4 1 with rmr := 9 }) (fun t => t.acc == 5 && t.rmr == 0) = true := by
  decide +kernel

/-- V-A7. -/
theorem test_acx : nextHas (exec (.acx 0 0o200) (supWith 7 0)) (fun t => t.acc == 3) = true := by decide +kernel

/-- V-A9. -/
theorem test_acx_wraps :
    nextHas (exec (.acx 0 0o200) (supWith 1 0xFFFFFFFFFFFF)) (fun t => t.acc == 1) = true := by decide +kernel

/-- V-A11. -/
theorem test_rte :
    nextHas (exec (.rte 0 7) { sup with rau := 0o25 }) (fun t => t.acc == 0x0A0000000000 && t.rau == 0o5) = true := by
  decide +kernel

/-- V-A12. -/
theorem test_xtr :
    nextHas (exec (.xtr 0 0o200) (supWith 3 0x080000000000)) (fun t => t.rau == 0o4 && t.acc == 3) = true := by
  decide +kernel

/-- V-A15. -/
theorem test_yta :
    nextHas (exec (.yta 0 0) { sup with rau := 0o4, rmr := 0x55 }) (fun t => t.acc == 0x55 && t.rau == 0o4) = true := by
  decide +kernel

/-- V-A16. -/
theorem test_divide_by_zero :
    nextHas (exec (.divX 0 0) { user with rau := 0o20 }) (fun t => t.rau == 0o20 && t.trapping && t.psw == 0o2003) =
      true := by decide +kernel

/-- V-A17: the exponent adjustments of `E+N 0101` and `E-N 0077` are both +1. -/
theorem test_lit7 : lit7 0o101 = 1 ∧ -lit7 0o77 = 1 := by decide +kernel

/-- V-A18. -/
theorem test_expo : expo 0x800000000000#48 = 0 := by decide +kernel

/-! ## Data movement -/

/-- V-D1. -/
theorem test_xta_pops :
    nextHas (exec (.xta 15 0) { sup with gen := sup.gen.set 14 0o100, mem := [number 0o77 5] }) (fun t =>
      t.acc == 5 && sp t == 0o77) = true := by decide +kernel

/-- V-D4. -/
theorem test_atx_push_wraps :
    nextHas (exec (.atx 15 0) { sup with acc := 3, gen := sup.gen.set 14 0o77777 }) (fun t =>
      t.wb.lines[0] == ⟨true, 0o177777, 0o77777, 3, 2⟩ && sp t == 0) = true := by decide +kernel

/-- V-D5. -/
theorem test_stx :
    nextHas (exec (.stx 0 0o10) { sup with acc := 1, gen := sup.gen.set 14 0o100, mem := [number 0o77 2] }) (fun t =>
      t.wb.lines[0].key == 0o100010 && t.wb.lines[0].word == 1 && sp t == 0o77 && t.acc == 2) = true := by
  decide +kernel

/-- V-D6. -/
theorem test_xts :
    nextHas (exec (.xts 0 0o20) { sup with acc := 7, gen := sup.gen.set 14 0o100, mem := [number 0o20 9] }) (fun t =>
      t.wb.lines[0].key == 0o100100 && t.wb.lines[0].word == 7 && sp t == 0o101 && t.acc == 9) = true := by
  decide +kernel

/-- V-D8, V-D9. -/
theorem test_ati :
    nextHas (exec (.ati 0 0o34) { sup with psw := 1, acc := 5 }) (fun t => t.ibp == 0o100005) = true ∧
    nextHas (exec (.ati 0 0o21) { user with acc := 5 }) (fun t => idx 1 t == 5 && t.psw == 0) = true := by
  decide +kernel

/-- V-D10, V-D11. -/
theorem test_sti :
    nextHas (exec (.sti 0 5) { sup with acc := 3, gen := sup.gen.set 14 0o100, mem := [number 0o77 4] })
      (fun t => idx 5 t == 3 && sp t == 0o77 && t.acc == 4) = true ∧
    nextHas (exec (.sti 0 0o17) (supWith 0o200 6)) (fun t => sp t == 0o200 && t.acc == 6) = true := by decide +kernel

/-- V-D12. -/
theorem test_ita :
    nextHas (exec (.ita 0 3) { sup with gen := sup.gen.set 2 0o777 }) (fun t => t.acc == 0o777) = true := by
  decide +kernel

/-- V-D14. -/
theorem test_its_sp :
    nextHas (exec (.its 0 0o17) { sup with acc := 1, gen := sup.gen.set 14 0o100 }) (fun t =>
      t.wb.lines[0].key == 0o100100 && sp t == 0o101 && t.acc == 0o101) = true := by decide +kernel

/-- V-D15. -/
theorem test_mtj :
    nextHas (exec (.mtj 4 7) { sup with gen := sup.gen.set 3 0o123 }) (fun t => idx 7 t == 0o123) = true := by
  decide +kernel

/-- V-D17. -/
theorem test_jaddM_wraps :
    nextHas (exec (.jaddM 2 1) { sup with gen := (sup.gen.set 0 0o77777).set 1 1 }) (fun t => idx 1 t == 0) = true := by
  decide +kernel

/-- V-D19, V-D20. -/
theorem test_vtm_psw :
    nextHas (exec (.vtm 0 0o2000) { sup with psw := 3 }) (fun t => t.psw == 0o2000) = true ∧
    nextHas (exec (.vtm 0 0o2000) user) (fun t => t.psw == 0) = true := by decide +kernel

/-- V-D22. -/
theorem test_utm_wraps :
    nextHas (exec (.utm 5 0o77777) { sup with gen := sup.gen.set 4 0o10 }) (fun t => idx 5 t == 7) = true := by
  decide +kernel

/-! ## Branches and address modification -/

/-- V-B1 to V-B7: `UZA` jumps. -/
theorem test_uzaCond :
    uzaCond (groupOf 0o20) 0 = true ∧ uzaCond (groupOf 0o20) (BitVec.twoPow 48 40) = false ∧
    uzaCond (groupOf 0o10) (BitVec.twoPow 48 47) = true ∧ uzaCond (groupOf 0o10) 0 = false ∧
    uzaCond (groupOf 0o4) 0 = true ∧ uzaCond (groupOf 0o4) 1 = false ∧ uzaCond (groupOf 0) 0 = false := by
  decide +kernel

/-- V-B4. -/
theorem test_u1a :
    nextHas (exec (.u1a 0 0o300) { sup with rau := 0o10 }) (fun t => t.pc == 0o300 && !t.ruu.right) = true := by
  decide +kernel

/-- V-B9. -/
theorem test_vjm_right :
    nextHas (exec (.vjm 13 0o200) { sup with ruu := { sup.ruu with right := true } }) (fun t =>
      idx 13 t == 0o101 && t.pc == 0o200 && !t.ruu.right) = true := by decide +kernel

/-- V-B11. -/
theorem test_uj :
    nextHas (exec (.uj 3 0o10) { sup with gen := sup.gen.set 2 2 }) (fun t => t.pc == 0o12) = true := by decide +kernel

/-- V-B13, V-B14. -/
theorem test_v1m_vzm :
    nextHas (exec (.v1m 2 0o300) { sup with gen := sup.gen.set 1 1 }) (fun t => t.pc == 0o300) = true ∧
    nextHas (exec (.vzm 0 0o300) sup) (fun t => t.pc == 0o300) = true := by decide +kernel

/-- V-B15, V-B16. -/
theorem test_vlm :
    nextHas (exec (.vlm 1 0o300) { sup with gen := sup.gen.set 0 0o77777 }) (fun t => idx 1 t == 0 && t.pc == 0o300) =
      true ∧
    nextHas (exec (.vlm 1 0o300) sup) (fun t => idx 1 t == 0 && t.pc == 0o100) = true := by decide +kernel

/-- V-M1: the first half. -/
theorem test_utc :
    nextHas (exec (.utc 0 5) sup) (fun t => t.mod == 5 && t.ruu.modPending) = true := by decide +kernel

/-- V-M4. -/
theorem test_wtc_pops :
    nextHas (exec (.wtc 15 0) { sup with gen := sup.gen.set 14 0o101, mem := [number 0o100 4] }) (fun t =>
      sp t == 0o100 && t.mod == 4 && t.ruu.modPending) = true := by decide +kernel

/-! ## Special registers -/

/-- V-S3. -/
theorem test_wb_write :
    nextHas (exec (.mod 0 0) { sup with acc := 0x456, wb := oneLine 5 0x123 }) (fun t =>
      t.wb.lines[0] == ⟨true, 0o100005, 5, 0x456, 2⟩ && t.wb.newer == 0x7F && t.mem == []) = true := by decide +kernel

/-- V-S5, V-S6. -/
theorem test_prot_write :
    nextHas (exec (.mod 0 0o30) { sup with acc := 1, rz := 0xFFFFFFFF }) (fun t => t.rz == 0xFFFFFF01) = true ∧
    nextHas (exec (.mod 0 0o33) { sup with acc := 0x1FF }) (fun t => t.rz == 0xFF000000) = true := by decide +kernel

/-- V-S8, V-S9, V-S10. -/
theorem test_grp :
    nextHas (exec (.mod 0 0o37) { sup with grp := 3, acc := 1 }) (fun t => t.grp == 1) = true ∧
    nextHas (exec (.mod 0 0o37) { sup with grp := 3, setup := ⟨10, 2⟩ }) (fun t => t.grp == 2) = true ∧
    nextHas (exec (.mod 0 0o237) { sup with grp := 0xA }) (fun t => t.acc == 0xA) = true := by decide +kernel

/-- V-S11, V-S12. -/
theorem test_control :
    nextHas (exec (.mod 0 0o107) sup) (fun t =>
      t.ruu.avostDisable && t.ruu.convolRight && t.ruu.convolLeft) = true ∧
    refusedWith (exec (.mod 0 0o140) sup) .unimplementedSubop = true := by decide +kernel

/-- V-S14. -/
theorem test_flush :
    (flushAll { sup with
      wb := { oneLine 5 1 with
        lines := (oneLine 5 1).lines.set 1 ⟨true, 0o100006, 5, 2, 2⟩ } }).mem = [number 5 2] := by decide +kernel

/-- V-S17. -/
theorem test_ext32 :
    nextHas (exec (.ext32 0 0) user) (fun t => t.ruu.interrupt && t.trapping) = true ∧
    refusedWith (exec (.ext32 0 0) sup) .deviceCommand = true := by decide +kernel

/-! ## Extracodes, return, traps, reset -/

/-- V-X1, V-X2. -/
theorem test_extracode :
    nextHas (exec (.e50 3 0o12) { user with gen := user.gen.set 2 1 }) (fun t =>
      idx 14 t == 0o13 && t.eret == 0o100 && t.spsw == 0o400 && t.psw == 0o2003 && t.ruu.extracode) = true ∧
    nextHas (exec (.e50 3 0o12) { user with ruu := { user.ruu with right := true } }) (fun t =>
      t.eret == 0o101 && t.spsw == 0) = true := by decide +kernel

/-- V-X5, V-X6. -/
theorem test_stop :
    nextHas (exec (.stop 0 0) user) (fun t => t.ruu.extracode && t.halted == none) = true ∧
    nextHas (exec (.stop 0 0) sup) (fun t => t.halted == some .stop && t.pc == 0o100 && !t.ruu.right) = true := by
  decide +kernel

/-- V-X8, V-X9. -/
theorem test_ij :
    nextHas (exec (.ij 3 0) { sup with spsw := 0o400, iret := 0o123 }) (fun t =>
      t.pc == 0o123 && t.ruu.right && !supervisor t && t.psw == 0o14) = true ∧
    nextHas (exec (.ij 2 0) { sup with spsw := 0o20, mod := 5, eret := 0o200 }) (fun t =>
      t.pc == 0o200 && !t.ruu.right && t.ruu.modPending && t.mod == 5) = true := by decide +kernel

/-- V-I1, but for the OPEN bits of GRP. -/
theorem test_internal_entry :
    nextHas (exec (.xta 0 0o5000) { user with rz := 4, ruu := { user.ruu with right := true } }) (fun t =>
      t.spsw == 0o400 && t.iret == 0o100 && t.psw == 0o2003 && t.ruu.interrupt && !t.ruu.right && t.trapping) =
      true := by decide +kernel

/-- V-I4. -/
theorem test_external_entry :
    nextHas (step { user with pc := 0o200, grp := 1, mgrp := 1 }) (fun t =>
      t.spsw == 0 && t.iret == 0o200 && t.psw == 0o2003 && t.ruu.interrupt && t.grp == 1) = true := by decide +kernel

/-- A refused turn sets the mark, the next turn takes no step, and a reset clears it (R194, R460). -/
theorem test_refusal_mark :
    (let t := turn .cpu { sup with mem := [insn 0o100 0x01A000000000] };
      t.refusalMark = some .deviceCommand ∧ t.pc = 0o100 ∧ turn (.device 1 1) t = t ∧
      (turn .hostReset t).refusalMark = none) := by decide +kernel

/-- V-R2. -/
theorem test_host_reset :
    nextHas (step { sup with inputs := [.hostReset], wb := oneLine 0o700 9 }) (fun t =>
      t.mem == [number 0o700 9] && t.wb == WriteBuffer.empty && t.pc == 1) = true := by decide +kernel

/-! ## Witnesses: the hypotheses of each statement met by concrete states, a case for each clause -/

theorem next_of_has {o : Host.Outcome State Fault Refusal} {p : State → Bool} (h : nextHas o p = true) :
    ∃ t, o = .next t ∧ p t = true := by
  cases o with
  | next t => exact ⟨t, rfl, h⟩
  | fault f => exact absurd h (by simp [nextHas])
  | refused r => exact absurd h (by simp [nextHas])

theorem witness_PageEntriesRepack : (0 : Nat) < 4 ∧ (3 : Nat) < 4 ∧ (4 : Nat) < 5 ∧ (5 : Nat) < 6 := by decide

theorem witness_LoadChecksAndFinds :
    let s := { sup with wb := oneLine 5 7 }
    (5#15 ≠ 0 ∧ wbHits (resolve 5 s) 0 s) ∧ (0o77777#15 ≠ 0 ∧ wbMisses (resolve 0o77777 s) s) := by
  unfold wbHits wbMisses; decide +kernel

/-- A state whose live half is `NTR 024` at 0100. -/
def ready : State := { sup with mem := [insn 0o100 0x01F014000000] }

/-- On an empty tape it is the processor's turn at the state itself. -/
theorem readyToFetch_self {s : State}
    (h : s.refusalMark = none ∧ s.inputs = [] ∧ s.halted = none ∧ externalPending s = false) :
    readyToFetch s s := ⟨⟨h.1, .inl ⟨h.2.1, rfl⟩⟩, h.2.2⟩

/-- With the processor at the head of the tape it is its turn at the state with the rest of the tape. -/
theorem readyToFetch_head {s u : State} {l : List Input}
    (h : s = { u with inputs := .cpu :: l } ∧ u.inputs = l ∧ u.refusalMark = none ∧ u.halted = none ∧
      externalPending u = false) : readyToFetch s u := by
  obtain ⟨rfl, rfl, h1, h2⟩ := h
  exact ⟨⟨h1, .inr ⟨u.inputs, rfl, rfl⟩⟩, h2⟩

theorem witness_FetchFaultsAreTaken :
    (let s := { ready with pc := 0 }; readyToFetch s s ∧ fetchFault s.pc s = some ⟨.insnCheck, some 0⟩) ∧
    (let s := { user with rpU := user.rpU.set 0 0 };
      readyToFetch s s ∧ fetchFault s.pc s = some ⟨.insnProt, some 0⟩) ∧
    (let s := { ready with ibp := 0o100100 }; readyToFetch s s ∧ fetchFault s.pc s = some ⟨.breakpoint, none⟩) ∧
    (let s := { ready with mem := [] }; readyToFetch s s ∧ fetchFault s.pc s = some ⟨.insnCheck, some 0⟩) ∧
    let u := { ready with pc := 0, inputs := [.hostHalt] }
    readyToFetch { u with inputs := [.cpu, .hostHalt] } u ∧ fetchFault u.pc u = some ⟨.insnCheck, some 0⟩ := by
  refine ⟨⟨readyToFetch_self ?_, ?_⟩, ⟨readyToFetch_self ?_, ?_⟩, ⟨readyToFetch_self ?_, ?_⟩, ⟨readyToFetch_self ?_, ?_⟩,
    readyToFetch_head (l := [.hostHalt]) ?_, ?_⟩ <;> decide +kernel

theorem witness_StoresUpdateTheBuffer :
    (let s := { sup with wb := oneLine 5 7 }; Memory.wf s.mem ∧ wbHits 0o100005 0 s ∧ (0 : Fin 8) ≠ s.wb.oldest) ∧
    (let s := { sup with wb := { oneLine 5 7 with oldest := 0 } };
      Memory.wf s.mem ∧ wbHits 0o100005 0 s ∧ (0 : Fin 8) = s.wb.oldest) ∧
    (let s := { sup with wb := { oneLine 5 7 with oldest := 0 } };
      Memory.wf s.mem ∧ wbMisses 0o100006 s ∧ s.wb.lines[s.wb.oldest.val].valid = true) ∧
    (let s := { sup with wb := oneLine 5 7 };
      Memory.wf s.mem ∧ wbMisses 0o177777 s ∧ s.wb.lines[s.wb.oldest.val].valid = false) := by
  unfold wbHits wbMisses; decide +kernel

theorem witness_LoadSeesOwnStore :
    (5#15 ≠ 0 ∧ storeFault 5 sup = none ∧ sup.ruu.convolRight = false) ∧
    (let s := { sup with ruu := { sup.ruu with convolRight := true } };
      0o77777#15 ≠ 0 ∧ storeFault 0o77777 s = none ∧ s.ruu.convolRight = true) := by decide +kernel

theorem witness_StoreFaultsAreTaken :
    let s := { user with rz := 4, gen := user.gen.set 14 0o5000 }
    0o5000#15 ≠ 0 ∧ storeFault (effective 0 0o5000 s) s = some ⟨.operandProt, some 2⟩ ∧
      storeFault (sp s) s = some ⟨.operandProt, some 2⟩ := by decide +kernel

/-- A buffer whose lines 0 and 1 hold physical address 5. -/
def twoLines : WriteBuffer :=
  { oneLine 5 1 with lines := (oneLine 5 1).lines.set 1 ⟨true, 0o100006, 5, 2, 2⟩ }

theorem witness_FlushWritesEveryLine :
    let s := { sup with wb := twoLines }
    Memory.wf s.mem ∧
    (s.wb.lines[(1 : Fin 8).val].valid = true ∧ s.wb.lines[(1 : Fin 8).val].phys = 5 ∧
      ∀ j : Fin 8, 1 < j → ¬(s.wb.lines[j.val].valid = true ∧ s.wb.lines[j.val].phys = 5)) ∧
    ∀ i : Fin 8, ¬(s.wb.lines[i.val].valid = true ∧ s.wb.lines[i.val].phys = 6) := by decide +kernel

theorem recencyTotal_of_all {w n : Nat} {bits : BitVec w}
    (h : ((List.range n).all fun i => (List.range n).all fun j => (List.range n).all fun k =>
      i == j || j == k || i == k || !newer n bits i j || !newer n bits j k || newer n bits i k) = true) :
    recencyTotal n bits := by
  intro i hi j hj k hk hij hjk hik h1 h2
  simp only [List.all_eq_true, List.mem_range] at h
  simpa [hij, hjk, hik, h1, h2] using h i hi j hj k hk

theorem witness_TouchKeepsATotalOrder :
    recencyTotal 8 (oneLine 5 1).newer ∧ recencyTotal 4 Prefetch.empty.newer :=
  ⟨recencyTotal_of_all (by decide +kernel), recencyTotal_of_all (by decide +kernel)⟩

theorem witness_StepRunsDecodedHalf :
    readyToFetch ready ready ∧ readyToFetch { ready with inputs := [.cpu] } ready ∧ fetchFault ready.pc ready = none ∧
      Instr.ntr 0 0o24 = decode (halfOf (fetchCell (resolve ready.pc ready) ready).word ready.ruu.right) :=
  ⟨readyToFetch_self (by decide +kernel), readyToFetch_head (l := []) (by decide +kernel), by decide +kernel,
    by decide +kernel⟩

theorem witness_FetchFindsAndInstalls :
    let s := { sup with mem := [insn 0o100 7], pf := { sup.pf with lines := sup.pf.lines.set 2 ⟨true, 0o100100, 5, 1⟩ } }
    pfHits 0o100100 2 s ∧ pfMisses 0o100 s ∧ pfMisses 0o177777 s := by
  unfold pfHits pfMisses; decide +kernel

/-- By an unmasked bit of GRP at its lowest place, of PRP at its highest, and with the processor at the tape's head. -/
theorem witness_ExternalInterruptIsTaken :
    (let s := { user with grp := 1, mgrp := 1 };
      ourTurn s s ∧ s.halted = none ∧ s.grp.getLsbD 0 = true ∧ s.mgrp.getLsbD 0 = true ∧ externalPending s = true) ∧
    (let s := { user with prp := BitVec.twoPow 48 47, mprp := BitVec.twoPow 48 47 };
      ourTurn s s ∧ s.halted = none ∧ s.prp.getLsbD 47 = true ∧ s.mprp.getLsbD 47 = true ∧ externalPending s = true) ∧
    let u := { user with prp := 1, mprp := 1 }
    ourTurn { u with inputs := [.cpu] } u ∧ u.halted = none ∧ externalPending u = true :=
  ⟨⟨⟨rfl, .inl ⟨rfl, rfl⟩⟩, by decide +kernel⟩, ⟨⟨rfl, .inl ⟨rfl, rfl⟩⟩, by decide +kernel⟩,
    ⟨rfl, .inr ⟨[], rfl, rfl⟩⟩, by decide +kernel⟩

theorem witness_TimerExpires :
    let s := { user with grp := 1, mgrp := 1, timer := ⟨true, 1⟩ }
    ourTurn s s ∧ ∃ t, step s = .next t ∧ t.timer.armed = true :=
  ⟨⟨rfl, .inl ⟨rfl, rfl⟩⟩, next_of_has (p := fun t => t.timer.armed) (by decide +kernel)⟩

theorem witness_RecoveryDecides :
    ({ user with trapping := true } : State).trapping = true ∧
    (sup.trapping = false ∧ haltOn .privilege sup = true) ∧
    user.trapping = false ∧ haltOn .privilege user = false := by decide +kernel

theorem witness_OperandFaultsAreTaken :
    (let s := { user with rz := 4 };
      loadFault (operandAddr 0 0o5000 s) (popped 0 0o5000 s) = some ⟨.operandProt, some 2⟩) ∧
    (let s := { user with gen := user.gen.set 14 0o100, mem := [insn 0o2077 5] };
      loadFault (operandAddr 15 0 s) (popped 15 0 s) = some ⟨.ramCheck, some 1⟩) := by decide +kernel

/-- Also for `StopHalts`, `IjReturns` and, in user mode, `ExtracodesEnter`. -/
theorem witness_PrivilegedOpcodes : supervisor user = false ∧ supervisor sup = true := by decide

theorem witness_ResetModesHalt :
    let s := { State.reset with pc := 0o400, acc := 5 }
    s.psw = 0o2017 ∧ s.ruu.extracode = true ∧ s.rau.getLsbD 5 = false ∧ s.trapping = false := by decide

theorem witness_ReturnsUndoEntries :
    let s := { user with ruu := { user.ruu with right := true, modPending := true }, mod := 5 }
    (∃ f, internalEntry ⟨.privilege, none⟩ s = internalEntry f s) ∧
      externalEntry user = externalEntry user ∧ user.ruu.right = false :=
  ⟨⟨_, rfl⟩, rfl, rfl⟩

theorem witness_HostResetFlushes :
    let s := { sup with inputs := [.hostReset, .cpu], wb := oneLine 5 7 }
    s.inputs = .hostReset :: [.cpu] ∧ Memory.wf s.mem ∧
      (s.wb.lines[(0 : Fin 8).val].valid = true ∧ s.wb.lines[(0 : Fin 8).val].phys = 5 ∧
        ∀ j : Fin 8, 0 < j → ¬(s.wb.lines[j.val].valid = true ∧ s.wb.lines[j.val].phys = 5)) ∧
      ∀ i : Fin 8, ¬(s.wb.lines[i.val].valid = true ∧ s.wb.lines[i.val].phys = 6) := by decide +kernel

/-- For every statement about an instruction with a memory operand: in line, from the stack, and at address 0. -/
theorem witness_operandReadable :
    operandReadable 0 0o200 (supWith 5 7) ∧
    operandReadable 15 0 { user with gen := user.gen.set 14 0o100, mem := [number 0o2077 5] } ∧
    operandReadable 0 0 user := by
  unfold operandReadable; decide +kernel

theorem witness_DivideInstruction :
    (operandReadable 0 0o200 (supWith 5 0) ∧ operandWord 0 0o200 (supWith 5 0) = 0) ∧
    operandReadable 0 0o200 (supWith 5 1) ∧ operandWord 0 0o200 (supWith 5 1) ≠ 0 := by
  unfold operandReadable operandWord; decide +kernel

theorem witness_ReadRemainder :
    (let s := { sup with rau := 0o4 };
      s.rau.getLsbD 4 = false ∧ s.rau.getLsbD 3 = false ∧ s.rau.getLsbD 2 = true) ∧
    ({ sup with rau := 0o24 } : State).rau.getLsbD 4 = true ∧ ({ sup with rau := 0o14 } : State).rau.getLsbD 3 = true ∧
    ({ sup with rau := 0 } : State).rau.getLsbD 2 = false := by decide

theorem witness_StoreAccumulator :
    (Memory.wf sup.mem ∧ storeFault (effective 15 0 sup) sup = none) ∧
    (Memory.wf user.mem ∧ storeFault (effective 0 0o200 user) user = none) ∧
    ∃ t, exec (.atx 15 0) sup = .next t ∧ decide (t.halted = none) = true :=
  ⟨by decide +kernel, by decide +kernel, next_of_has (p := fun t => decide (t.halted = none)) (by decide +kernel)⟩

/-- A state with SP = 0100 and one word just below and one at 020. -/
def stacked (t : Tag) : State :=
  { sup with acc := 7, gen := sup.gen.set 14 0o100, mem := [(0o20, ⟨9, t⟩), (0o77, ⟨2, t⟩)] }

theorem witness_StoreAndPop :
    (∀ t ∈ [tagNumber, tagInsn], Memory.wf (stacked t).mem ∧ storeFault (effective 0 0o10 (stacked t)) (stacked t) = none) ∧
    (let s := stacked tagNumber;
      loadFault (sp s - 1) (setSp (sp s - 1) (stored (effective 0 0o10 s) s.acc s)) = none) ∧
    let s := stacked tagInsn
    loadFault (sp s - 1) (setSp (sp s - 1) (stored (effective 0 0o10 s) s.acc s)) = some ⟨.ramCheck, some 0⟩ := by
  decide +kernel

theorem witness_PushAndLoad :
    (∀ t ∈ [tagNumber, tagInsn], Memory.wf (stacked t).mem ∧ storeFault (sp (stacked t)) (stacked t) = none) ∧
    (let s := stacked tagNumber;
      let v := setSp (sp s + 1) (stored (sp s) s.acc s);
      loadFault (modified 0o20 s + idx 0 v) v = none) ∧
    let s := stacked tagInsn
    let v := setSp (sp s + 1) (stored (sp s) s.acc s)
    loadFault (modified 0o20 s + idx 0 v) v = some ⟨.ramCheck, some 0⟩ := by
  decide +kernel

theorem witness_RegisterFromAccPops :
    (let s := stacked tagNumber;
      selector (effective 0 5 s) s ≠ 0o17 ∧ loadFault (sp s - 1) (setSp (sp s - 1) s) = none) ∧
    (let s := { stacked tagNumber with acc := 0o20 };
      selector (effective 0 0o17 s) s = 0o17 ∧ loadFault (s.acc.extractLsb' 0 15) s = none) ∧
    (let s := stacked tagInsn;
      selector (effective 0 5 s) s ≠ 0o17 ∧
        loadFault (sp s - 1) (setSp (sp s - 1) s) = some ⟨.ramCheck, some 0⟩) ∧
    let s := { stacked tagInsn with acc := 0o20 }
    selector (effective 0 0o17 s) s = 0o17 ∧ loadFault (s.acc.extractLsb' 0 15) s = some ⟨.ramCheck, some 0⟩ := by
  decide +kernel

theorem witness_PushThenIndexToAcc :
    let s := stacked tagNumber
    Memory.wf s.mem ∧ storeFault (sp s) s = none ∧ ∃ t, exec (.its 0 0o17) s = .next t ∧ decide (t.halted = none) = true :=
  ⟨by decide +kernel, by decide +kernel, next_of_has (p := fun t => decide (t.halted = none)) (by decide +kernel)⟩

theorem witness_LiteralToIndex :
    ((0 : Idx) = 0 ∧ supervisor sup = true) ∧ ((0 : Idx) = 0 ∧ supervisor user = false) ∧ (15 : Idx) ≠ 0 := by decide

theorem witness_ModificationLastsOneHalf :
    ∃ t, exec (.utc 0 5) sup = .next t ∧ decide (t.halted = none) = true :=
  next_of_has (p := fun t => decide (t.halted = none)) (by decide +kernel)

/-- Every selector is reached in supervisor mode, the numbered ones at both ends of their ranges among them. -/
theorem witness_ModNumberedSubops :
    supervisor sup = true ∧ ∀ n < 256, selects 0 (BitVec.ofNat 15 n) sup n := by
  unfold selects; decide +kernel

theorem witness_ModOpenSubops :
    (∀ o, selects 0 (BitVec.ofNat 15 (Config.subopCodes.code o).toNat) sup (Config.subopCodes.code o).toNat) ∧
    (∀ k : Fin 8, selects 0 (BitVec.ofNat 15 (Config.subopCodes.ptrWriteS.toNat + k.val)) sup
      (Config.subopCodes.ptrWriteS.toNat + k.val)) ∧
    sparseWf Mailbox.empty sup.mbox :=
  ⟨fun _ => witness_ModNumberedSubops.2 _ (BitVec.isLt _),
    fun k => witness_ModNumberedSubops.2 _ (by have := Config.subopCodes.ptrInRange; omega), by decide⟩

theorem witness_ClaimTestsAndSets :
    (selects 0 (BitVec.ofNat 15 (Config.subopCodes.code .claim).toNat) (supWith 0o300 7)
      (Config.subopCodes.code .claim).toNat) ∧
    (supervisor (supWith 0o300 7) = true ∧ Memory.wf (supWith 0o300 7).mem ∧
      wbMisses (resolve (((supWith 0o300 7).acc).extractLsb' 0 15) (supWith 0o300 7)) (supWith 0o300 7)) ∧
    (let s := { supWith 5 7 with wb := oneLine 5 1 };
      supervisor s = true ∧ Memory.wf s.mem ∧ wbHits (resolve (s.acc.extractLsb' 0 15) s) 0 s) := by
  refine ⟨?_, ?_⟩
  · have h : ∀ n < 256, selects 0 (BitVec.ofNat 15 n) (supWith 0o300 7) n := by unfold selects; decide +kernel
    exact h _ (BitVec.isLt _)
  · unfold wbHits wbMisses; decide +kernel

/-- The selectors 0210 to 0236 are 23; the OPEN sub-operations take at most 17 of them, so one is unassigned. -/
theorem witness_ModOtherSelectors :
    (∃ n, selects 0 (BitVec.ofNat 15 n) sup n ∧ knownSelector (BitVec.ofNat 8 n) = false ∧
      (∀ i < 8, n ≠ Config.subopCodes.ptrWriteS.toNat + i) ∧ ∀ o, n ≠ (Config.subopCodes.code o).toNat) ∧
    selects 0 0o140 sup 0o140 ∧ selects 0 0o177 sup 0o177 := by
  refine ⟨?_, by unfold selects; decide +kernel⟩
  let taken : List Nat :=
    (List.range 8).map (Config.subopCodes.ptrWriteS.toNat + ·) ++
      openSubops.map fun o => (Config.subopCodes.code o).toNat
  have hk : ∀ n ∈ Finset.Ico 0o210 0o237, knownSelector (BitVec.ofNat 8 n) = false := by decide +kernel
  obtain ⟨n, hn, ht⟩ : ∃ n ∈ Finset.Ico 0o210 0o237, n ∉ taken.toFinset := by
    by_contra hc
    push Not at hc
    have h := (Finset.card_le_card hc).trans (List.toFinset_card_le taken)
    simp [taken, openSubops] at h
  have hn' := Finset.mem_Ico.mp hn
  refine ⟨n, witness_ModNumberedSubops.2 n (by omega), hk n hn, fun i hi he => ht ?_, fun o he => ht ?_⟩
  · exact List.mem_toFinset.mpr (List.mem_append.mpr (.inl (List.mem_map.mpr ⟨i, List.mem_range.mpr hi, he.symm⟩)))
  · exact List.mem_toFinset.mpr (List.mem_append.mpr (.inr (List.mem_map.mpr
      ⟨o, by cases o <;> decide, he.symm⟩)))

/-- A fair schedule: turn `n` delivers the channel whose two numbers the first part of `n`, read as a pair, pairs. -/
def everyChannel (n : Nat) : Input := .deliver n.unpair.1.unpair.1 n.unpair.1.unpair.2

theorem everyChannel_fair : fair everyChannel := fun src dst n =>
  ⟨Nat.pair (Nat.pair src dst) n, Nat.right_le_pair _ _, by simp [everyChannel]⟩

theorem afterDeliveries_unmarked (s : State) (h : s.refusalMark = none) (n : Nat) :
    (afterTurns everyChannel n s).refusalMark = none := by
  induction n with
  | zero => exact h
  | succ n ih =>
    have hd : ∀ a b (t : State), (deliverFrom a b t).refusalMark = t.refusalMark := by
      intro a b t; unfold deliverFrom; split
      · rfl
      · dsimp only; split <;> rfl
    have ht : ∀ a b (t : State), t.refusalMark = none → (turn (.deliver a b) t).refusalMark = none := by
      intro a b t h
      have hs : turn (.deliver a b) t = deliverFrom a b { t with inputs := [] } := by
        simp only [turn, step, refusedByMark, h, agentStep, applyInput]
      rw [hs]; exact (hd a b _).trans h
    exact ht _ _ _ ih

/-- A state about to run `EXT32` in supervisor mode, which is refused. -/
def refusing : State := { sup with mem := [insn 0o100 0x01A000000000] }

theorem refused_of_with {o : Host.Outcome State Fault Refusal} {r : Refusal} (h : refusedWith o r = true) :
    o = .refused r := by
  cases o with
  | refused q => exact congrArg _ (of_decide_eq_true h)
  | next t => cases h
  | fault f => cases h

/-- The refusal mark set, on the processor's turn and on another agent's, and a refused step that sets it. -/
theorem witness_refusal :
    (let s := { sup with refusalMark := some .deviceCommand };
      s.refusalMark = some .deviceCommand ∧ s.inputs.head? ≠ some .hostReset) ∧
    (let s := { sup with refusalMark := some .deviceCommand, inputs := [.hostResume] };
      s.refusalMark = some .deviceCommand ∧ s.inputs.head? ≠ some .hostReset) ∧
    step { afterTurns (fun _ => .cpu) 0 refusing with inputs := [.cpu] } = .refused .deviceCommand ∧
    ∀ k i : Nat, 0 < i → i ≤ 0 + k → (fun _ : Nat => Input.cpu) i ≠ .hostReset :=
  ⟨by decide, by decide, refused_of_with (by decide +kernel), by simp⟩

theorem witness_AgentsTakeTurns :
    sup.refusalMark = none ∧ (∀ s : State, s.refusalMark = none → ∀ n, (afterTurns everyChannel n s).refusalMark = none) ∧
    ({ sup with halted := some .host } : State).halted = some .host ∧ sup.halted = none ∧
    (∀ n ∈ ({ sup with chan := [⟨1, 0, .request, 3⟩] } : State).chan, ¬(n.src = 0 ∧ n.dst = 1)) ∧
    (∀ dst, let m : Message := ⟨1, dst, .request, 0x35⟩;
      let n : Message := ⟨0, dst, .response, 0x21⟩;
      let s := { sup with chan := [n, m] };
      s.chan = [n] ++ m :: [] ∧ (∀ n' ∈ [n], ¬(n'.src = m.src ∧ n'.dst = m.dst)) ∧ sparseWf Mailbox.empty s.mbox) ∧
    Config.topology.self + 1 ≠ Config.topology.self ∧
    (0#21).toNat < memWords sup ∧ (0xFFFFF#21).toNat < memWords sup ∧
    (let s := { sup with chan := [⟨1, 0, .request, 3⟩, ⟨0, 1, .request, 4⟩, ⟨1, 0, .response, 5⟩] };
      fair everyChannel ∧ (s.chan.filter fun m => m.src = 1 ∧ m.dst = 0) = [⟨1, 0, .request, 3⟩] ++ [⟨1, 0, .response, 5⟩]) :=
  ⟨rfl, afterDeliveries_unmarked, rfl, rfl, by decide, fun dst => ⟨rfl, by simp, (by decide : sparseWf Mailbox.empty sup.mbox)⟩, by omega, by decide +kernel, by decide +kernel,
    everyChannel_fair, by decide⟩

/-- A state with a buffered word, a cached instruction and memory, about to run `ATX 6`. -/
def busy : State :=
  { sup with
    mem := [insn 0o100 0x000006000000]
    wb := oneLine 5 7
    mbox := [(1, ⟨⟨5, true⟩, ⟨0, false⟩⟩)] }

theorem witness_StepKeepsInvariant : Inv busy ∧ ∃ t, step busy = .next t ∧ (t.wb.lines[1].word == 0) = true :=
  ⟨{ wbGood :=
      { total := recencyTotal_of_all (by decide +kernel)
        oldest := by decide +kernel
        unique := by decide +kernel
        inside := by decide +kernel }
     pfGood :=
      { total := recencyTotal_of_all (by decide +kernel)
        oldest := by decide +kernel
        unique := by decide +kernel }
     memWf := by decide +kernel
     memInside := by decide +kernel
     mboxWf := by decide +kernel },
   next_of_has (p := fun t => t.wb.lines[1].word == 0) (by decide +kernel)⟩

theorem witness_UserModeIsConfined :
    supervisor user = false ∧
    (∃ t, exec (.ij 3 0) user = .next t ∧ supervisor t = true) ∧
    (∃ t, exec (.e77 0 0) user = .next t ∧ supervisor t = true) ∧
    ∃ t, exec (.ntr 0 0) user = .next t ∧ (!supervisor t) = true :=
  ⟨by decide, next_of_has (p := supervisor) (by decide +kernel), next_of_has (p := supervisor) (by decide +kernel),
    next_of_has (p := fun t => !supervisor t) (by decide +kernel)⟩

end Sys2Proof.Machine
end

