-- ==== Sys2Proof/Proofs/Scope.lean ====
section
/-!
PROOFS. The statements about the scope of the model: every translated address lies inside memory, and every step keeps
the invariant and the setup.
-/

namespace Sys2Proof.Machine

/-! ### Resolution and translation -/

/-- The resolved address as a number: the supervisor-space bit is 2^15 (R82). -/
theorem resolve_toNat (a : Addr) (s : State) :
    (resolve a s).toNat = if supervisor s || mmapDisable s then 2 ^ 15 + a.toNat else a.toNat := by
  have hw : (a.setWidth 16).toNat = a.toNat := by
    rw [BitVec.toNat_setWidth]; exact Nat.mod_eq_of_lt (by omega)
  unfold resolve
  split
  · rw [BitVec.toNat_or, hw]
    exact (Nat.two_pow_add_eq_or_of_lt a.isLt 1).symm
  · exact hw

/-- The translated address as a number: the page above the ten offset bits (R83). -/
theorem translate_toNat (k : Key) (s : State) :
    (translate k s).toNat = (tlbEntry (tableOf k s) (pageOf k) s).toNat * 1024 + k.toNat % 1024 := by
  have ho : (k.extractLsb' 0 10).toNat = k.toNat % 1024 := BitVec.extractLsb'_toNat 0 10 k
  rw [translate, BitVec.toNat_append, ho, ← Nat.shiftLeft_add_eq_or_of_lt (Nat.mod_lt _ (by decide)),
    Nat.shiftLeft_eq]

/-- Page `4i + e` is entry `e` of register `i` (R91). -/
theorem tlbEntry_of_register (rp : Vector Word 8) (i : Fin 8) (e : Fin 4) (s : State) :
    (tlbEntry rp (BitVec.ofNat 5 (4 * i.val + e.val)) s).toNat = (pageEntry rp[i.val] e.val).toNat % physPages s := by
  have hp : (BitVec.ofNat 5 (4 * i.val + e.val)).toNat = 4 * i.val + e.val := by
    rw [BitVec.toNat_ofNat]; exact Nat.mod_eq_of_lt (by omega)
  have hi : (BitVec.ofNat 5 (4 * i.val + e.val)).toNat / 4 = i.val := by omega
  have he : (BitVec.ofNat 5 (4 * i.val + e.val)).toNat % 4 = e.val := by omega
  rw [tlbEntry_toNat, he]
  simp only [hi]

/-- Settles O7, each part by the lemma that gives its operation as a number. -/
theorem addressesTranslate : Obligations.AddressesTranslate := by
  intro a k s
  refine ⟨?_, translate_toNat k s, translate_lt k s, rfl, fun rp i e => tlbEntry_of_register rp i e s⟩
  rw [resolve_toNat]
  simp [supervisor, mmapDisable, or_assoc]

/-! ### What a part of a half preserves

`Preserves` puts the frame of Laws/Frame.lean beside the invariant, so that each operation is looked at once. -/

/-- The fields that the invariant and `Keeps` look at. -/
def watched (s : State) : Setup × List Input × List Message × WriteBuffer × Prefetch × Memory × List (Nat × Mailbox) :=
  (s.setup, s.inputs, s.chan, s.wb, s.pf, s.mem, s.mbox)

/-- `t` keeps the setup and the tape of `s`, continues its channels, and meets the invariant if `s` does. -/
structure Preserves (s t : State) : Prop where
  keeps : Keeps s t
  inv : Inv s → Inv t

theorem Preserves.refl (s : State) : Preserves s s := ⟨Keeps.refl s, id⟩

theorem Preserves.trans {s t u : State} (h : Preserves s t) (k : Preserves t u) : Preserves s u :=
  ⟨h.keeps.trans k.keeps, k.inv ∘ h.inv⟩

/-- An update of fields that are not watched. -/
theorem Preserves.update {s t u : State} (h : Preserves s t) (e : watched u = watched t) : Preserves s u := by
  simp only [watched, Prod.mk.injEq] at e
  obtain ⟨hs, hi, hc, hw, hp, hm, hb⟩ := e
  exact ⟨h.keeps.congr hs hi hc, fun hv => inv_congr (h.inv hv) hs hw hp hm hb⟩

theorem preserves_of_watched_eq {s t : State} (e : watched t = watched s) : Preserves s t :=
  (Preserves.refl s).update e

/-- A part of a half that goes on with a second part. -/
theorem preserves_bind {α β : Type} {s : State} {x : Res α} {f : α → State → Res β}
    (hx : Preserves s (Res.state x)) (hf : ∀ a t, Preserves t (Res.state (f a t))) :
    Preserves s (Res.state (x.bind f)) :=
  bind_state (Preserves s) x f hx fun a t h => h.trans (hf a t)

/-! ### Registers and operands -/

theorem preserves_setIdx (r : Idx) (v : Addr) (s : State) : Preserves s (setIdx r v s) :=
  ⟨keeps_setIdx r v s, inv_setIdx⟩

theorem preserves_writeM (j : BitVec 5) (v : Key) (s : State) : Preserves s (writeM j v s) :=
  ⟨keeps_writeM j v s, inv_writeM⟩

theorem preserves_popSp (s : State) : Preserves s (popSp s) := (preserves_setIdx spIdx (sp s - 1) s).update rfl

theorem preserves_pushSp (s : State) : Preserves s (pushSp s) := (preserves_setIdx spIdx (sp s + 1) s).update rfl

theorem preserves_popped (r : Idx) (addr : Addr) (s : State) : Preserves s (popped r addr s) :=
  ⟨keeps_popped r addr s, inv_popped⟩

theorem preserves_load (a : Addr) (s : State) : Preserves s (Res.state (load a s)) := by
  rw [load_state]; exact Preserves.refl s

theorem preserves_store (a : Addr) (w : Word) (s : State) : Preserves s (Res.state (store a w s)) :=
  ⟨keeps_store a w s, inv_store⟩

/-- ACC replaced and the group set: what most instructions without a fault end with (R223). -/
theorem preserves_accGroup (g : Group) (w : Word) (s : State) : Preserves s (setGroup g { s with acc := w }) :=
  preserves_of_watched_eq rfl

theorem preserves_loadAcc (a : Addr) (s : State) : Preserves s (Res.state (loadAcc a s)) :=
  preserves_bind (preserves_load a s) fun x t => preserves_accGroup .logical x t

theorem preserves_literalToPsw (r : Idx) (v : Addr) (s : State) : Preserves s (literalToPsw r v s) := by
  unfold literalToPsw; split
  · exact preserves_of_watched_eq rfl
  · exact Preserves.refl s

theorem preserves_jump (a : Addr) (s : State) : Preserves s (jump a s) := preserves_of_watched_eq rfl

theorem preserves_jumpIf (c : Bool) (a : Addr) (s : State) : Preserves s (jumpIf c a s) := by
  unfold jumpIf; split
  · exact preserves_jump a s
  · exact Preserves.refl s

theorem preserves_arith (g : Group) (res : ArithResult) (s : State) : Preserves s (Res.state (arith g res s)) := by
  cases res with
  | ok a m => exact preserves_of_watched_eq rfl
  | overflow => exact Preserves.refl s

theorem preserves_arithDiv (res : DivResult) (s : State) : Preserves s (Res.state (arithDiv res s)) := by
  cases res with
  | ok a m => exact preserves_of_watched_eq rfl
  | overflow | divZero => exact Preserves.refl s

/-! ### Special registers -/

theorem preserves_setWbWord (k : Fin 8) (w : Word) (t : Tag) (s : State) :
    Preserves s (setWbLine k { s.wb.lines[k.val] with word := w, tag := t } s) :=
  ⟨(Keeps.refl s).congr rfl rfl rfl, inv_setWbWord⟩

theorem preserves_memWrite {p : Phys} {s : State} (hp : p.toNat < memWords s) (c : MemCell) :
    Preserves s (memWrite p c s) :=
  ⟨(Keeps.refl s).congr rfl rfl rfl, fun h => inv_memWrite h hp⟩

theorem preserves_setMailbox (n : Nat) (b : Mailbox) (s : State) : Preserves s (setMailbox n b s) :=
  ⟨(Keeps.refl s).congr rfl rfl rfl, inv_setMailbox⟩

theorem preserves_appendChan (m : Message) (s : State) : Preserves s { s with chan := s.chan ++ [m] } :=
  ⟨⟨rfl, rfl, [m], rfl⟩, fun h => inv_congr h rfl rfl rfl rfl rfl⟩

theorem preserves_flushKey (k : Key) (s : State) : Preserves s (flushKey k s) := by
  unfold flushKey; split
  · exact ⟨keeps_flushLine _ s, inv_flushLine⟩
  · exact Preserves.refl s

theorem preserves_sendByte (k : MsgKind) (ea : Addr) (s : State) : Preserves s (sendByte k ea s) := by
  unfold sendByte; dsimp only; split
  · exact preserves_appendChan _ s
  · exact Preserves.refl s

theorem preserves_recvByte (k : MsgKind) (ea : Addr) (s : State) : Preserves s (recvByte k ea s) := by
  unfold recvByte; dsimp only; split
  · exact (preserves_setMailbox _ _ s).update rfl
  · exact preserves_of_watched_eq rfl

theorem preserves_programTimer (s : State) : Preserves s (programTimer s) := by
  unfold programTimer; dsimp only; split <;> exact preserves_of_watched_eq rfl

theorem preserves_setClaimed {p : Phys} {s : State} (hp : p.toNat < memWords s) : Preserves s (setClaimed p s) := by
  unfold setClaimed; dsimp only; split
  · exact Preserves.refl s
  · exact preserves_memWrite hp _

/-- The claimed cell is a translated one, and the flush before it leaves the size of memory (R357). -/
theorem preserves_flushAndClaim (k : Key) (s : State) :
    Preserves s (setClaimed (translate k s) (flushKey k s)) := by
  have hf : Preserves s (flushKey k s) := preserves_flushKey k s
  have hp : (translate k s).toNat < memWords (flushKey k s) := by
    rw [memWords_congr hf.keeps.setup]; exact translate_lt k s
  exact hf.trans (preserves_setClaimed hp)

theorem preserves_claim (s : State) : Preserves s (claim s) :=
  (preserves_flushAndClaim (resolve (s.acc.setWidth 15) s) s).update rfl

theorem preserves_runOpenSubop (ea : Addr) (s : State) (o : OpenSubop) : Preserves s (runOpenSubop ea s o) := by
  cases o with
  | prpRead | cpuId => exact preserves_of_watched_eq rfl
  | flush => exact ⟨keeps_flushAll s, inv_flushAll⟩
  | sendReq | sendRsp => exact preserves_sendByte _ ea s
  | recvReq | recvRsp => exact preserves_recvByte _ ea s
  | timer => exact preserves_programTimer s
  | claim => exact preserves_claim s

theorem preserves_runSubop (ea : Addr) (s : State) (o : Subop) : Preserves s (runSubop ea s o) := by
  cases o with
  | wbWrite k => exact preserves_setWbWord k _ _ s
  | openOp o => exact preserves_runOpenSubop ea s o
  | noOp => exact Preserves.refl s
  | wbRead | ptrWriteU | ptrWriteS | protWrite | mprpWrite | prpClear | mgrpWrite | grpClear | grpRead | control =>
    exact preserves_of_watched_eq rfl

/-! ### The outcome of a half -/

/-- If the outcome is a next state, that state preserves what `s` has. -/
def OutcomePreserves (s : State) (o : Host.Outcome State Fault Refusal) : Prop := ∀ t, o = .next t → Preserves s t

theorem outcomePreserves_next {s t : State} (h : Preserves s t) : OutcomePreserves s (.next t) := by
  rintro u ⟨⟩; exact h

theorem outcomePreserves_refused (s : State) (r : Refusal) : OutcomePreserves s (.refused r) := by
  rintro u ⟨⟩

theorem outcomePreserves_fault (s : State) (f : Fault) : OutcomePreserves s (.fault f) := by
  rintro u ⟨⟩

theorem OutcomePreserves.of_trans {s t : State} {o : Host.Outcome State Fault Refusal} (h : Preserves s t)
    (k : OutcomePreserves t o) : OutcomePreserves s o := fun u hu => h.trans (k u hu)

theorem run_preserves {op : Op} {s : State} {e : State → Res Unit} (he : ∀ t, Preserves t (Res.state (e t))) :
    OutcomePreserves s (run op s e) := by
  have hb : Preserves s (beginHalf s) := preserves_of_watched_eq rfl
  have h : Preserves s (Res.state (e (beginHalf s))) := hb.trans (he (beginHalf s))
  exact outcomePreserves_next ⟨keeps_runHalf h.keeps, fun hv => inv_runHalf hv (h.inv hv) h.keeps⟩

theorem runPure_preserves {op : Op} {s : State} {e : State → State} (he : ∀ t, Preserves t (e t)) :
    OutcomePreserves s (runPure op s e) := run_preserves he

theorem runStoring_preserves {op : Op} (a : Addr) {s : State} {e : State → Res Unit}
    (he : ∀ t, Preserves t (Res.state (e t))) : OutcomePreserves s (runStoring op a s e) := by
  rw [runStoring_eq]; exact run_preserves he

theorem runPrivileged_preserves {op : Op} {s : State} {e : State → Res Unit}
    (he : ∀ t, Preserves t (Res.state (e t))) : OutcomePreserves s (runPrivileged op s e) := by
  refine run_preserves fun t => ?_
  split
  · exact he t
  · exact Preserves.refl t

/-- A half that reads its operand and goes on with the loaded word (R222). -/
theorem runOperand_preserves {op : Op} {r : Idx} {addr : Addr} {s : State} {f : Word → State → Res Unit}
    (hf : ∀ x t, Preserves t (Res.state (f x t))) :
    OutcomePreserves s (run op s fun t => (operandX r addr t).bind f) :=
  run_preserves fun t => preserves_bind ⟨keeps_operandX r addr t, inv_operandX⟩ hf

theorem runWithX_preserves {op : Op} {r : Idx} {addr : Addr} {s : State} {f : Word → State → State}
    (hf : ∀ x t, Preserves t (f x t)) : OutcomePreserves s (runWithX op r addr s f) :=
  runOperand_preserves hf

theorem runExtracode_preserves {op : Op} {x : Extracode} {r : Idx} {addr : Addr} {s : State} :
    OutcomePreserves s (runExtracode op x r addr s) :=
  runPure_preserves fun t => (preserves_setIdx 14 (effective r addr t) t).update rfl

theorem deviceCommand_preserves {op : Op} {s : State} : OutcomePreserves s (deviceCommand op s) := by
  unfold deviceCommand; split
  · exact outcomePreserves_refused s _
  · exact runPrivileged_preserves Preserves.refl

/-! ### Instructions with an effect of their own -/

theorem execYta_preserves {r : Idx} {addr : Addr} {s : State} : OutcomePreserves s (execYta r addr s) := by
  refine run_preserves fun t => ?_
  split
  · exact preserves_of_watched_eq rfl
  · split
    · exact preserves_of_watched_eq rfl
    · exact Preserves.refl t

theorem execAtx_preserves {r : Idx} {addr : Addr} {s : State} : OutcomePreserves s (execAtx r addr s) := by
  refine runStoring_preserves (effective r addr s) fun t => preserves_bind (preserves_store _ _ t) fun _ u => ?_
  split
  · exact preserves_setIdx spIdx (sp u + 1) u
  · exact Preserves.refl u

theorem execSti_preserves {r : Idx} {addr : Addr} {s : State} : OutcomePreserves s (execSti r addr s) := by
  refine run_preserves fun t => ?_
  have hpop : Preserves t (if selector (effective r addr t) t == 0o17 then t else popSp t) := by
    split
    · exact Preserves.refl t
    · exact preserves_popSp t
  refine preserves_bind (hpop.trans (preserves_load _ _)) fun x w => ?_
  have hacc : Preserves w { w with acc := x } := preserves_of_watched_eq rfl
  exact (hacc.trans (preserves_writeM _ _ _)).update rfl

theorem execVlm_preserves {r : Idx} {addr : Addr} {s : State} : OutcomePreserves s (execVlm r addr s) := by
  refine runPure_preserves fun t => ?_
  split
  · exact (preserves_setIdx r _ t).trans (preserves_jump _ _)
  · exact Preserves.refl t

theorem execStop_preserves {r : Idx} {addr : Addr} {s : State} : OutcomePreserves s (execStop r addr s) := by
  unfold execStop; split
  · exact outcomePreserves_next (preserves_of_watched_eq rfl)
  · exact runExtracode_preserves

theorem execMod_preserves {r : Idx} {addr : Addr} {s : State} : OutcomePreserves s (execMod r addr s) := by
  unfold execMod; dsimp only; split
  · exact outcomePreserves_refused s _
  · exact runPrivileged_preserves fun t => preserves_runSubop _ t _

/-- Every instruction preserves the frame and the invariant, whether it completes or traps. -/
theorem exec_preserves (i : Instr) (s : State) : OutcomePreserves s (exec i s) := by
  cases i with
  | addX | subX | rsubX | amx | avx | mulX | eaddX | esubX =>
    exact runOperand_preserves fun _ _ => preserves_arith _ _ _
  | divX => exact runOperand_preserves fun _ _ => preserves_arithDiv _ _
  | eaddN | esubN => exact run_preserves fun _ => preserves_arith _ _ _
  | arx | wtc => exact runOperand_preserves fun _ _ => preserves_of_watched_eq rfl
  | aax | aex | aox | acx | anx | apx | aux | asx | xtr =>
    exact runWithX_preserves fun _ _ => preserves_of_watched_eq rfl
  | rte | ita => exact runPure_preserves fun t => preserves_accGroup _ _ t
  | asn | ntr | utc => exact runPure_preserves fun _ => preserves_of_watched_eq rfl
  | yta => exact execYta_preserves
  | xta r addr => exact run_preserves fun t => (preserves_popped r addr t).trans (preserves_loadAcc _ _)
  | atx => exact execAtx_preserves
  | stx r addr =>
    exact runStoring_preserves (effective r addr s) fun t => preserves_bind (preserves_store _ _ t) fun _ u =>
      (preserves_popSp u).trans (preserves_loadAcc _ _)
  | xts =>
    exact runStoring_preserves (sp s) fun t => preserves_bind (preserves_store _ _ t) fun _ u =>
      (preserves_pushSp u).trans (preserves_loadAcc _ _)
  | its =>
    exact runStoring_preserves (sp s) fun t => preserves_bind (preserves_store _ _ t) fun _ u =>
      (preserves_pushSp u).update rfl
  | sti => exact execSti_preserves
  | ati | mtj | jaddM => exact runPure_preserves fun t => preserves_writeM _ _ t
  | vtm | utm =>
    exact runPure_preserves fun t => (preserves_setIdx _ _ t).trans (preserves_literalToPsw _ _ _)
  | uza | u1a =>
    exact runPure_preserves fun t =>
      Preserves.trans (t := { t with rmr := t.acc }) (preserves_of_watched_eq rfl) (preserves_jumpIf _ _ _)
  | uj => exact runPure_preserves fun t => preserves_jump _ t
  | vjm => exact runPure_preserves fun t => (preserves_setIdx _ _ t).trans (preserves_jump _ _)
  | vzm | v1m => exact runPure_preserves fun t => preserves_jumpIf _ _ t
  | vlm => exact execVlm_preserves
  | ij => exact runPrivileged_preserves fun _ => preserves_of_watched_eq rfl
  | stop => exact execStop_preserves
  | mod => exact execMod_preserves
  | ext32 | ext33 => exact deviceCommand_preserves
  | e46 | e47 | e50 | e51 | e52 | e53 | e54 | e55 | e56 | e57 | e60 | e61 | e62 | e63 | e64 | e65 | e66 | e67 | e70
  | e71 | e72 | e73 | e74 | e75 | e76 | e77 | e20 | e21 | e36 => exact runExtracode_preserves

/-! ### A step of the processor -/

theorem preserves_expireTimer (s : State) : Preserves s (expireTimer s) := by
  unfold expireTimer; split
  · exact preserves_of_watched_eq rfl
  · exact Preserves.refl s

theorem preserves_recover (f : Trap) (s : State) : Preserves s (recover f s) := ⟨keeps_recover f s, inv_recover⟩

theorem preserves_fetch (a : Addr) (s : State) : Preserves s (Res.state (fetch a s)) := by
  unfold fetch; split
  · exact Preserves.refl s
  · exact ⟨keeps_fetchCommit _ s, inv_fetchCommit⟩

theorem halfStep_preserves (s : State) : OutcomePreserves s (halfStep s) := by
  have hf := preserves_fetch s.pc s
  unfold halfStep
  cases hr : fetch s.pc s with
  | raised f t => rw [hr] at hf; exact outcomePreserves_next (hf.trans (preserves_recover f t))
  | ok w t => rw [hr] at hf; exact (exec_preserves _ t).of_trans hf

theorem endStep_preserves {s : State} {o : Host.Outcome State Fault Refusal} (h : OutcomePreserves s o) :
    OutcomePreserves s (endStep o) := by
  cases o with
  | next t => exact outcomePreserves_next ((h t rfl).trans (preserves_expireTimer t))
  | fault f => exact outcomePreserves_fault s f
  | refused r => exact outcomePreserves_refused s r

theorem processorStep_preserves (s : State) : OutcomePreserves s (processorStep s) := by
  unfold processorStep; split
  · exact outcomePreserves_fault s _
  · refine endStep_preserves ?_
    split
    · exact outcomePreserves_next (preserves_of_watched_eq rfl)
    · exact halfStep_preserves s

/-! ### The other agents

A delivery takes an entry from a channel and a host reset replaces most of the state, so these two do not preserve the
channels; the invariant and the setup they keep. -/

/-- With every pair bit clear, the later of two lines is the more recent. -/
theorem newer_zero {w n i j : Nat} (h : i ≠ j) : newer n (0 : BitVec w) i j = decide (j < i) := by
  rcases Nat.lt_or_gt_of_ne h with h1 | h1
  · simp [newer, h1, Nat.lt_asymm h1]
  · simp [newer, h1, Nat.lt_asymm h1]

theorem recencyTotal_zero (w n : Nat) : recencyTotal n (0 : BitVec w) := by
  intro i _ j _ k _ hij hjk hik h1 h2
  rw [newer_zero hij, decide_eq_true_iff] at h1
  rw [newer_zero hjk, decide_eq_true_iff] at h2
  rw [newer_zero hik, decide_eq_true_iff]
  exact h2.trans h1

theorem isOldest_zero (w n : Nat) : isOldest n (0 : BitVec w) 0 = true :=
  isOldest_iff.2 fun j _ hj => by rw [newer_zero hj, decide_eq_true_iff]; omega

/-- The write buffer of a reset machine is good for every size of memory (R45, R460). -/
theorem wbGood_empty (words : Nat) : WbGood words WriteBuffer.empty := by
  have hinvalid : ∀ i : Fin 8, WriteBuffer.empty.lines[i.val].valid ≠ true := by
    intro i; simp [WriteBuffer.empty, WbLine.empty]
  exact ⟨recencyTotal_zero 28 8, isOldest_zero 28 8, fun i _ hi => absurd hi (hinvalid i),
    fun i hi => absurd hi (hinvalid i)⟩

/-- The prefetch cache of a reset machine is good (R46, R460). -/
theorem pfGood_empty : PfGood Prefetch.empty := by
  have hinvalid : ∀ i : Fin 4, Prefetch.empty.lines[i.val].valid ≠ true := by
    intro i; simp [Prefetch.empty, PfLine.empty]
  exact ⟨recencyTotal_zero 6 4, isOldest_zero 6 4, fun i _ hi => absurd hi (hinvalid i)⟩

/-- A host reset leaves empty caches and mailboxes and the flushed memory (R460). -/
theorem inv_processorReset {s : State} (h : Inv s) : Inv (processorReset s) := by
  have hf : Inv (flushAll s) := inv_flushAll h
  have hmem : (processorReset s).mem = (flushAll s).mem := by
    simp only [processorReset, Params.resetFlushes, if_true]
  have hwords : memWords (processorReset s) = memWords (flushAll s) :=
    (memWords_congr rfl).trans (memWords_congr (keeps_flushAll s).setup).symm
  exact {
    wbGood := wbGood_empty _
    pfGood := pfGood_empty
    memWf := by rw [hmem]; exact hf.memWf
    memInside := by rw [hmem, hwords]; exact hf.memInside
    mboxWf := ⟨List.Pairwise.nil, fun _ hc => absurd hc List.not_mem_nil⟩ }

theorem inv_receive {m : Message} {s : State} (h : Inv s) : Inv (receive m s) :=
  inv_congr (inv_setMailbox h) rfl rfl rfl rfl rfl

theorem inv_deliverFrom {src dst : Nat} {s : State} (h : Inv s) : Inv (deliverFrom src dst s) := by
  have ht : Inv { s with chan := s.chan.eraseP (inChannel src dst) } := inv_congr h rfl rfl rfl rfl rfl
  unfold deliverFrom; split
  · exact h
  · dsimp only; split
    · exact inv_receive ht
    · exact ht

theorem deliverFrom_setup (src dst : Nat) (s : State) : (deliverFrom src dst s).setup = s.setup := by
  unfold deliverFrom; split
  · rfl
  · dsimp only; split <;> rfl

theorem preserves_hostWrite (s : State) (w : HostWrite) : Preserves s (hostWrite s w) := by
  cases w with
  | m j v => exact preserves_writeM j v s
  | acc | rmr | pc | rau | ruu | grp | mgrp | prp | mprp | rpU | rpS | rz | trapping | clock | timer =>
    exact preserves_of_watched_eq rfl

theorem Preserves.inv_setup {s t : State} (p : Preserves s t) (h : Inv s) : Inv t ∧ t.setup = s.setup :=
  ⟨p.inv h, p.keeps.setup⟩

/-- Every agent's turn keeps the invariant and the setup (R430, R434, R440, R460). -/
theorem applyInput_inv_setup {s : State} (h : Inv s) (e : Input) :
    Inv (applyInput s e) ∧ (applyInput s e).setup = s.setup := by
  cases e with
  | cpu => exact ⟨h, rfl⟩
  | device | hostHalt | hostResume => exact Preserves.inv_setup (s := s) (preserves_of_watched_eq rfl) h
  | send m => exact (preserves_appendChan m s).inv_setup h
  | deliver src dst => exact ⟨inv_deliverFrom h, deliverFrom_setup src dst s⟩
  | memWrite p c =>
    simp only [applyInput]; split
    · next hp => exact (preserves_memWrite hp c).inv_setup h
    · exact ⟨h, rfl⟩
  | hostReset => exact ⟨inv_processorReset h, rfl⟩
  | hostSet w =>
    simp only [applyInput]; split
    · exact (preserves_hostWrite s w).inv_setup h
    · exact ⟨h, rfl⟩

theorem agentStep_inv_setup {s t : State} (h : Inv s) (hs : agentStep s = .next t) : Inv t ∧ t.setup = s.setup := by
  have hpop : ∀ l, Inv { s with inputs := l } := fun _ => inv_congr h rfl rfl rfl rfl rfl
  unfold agentStep at hs
  split at hs
  · exact (processorStep_preserves s t hs).inv_setup h
  · exact (processorStep_preserves _ t hs).inv_setup (hpop _)
  · cases hs; exact applyInput_inv_setup (hpop _) _

/-- Settles O58: a step is refused by the mark or is one agent's turn, and every turn keeps the invariant and the
setup. -/
theorem stepKeepsInvariant : Obligations.StepKeepsInvariant := by
  intro s t h hs
  unfold step at hs
  split at hs
  · cases hs
  · exact agentStep_inv_setup h hs

end Sys2Proof.Machine
end

section
/-!
PROOFS. The statements about the state itself: what the register file reads back, what reset leaves, the turns of the
other agents, and what a half in user mode cannot change.
-/

namespace Sys2Proof.Machine

/-! ### The register file -/

/-- `M[020]`..`M[037]`, `M[020 + k]` at index `k`: the slots that only a 5-bit selector reaches (R32, R33). -/
def specialSlots (s : State) : Vector Key 16 :=
  #v[s.mod.setWidth 16, s.psw.setWidth 16, s.m22.setWidth 16, s.m23.setWidth 16, s.m24.setWidth 16, s.m25.setWidth 16,
    s.m26.setWidth 16, s.spsw.setWidth 16, s.ret0.setWidth 16, s.ret1.setWidth 16, s.eret.setWidth 16,
    s.iret.setWidth 16, s.ibp, s.dwp, s.m36.setWidth 16, s.m37.setWidth 16]

/-- The selector of special slot `k`. -/
def specialSel (k : Fin 16) : BitVec 5 := BitVec.ofNat 5 (16 + k.val)

theorem specialSel_inj {k l : Fin 16} : specialSel k = specialSel l ↔ k = l := by
  revert k l; decide

/-- A selector is one of a special slot or of a general register. -/
theorem general_or_special (j : BitVec 5) : j.toNat < 16 ∨ ∃ k, j = specialSel k := by
  revert j; decide

theorem specialSel_not_general (k : Fin 16) : ¬(specialSel k).toNat < 16 := by
  revert k; decide

theorem readM_special (k : Fin 16) (s : State) : readM (specialSel k) s = (specialSlots s)[k.val] := by
  fin_cases k <;> rfl

theorem specialSlots_writeM_special (k : Fin 16) (v : Key) (s : State) :
    specialSlots (writeM (specialSel k) v s) = (specialSlots s).set k.val (keptValue (specialSel k) v) := by
  fin_cases k <;> rfl

theorem gen_writeM_special (k : Fin 16) (v : Key) (s : State) : (writeM (specialSel k) v s).gen = s.gen := by
  fin_cases k <;> rfl

theorem specialSlots_setIdx (r : Idx) (v : Addr) (s : State) : specialSlots (setIdx r v s) = specialSlots s := by
  unfold setIdx; split <;> rfl

/-- What a general register keeps of a value (R32, R33). -/
theorem keptValue_general {j : BitVec 5} (hj : j.toNat < 16) (v : Key) :
    keptValue j v = if j = 0 then 0 else (v.setWidth 15).setWidth 16 := by
  have h : ¬(j = 0o34 ∨ j = 0o35) := by rintro (rfl | rfl) <;> simp at hj
  simp only [keptValue, if_neg h]

/-- Two general registers are one when their index fields are. -/
theorem general_inj {i j : BitVec 5} (hi : i.toNat < 16) (hj : j.toNat < 16) :
    i.setWidth 4 = j.setWidth 4 ↔ i = j := by
  simp only [← BitVec.toNat_inj, BitVec.toNat_setWidth]
  omega

/-- A read of a slot after a write of a slot (R32, R33). -/
theorem readM_writeM (i j : BitVec 5) (v : Key) (s : State) :
    readM i (writeM j v s) = if i = j then keptValue j v else readM i s := by
  rcases general_or_special j with hj | ⟨l, rfl⟩
  · rcases general_or_special i with hi | ⟨k, rfl⟩
    · have h0 : j.setWidth 4 = 0#4 ↔ j = 0 := general_inj hj (j := 0) (by decide)
      rw [writeM_general hj, readM_general hi, readM_general hi, idx_setIdx, keptValue_general hj]
      simp only [general_inj hi hj, ne_eq, h0]
      by_cases hij : i = j
      · subst hij
        by_cases hz : i = 0#5
        · subst hz; simp
        · simp [hz]
      · simp [hij]
    · have hne : specialSel k ≠ j := fun e => specialSel_not_general k (e ▸ hj)
      rw [if_neg hne, readM_special, readM_special, writeM_general hj]
      simp only [specialSlots_setIdx]
  · rcases general_or_special i with hi | ⟨k, rfl⟩
    · have hne : i ≠ specialSel l := fun e => specialSel_not_general l (e ▸ hi)
      rw [if_neg hne, readM_general hi, readM_general hi, idx_congr (gen_writeM_special l v s)]
    · rw [readM_special, readM_special]
      simp only [specialSel_inj, specialSlots_writeM_special, Vector.getElem_set, Fin.val_inj, eq_comm]

/-- "Writes to 15-bit slots keep the low 15 bits" (R33). -/
theorem low15_eq_and (v : Key) : (v.setWidth 15).setWidth 16 = v &&& 0o77777 := by
  apply BitVec.eq_of_toNat_eq
  have hlt : v.toNat % 2 ^ 15 < 2 ^ 16 := by omega
  rw [BitVec.toNat_and, BitVec.toNat_setWidth, BitVec.toNat_setWidth, Nat.mod_eq_of_lt hlt]
  exact (Nat.and_two_pow_sub_one_eq_mod v.toNat 15).symm

/-- A write changes no field outside the register file (R32, R33). -/
theorem writeM_frame (j : BitVec 5) (v : Key) (s : State) :
    { writeM j v s with
      gen := s.gen, mod := s.mod, psw := s.psw, m22 := s.m22, m23 := s.m23, m24 := s.m24, m25 := s.m25, m26 := s.m26
      spsw := s.spsw, ret0 := s.ret0, ret1 := s.ret1, eret := s.eret, iret := s.iret, ibp := s.ibp, dwp := s.dwp
      m36 := s.m36, m37 := s.m37 } = s := by
  rcases general_or_special j with hj | ⟨k, rfl⟩
  · rw [writeM_general hj, setIdx]; split <;> rfl
  · fin_cases k <;> rfl

theorem idxSelector_general (r : Idx) : (r.setWidth 5).toNat < 16 ∧ (r.setWidth 5).setWidth 4 = r := by
  revert r; decide

/-- The register a transfer instruction reaches: five bits of the address in supervisor mode, four outside (R33). -/
theorem selector_toNat (x : Addr) (s : State) :
    (selector x s).toNat = x.toNat % (if supervisor s then 32 else 16) := by
  unfold selector
  split
  · exact BitVec.toNat_setWidth 5 x
  · rw [BitVec.toNat_setWidth, BitVec.toNat_setWidth]
    exact Nat.mod_eq_of_lt (by omega)

/-- Settles O6, each part by its rule of the register file. -/
theorem registerFileReadsBack : Obligations.RegisterFileReadsBack := by
  intro i j v r x s
  obtain ⟨hr, hw⟩ := idxSelector_general r
  refine ⟨rfl, ?_, writeM_frame j v s, ?_, ?_, rfl, rfl, selector_toNat x s⟩
  · rw [readM_writeM, keptValue, low15_eq_and]
  · rw [readM_general hr, hw]
  · rw [writeM_general hr, hw, BitVec.setWidth_setWidth_of_le x (by decide), BitVec.setWidth_eq]

/-! ### The reset state -/

/-- Settles O57: the caches are empty, and memory and the mailboxes list nothing. -/
theorem invariantAtReset : Obligations.InvariantAtReset where
  wbGood := wbGood_empty _
  pfGood := pfGood_empty
  memWf := reset_mem_wf
  memInside := fun _ hc => absurd hc List.not_mem_nil
  mboxWf := ⟨List.Pairwise.nil, fun _ hc => absurd hc List.not_mem_nil⟩

/-- The register file after reset (R37, R39, R460). -/
theorem readM_reset (j : BitVec 5) :
    readM j State.reset = if j = 0o21 then 0o2017 else if j = 0o27 then 0o2007 else 0 := by
  revert j; decide

theorem reset_wb_invalid (i : Fin 8) : State.reset.wb.lines[i.val].valid = false := by
  simp [State.reset, WriteBuffer.empty, WbLine.empty]

theorem reset_pf_invalid (i : Fin 4) : State.reset.pf.lines[i.val].valid = false := by
  simp [State.reset, Prefetch.empty, PfLine.empty]

/-- Settles O23: every pair bit is clear, so the later of two lines is the more recent; the rest is what the reset
state says. -/
theorem resetState : Obligations.ResetState :=
  ⟨rfl, rfl, readM_reset, rfl, rfl, rfl, rfl, rfl, rfl, rfl, reset_wb_invalid, reset_pf_invalid,
    fun _ _ _ _ h => newer_zero h, rfl, fun _ _ _ _ h => newer_zero h, rfl, rfl, rfl, rfl, rfl, rfl, rfl, rfl, rfl,
    fun _ => ⟨rfl, rfl⟩⟩

/-! ### The turns of the other agents -/

/-- A set refusal mark refuses every step but a host reset (R194). -/
theorem step_marked {s : State} {r : Refusal} (hm : s.refusalMark = some r) (hh : s.inputs.head? ≠ some .hostReset) :
    step s = .refused r := by
  have h : refusedByMark s = some r := by
    unfold refusedByMark; split
    · next hi => rw [hi] at hh; exact absurd rfl hh
    · exact hm
  rw [step, h]

/-- Without a refusal mark the agent at the head of the tape moves (R442). -/
theorem step_unmarked {s : State} (hm : s.refusalMark = none) : step s = agentStep s := by
  have h : refusedByMark s = none := by
    unfold refusedByMark; split
    · rfl
    · exact hm
  rw [step, h]

/-- The turn of an agent other than the processor (R442). -/
theorem step_agent {s : State} {e : Input} (hm : s.refusalMark = none) (he : e ≠ .cpu) (l : List Input) :
    step { s with inputs := e :: l } = .next (applyInput { s with inputs := l } e) := by
  rw [step_unmarked (s := { s with inputs := e :: l }) hm]
  cases e with
  | cpu => exact absurd rfl he
  | device | send | deliver | memWrite | hostHalt | hostReset | hostResume | hostSet => rfl

/-- A halted processor takes no step (R51). -/
theorem processorStep_halted {s : State} {c : StopCode} (hh : s.halted = some c) :
    processorStep s = .fault (.halted c) := by
  rw [processorStep, hh]

theorem step_halted {s : State} {c : StopCode} (hm : s.refusalMark = none) (hh : s.halted = some c) (l : List Input) :
    step { s with inputs := [] } = .fault (.halted c) ∧ step { s with inputs := .cpu :: l } = .fault (.halted c) := by
  rw [step_unmarked (s := { s with inputs := [] }) hm, step_unmarked (s := { s with inputs := .cpu :: l }) hm]
  exact ⟨processorStep_halted (s := { s with inputs := [] }) hh, processorStep_halted (s := { s with inputs := l }) hh⟩

/-- On a halted processor the host's write is done (R434). -/
theorem step_hostSet_halted {s : State} {c : StopCode} (hm : s.refusalMark = none) (hh : s.halted = some c)
    (l : List Input) (w : HostWrite) :
    step { s with inputs := .hostSet w :: l } = .next (hostWrite { s with inputs := l } w) := by
  rw [step_agent hm (by simp)]
  simp [applyInput, hh]

/-- On a running processor it is not (R434). -/
theorem step_hostSet_running {s : State} (hm : s.refusalMark = none) (hh : s.halted = none) (l : List Input)
    (w : HostWrite) : step { s with inputs := .hostSet w :: l } = .next { s with inputs := l } := by
  rw [step_agent hm (by simp)]
  simp [applyInput, hh]

theorem step_memWrite {s : State} (hm : s.refusalMark = none) {p : Phys} (hp : p.toNat < memWords s) (c : MemCell)
    (l : List Input) :
    step { s with inputs := .memWrite p c :: l } = .next { memWrite p c s with inputs := l } := by
  have hp' : p.toNat < memWords { s with inputs := l } := hp
  rw [step_agent hm (by simp), applyInput, if_pos hp']
  rfl

/-! #### A delivery -/

theorem inChannel_iff {src dst : Nat} {m : Message} : inChannel src dst m = true ↔ m.src = src ∧ m.dst = dst := by
  simp [inChannel]

/-- An empty channel delivers nothing (R440). -/
theorem deliverFrom_none {src dst : Nat} {s : State} (h : ∀ n ∈ s.chan, ¬(n.src = src ∧ n.dst = dst)) :
    deliverFrom src dst s = s := by
  have hf : s.chan.find? (inChannel src dst) = none :=
    List.find?_eq_none.2 fun n hn hc => h n hn (inChannel_iff.1 hc)
  rw [deliverFrom, hf]

/-- A delivery takes the first entry of its channel (R440). -/
theorem deliverFrom_first {m : Message} {c d : List Message} {s : State} (hs : s.chan = c ++ m :: d)
    (hc : ∀ n ∈ c, ¬(n.src = m.src ∧ n.dst = m.dst)) :
    deliverFrom m.src m.dst s =
      if m.dst = Config.topology.self then receive m { s with chan := c ++ d } else { s with chan := c ++ d } := by
  have hm : inChannel m.src m.dst m = true := inChannel_iff.2 ⟨rfl, rfl⟩
  have hn : ∀ n ∈ c, ¬inChannel m.src m.dst n = true := fun n hn hi => hc n hn (inChannel_iff.1 hi)
  have hfind : s.chan.find? (inChannel m.src m.dst) = some m := by
    rw [hs, List.find?_append, List.find?_eq_none.2 hn, List.find?_cons_of_pos hm]; rfl
  have herase : s.chan.eraseP (inChannel m.src m.dst) = c ++ d := by
    rw [hs, List.eraseP_append_right _ hn, List.eraseP_cons_of_pos hm]
  rw [deliverFrom, hfind]
  simp only [herase]

/-- A byte of a mailbox after a byte is put there: the new one full, the other as before (R440). -/
theorem byteOf_withByte (b : Mailbox) (k j : MsgKind) (v : MailByte) :
    (b.withByte k v).byteOf j = if j = k then v else b.byteOf j := by
  cases k <;> cases j <;> rfl

/-- The mailboxes after an entry is received (R53, R440). -/
theorem receive_mbox {m : Message} {s : State} (h : sparseWf Mailbox.empty s.mbox) (n : Nat) (k : MsgKind) :
    (sparseGet Mailbox.empty (receive m s).mbox n).byteOf k =
      if n = m.src ∧ k = m.kind then ⟨m.byte, true⟩ else (mailbox n s).byteOf k := by
  have hr : sparseGet Mailbox.empty (receive m s).mbox n =
      mailbox n (setMailbox m.src ((mailbox m.src s).withByte m.kind ⟨m.byte, true⟩) s) := rfl
  rw [hr, mailbox_setMailbox h]
  by_cases hn : n = m.src
  · subst hn; simp [byteOf_withByte]
  · simp [hn]

/-- What a delivery to this processor does: the channel loses the entry, its mailbox gets the byte, PRP its cause bit
and the byte's low nibble (R440). -/
theorem step_deliver_self {s : State} (hmark : s.refusalMark = none) {m : Message} {c d : List Message}
    (hs : s.chan = c ++ m :: d) (hc : ∀ n ∈ c, ¬(n.src = m.src ∧ n.dst = m.dst)) (hself : m.dst = Config.topology.self)
    (l : List Input) :
    step { s with inputs := .deliver m.src m.dst :: l } =
      .next { s with
        inputs := l, chan := c ++ d, mbox := (receive m s).mbox, prp := s.prp ||| prpBits m.kind m.src m.byte } := by
  rw [step_agent hmark (by simp), applyInput, deliverFrom_first (s := { s with inputs := l }) hs hc, if_pos hself]
  rfl

theorem step_deliver_other {s : State} (hmark : s.refusalMark = none) {m : Message} {c d : List Message}
    (hs : s.chan = c ++ m :: d) (hc : ∀ n ∈ c, ¬(n.src = m.src ∧ n.dst = m.dst))
    (hother : m.dst ≠ Config.topology.self) (l : List Input) :
    step { s with inputs := .deliver m.src m.dst :: l } = .next { s with inputs := l, chan := c ++ d } := by
  rw [step_agent hmark (by simp), applyInput, deliverFrom_first (s := { s with inputs := l }) hs hc, if_neg hother]

theorem step_deliver_empty {s : State} (hmark : s.refusalMark = none) {src dst : Nat}
    (h : ∀ n ∈ s.chan, ¬(n.src = src ∧ n.dst = dst)) (l : List Input) :
    step { s with inputs := .deliver src dst :: l } = .next { s with inputs := l } := by
  rw [step_agent hmark (by simp), applyInput, deliverFrom_none (s := { s with inputs := l }) h]

/-! #### A schedule of turns -/

theorem turn_next {e : Input} {s t : State} (h : step { s with inputs := [e] } = .next t) : turn e s = t := by
  rw [turn, h]

theorem turn_fault {e : Input} {s : State} {f : Fault} (h : step { s with inputs := [e] } = .fault f) :
    turn e s = s := by
  rw [turn, h]

theorem turn_refused {e : Input} {s : State} {r : Refusal} (h : step { s with inputs := [e] } = .refused r) :
    turn e s = markRefused r s := by
  rw [turn, h]

/-- On a marked state every turn but a host reset leaves all as it is (R194). -/
theorem turn_marked {e : Input} {s : State} {r : Refusal} (hm : s.refusalMark = some r) (he : e ≠ .hostReset) :
    turn e s = s := by
  have hh : step { s with inputs := [e] } = .refused r :=
    step_marked (s := { s with inputs := [e] }) hm (by simpa using he)
  rw [turn_refused hh, markRefused, ← hm]

/-- After a refused turn the schedule changes nothing until a host reset (R194, R460). -/
theorem afterTurns_refused {schedule : Nat → Input} {s : State} {r : Refusal} {n : Nat}
    (hr : step { afterTurns schedule n s with inputs := [schedule n] } = .refused r) (k : Nat)
    (hk : ∀ i, n < i → i ≤ n + k → schedule i ≠ .hostReset) :
    afterTurns schedule (n + 1 + k) s = markRefused r (afterTurns schedule n s) := by
  induction k with
  | zero => exact turn_refused hr
  | succ k ih =>
    have hprev := ih fun i hi hik => hk i hi (by omega)
    calc afterTurns schedule (n + 1 + (k + 1)) s
        = turn (schedule (n + 1 + k)) (afterTurns schedule (n + 1 + k) s) := rfl
      _ = afterTurns schedule (n + 1 + k) s :=
        turn_marked (r := r) (by rw [hprev]; rfl) (hk _ (by omega) (by omega))
      _ = markRefused r (afterTurns schedule n s) := hprev

/-! #### The entries of a channel over a schedule -/

/-- The entries that a channel holds, oldest first (R440). -/
def channel (src dst : Nat) (s : State) : List Message := s.chan.filter (inChannel src dst)

theorem channel_eq (src dst : Nat) (s : State) :
    channel src dst s = s.chan.filter fun m => m.src = src ∧ m.dst = dst := by
  refine List.filter_congr fun m _ => ?_
  rw [Bool.eq_iff_iff, inChannel_iff, decide_eq_true_iff]

theorem channel_congr {s t : State} (h : t.chan = s.chan) (src dst : Nat) : channel src dst t = channel src dst s := by
  rw [channel, channel, h]

theorem channel_append {s t : State} {c : List Message} (h : t.chan = s.chan ++ c) (src dst : Nat) :
    channel src dst t = channel src dst s ++ c.filter (inChannel src dst) := by
  rw [channel, channel, h, List.filter_append]

theorem filter_eraseP_self {α : Type} (p : α → Bool) (l : List α) : (l.eraseP p).filter p = (l.filter p).tail := by
  induction l with
  | nil => rfl
  | cons a l ih => by_cases h : p a <;> simp [h, ih]

theorem filter_eraseP_disjoint {α : Type} {p q : α → Bool} (hpq : ∀ a, p a = true → q a = false) (l : List α) :
    (l.eraseP p).filter q = l.filter q := by
  induction l with
  | nil => rfl
  | cons a l ih =>
    by_cases h : p a
    · simp [h, hpq a h]
    · simp [h, List.filter_cons, ih]

/-- A delivery leaves the channels without its first entry, received or not (R440). -/
theorem deliverFrom_chan (src dst : Nat) (s : State) :
    (deliverFrom src dst s).chan = s.chan.eraseP (inChannel src dst) := by
  unfold deliverFrom
  split
  · next h => exact (List.eraseP_of_forall_not (List.find?_eq_none.1 h)).symm
  · dsimp only; split <;> rfl

/-- The delivery's turn takes the oldest entry of its channel (R440). -/
theorem turn_deliver {s : State} (hm : s.refusalMark = none) (src dst : Nat) :
    channel src dst (turn (.deliver src dst) s) = (channel src dst s).tail := by
  have hc : (turn (.deliver src dst) s).chan = s.chan.eraseP (inChannel src dst) := by
    rw [turn_next (step_agent hm (by simp) [])]
    exact deliverFrom_chan src dst { s with inputs := [] }
  rw [channel, hc, filter_eraseP_self, channel]

/-- What an agent does appends to a channel, unless it is that channel's delivery. -/
theorem applyInput_channel {src dst : Nat} {e : Input} (he : e ≠ .deliver src dst) (s : State) :
    ∃ c, channel src dst (applyInput s e) = channel src dst s ++ c := by
  cases e with
  | cpu | device | hostHalt | hostReset | hostResume => exact ⟨[], (List.append_nil _).symm⟩
  | send m => exact ⟨_, channel_append (c := [m]) rfl src dst⟩
  | deliver src' dst' =>
    have hd : ∀ m, inChannel src' dst' m = true → inChannel src dst m = false := by
      intro m hm
      rw [Bool.eq_false_iff]
      intro hm'
      obtain ⟨rfl, rfl⟩ := inChannel_iff.1 hm
      obtain ⟨rfl, rfl⟩ := inChannel_iff.1 hm'
      exact he rfl
    refine ⟨[], ?_⟩
    rw [List.append_nil, channel, applyInput, deliverFrom_chan, filter_eraseP_disjoint hd, channel]
  | memWrite p c =>
    refine ⟨[], ?_⟩
    rw [List.append_nil]
    exact channel_congr (by simp only [applyInput]; split <;> rfl) src dst
  | hostSet w =>
    obtain ⟨c, hc⟩ : ∃ c, (applyInput s (.hostSet w)).chan = s.chan ++ c := by
      simp only [applyInput]; split
      · exact (preserves_hostWrite s w).keeps.chan
      · exact ⟨[], (List.append_nil _).symm⟩
    exact ⟨_, channel_append hc src dst⟩

/-- The processor only appends to a channel (R350, R440). -/
theorem turn_cpu_channel {s : State} (hm : s.refusalMark = none) (src dst : Nat) :
    ∃ c, channel src dst (turn .cpu s) = channel src dst s ++ c := by
  have hstep : step { s with inputs := [.cpu] } = processorStep { s with inputs := [] } :=
    step_unmarked (s := { s with inputs := [.cpu] }) hm
  cases h : processorStep { s with inputs := [] } with
  | next t =>
    obtain ⟨c, hc⟩ := (processorStep_preserves _ t h).keeps.chan
    rw [turn_next (hstep.trans h)]
    exact ⟨_, channel_append (s := s) hc src dst⟩
  | fault f => rw [turn_fault (hstep.trans h)]; exact ⟨[], (List.append_nil _).symm⟩
  | refused r => rw [turn_refused (hstep.trans h)]; exact ⟨[], (List.append_nil _).symm⟩

/-- A turn that is not the channel's delivery only appends to it. -/
theorem turn_appends {s : State} (hm : s.refusalMark = none) {src dst : Nat} {e : Input} (he : e ≠ .deliver src dst) :
    ∃ c, channel src dst (turn e s) = channel src dst s ++ c := by
  by_cases hcpu : e = .cpu
  · subst hcpu; exact turn_cpu_channel hm src dst
  · rw [turn_next (step_agent hm hcpu [])]
    exact applyInput_channel he { s with inputs := [] }

/-- While a channel has not had more deliveries than it held entries, it holds what is left of them, oldest first,
with the later ones behind. -/
theorem channel_afterTurns {schedule : Nat → Input} {s : State}
    (hmark : ∀ n, (afterTurns schedule n s).refusalMark = none) (src dst : Nat) (n : Nat)
    (hn : n.count (fun i => schedule i = .deliver src dst) ≤ (channel src dst s).length) :
    ∃ e, channel src dst (afterTurns schedule n s) =
      (channel src dst s).drop (n.count fun i => schedule i = .deliver src dst) ++ e := by
  induction n with
  | zero => exact ⟨[], by simp [afterTurns]⟩
  | succ n ih =>
    rw [Nat.count_succ] at hn ⊢
    obtain ⟨e, hprev⟩ := ih (by omega)
    by_cases hd : schedule n = .deliver src dst
    · simp only [hd, if_true] at hn ⊢
      have hne : (channel src dst s).drop (n.count fun i => schedule i = .deliver src dst) ≠ [] := by
        rw [ne_eq, List.drop_eq_nil_iff]; omega
      refine ⟨e, ?_⟩
      rw [afterTurns, hd, turn_deliver (hmark n), hprev, List.tail_append_of_ne_nil hne, List.tail_drop]
    · simp only [hd, if_false, Nat.add_zero]
      obtain ⟨c, hc⟩ := turn_appends (hmark n) hd
      exact ⟨e ++ c, by rw [afterTurns, hc, hprev, List.append_assoc]⟩

/-- A fair schedule gives a channel every number of deliveries (R441). -/
theorem fair_count {schedule : Nat → Input} (hf : fair schedule) (src dst k : Nat) :
    ∃ n : Nat, n.count (fun i => schedule i = .deliver src dst) = k := by
  have hinf : {i | schedule i = .deliver src dst}.Infinite :=
    Nat.frequently_atTop_iff_infinite.1 (Filter.frequently_atTop.2 fun n => hf src dst n)
  exact Nat.surjective_count_of_infinite_setOfPred hinf k

/-- Under a fair schedule a channel loses the entries it held, oldest first (R441). -/
theorem fair_delivers {schedule : Nat → Input} {s : State} (hf : fair schedule)
    (hmark : ∀ n, (afterTurns schedule n s).refusalMark = none) {src dst : Nat} {p q : List Message}
    (hpq : channel src dst s = p ++ q) :
    ∃ (n : Nat) (e : List Message), channel src dst (afterTurns schedule n s) = q ++ e ∧
      n.count (fun i => schedule i = .deliver src dst) = p.length := by
  obtain ⟨n, hn⟩ := fair_count hf src dst p.length
  obtain ⟨e, he⟩ := channel_afterTurns hmark src dst n (by rw [hn, hpq]; simp)
  refine ⟨n, e, ?_, hn⟩
  rw [he, hn, hpq, List.drop_left]

/-- Settles O56: the mark, the turn of each agent by its own lemma, and fair delivery by counting deliveries. -/
theorem agentsTakeTurns : Obligations.AgentsTakeTurns := by
  refine ⟨fun s r hm hh => step_marked hm hh, fun schedule s r n hr k hk => afterTurns_refused hr k hk,
    fun s l hm => ⟨fun c hh => ?_, fun hh w => step_hostSet_running hm hh l w, fun g p => step_agent hm (by simp) l,
      fun m => step_agent hm (by simp) l, fun src dst h => step_deliver_empty hm h l,
      fun m c d hs hc => ⟨fun hother => step_deliver_other hm hs hc hother l, fun hself hwf => ?_⟩,
      fun p c hp => step_memWrite hm hp c l, step_agent hm (by simp) l, step_agent hm (by simp) l⟩,
    fun schedule s src dst p q hf hmark hpq => ?_⟩
  · obtain ⟨hempty, hcpu⟩ := step_halted hm hh l
    refine ⟨hempty, hcpu, fun w => ?_⟩
    rw [step_hostSet_halted hm hh]
    cases w <;> rfl
  · exact ⟨(receive m s).mbox, step_deliver_self hm hs hc hself l, receive_mbox hwf⟩
  · rw [← channel_eq] at hpq
    obtain ⟨n, e, hch, hcount⟩ := fair_delivers hf hmark hpq
    exact ⟨n, e, by rw [← channel_eq]; exact hch, hcount⟩

/-! ### What a half in user mode cannot change

`sealedPart` is what no user half changes at all, `guarded` what it changes by an entry only. -/

/-- The fields no half in user mode changes: page tables, protection, masks, PRP, the debug and return registers, the
timer, mailboxes, channels and control bits (R33, R191, R425). -/
def sealedPart (s : State) :
    Vector Word 8 × Vector Word 8 × BitVec 32 × Word × Word × Word × Key × Key × Addr × Addr × Timer ×
      List (Nat × Mailbox) × List Message × Bool × Bool × Bool :=
  (s.rpU, s.rpS, s.rz, s.mgrp, s.mprp, s.prp, s.ibp, s.dwp, s.ret0, s.ret1, s.timer, s.mbox, s.chan,
    s.ruu.avostDisable, s.ruu.convolLeft, s.ruu.convolRight)

/-- The protected part: those fields with the ones that an entry alone changes (R380, R411). -/
def guarded (s : State) :=
  (sealedPart s, s.ruu.extracode, s.ruu.interrupt, s.psw, s.spsw, s.eret, s.iret, s.grp)

theorem guarded_eq_iff {s t : State} :
    guarded t = guarded s ↔ sealedPart t = sealedPart s ∧ t.ruu.extracode = s.ruu.extracode ∧
      t.ruu.interrupt = s.ruu.interrupt ∧ t.psw = s.psw ∧ t.spsw = s.spsw ∧ t.eret = s.eret ∧ t.iret = s.iret ∧
      t.grp = s.grp := by
  simp only [guarded, Prod.mk.injEq]

theorem sealedPart_congr {s t : State} (h : guarded t = guarded s) : sealedPart t = sealedPart s :=
  congrArg Prod.fst h

/-- The mode bits are protected (R40). -/
theorem supervisor_congr {s t : State} (h : guarded t = guarded s) : supervisor t = supervisor s := by
  obtain ⟨-, hx, hi, -⟩ := guarded_eq_iff.1 h
  rw [supervisor, supervisor, hx, hi]

/-- What a user half from `s` to `t` can do: it leaves the protected state alone, or it takes an internal entry or an
extracode. -/
structure Confined (s t : State) : Prop where
  kept : sealedPart t = sealedPart s
  exit : guarded t = guarded s ∨
    (t.pc = Config.vecInt ∧ t.ruu.interrupt = true ∧ t.iret = s.pc ∧ t.trapping = true) ∨
    ((∃ x, t.pc = Config.vecXc x) ∧ t.ruu.extracode = true ∧ t.eret = (nextHalf s).1 ∧ t.grp = s.grp)

theorem Confined.of_guarded {s t : State} (h : guarded t = guarded s) : Confined s t :=
  ⟨sealedPart_congr h, .inl h⟩

/-! #### The parts of a half -/

/-- A part that keeps the protected state, followed by a second one that does. -/
theorem guarded_bind {α β : Type} {s : State} {x : Res α} {f : α → State → Res β}
    (hx : guarded (Res.state x) = guarded s)
    (hf : ∀ a t, guarded t = guarded s → guarded (Res.state (f a t)) = guarded s) :
    guarded (Res.state (x.bind f)) = guarded s :=
  bind_state (fun t => guarded t = guarded s) x f hx hf

theorem guarded_setIdx (r : Idx) (v : Addr) (s : State) : guarded (setIdx r v s) = guarded s := by
  unfold setIdx; split <;> rfl

theorem guarded_popSp (s : State) : guarded (popSp s) = guarded s := guarded_setIdx spIdx (sp s - 1) s

theorem guarded_pushSp (s : State) : guarded (pushSp s) = guarded s := guarded_setIdx spIdx (sp s + 1) s

theorem guarded_popped (r : Idx) (addr : Addr) (s : State) : guarded (popped r addr s) = guarded s := by
  unfold popped; split
  · exact guarded_popSp s
  · rfl

theorem guarded_load (a : Addr) (s : State) : guarded (Res.state (load a s)) = guarded s :=
  congrArg guarded (load_state a s)

theorem guarded_operandX (r : Idx) (addr : Addr) (s : State) : guarded (Res.state (operandX r addr s)) = guarded s :=
  (guarded_load _ _).trans (guarded_popped r addr s)

theorem guarded_store (a : Addr) (w : Word) (s : State) : guarded (Res.state (store a w s)) = guarded s := by
  rw [store_eq]; split
  · rfl
  · have h := congrArg guarded (stored_frame a w s)
    exact h

theorem guarded_loadAcc (a : Addr) (s : State) : guarded (Res.state (loadAcc a s)) = guarded s :=
  guarded_bind (guarded_load a s) fun _ _ h => h

theorem guarded_arith (g : Group) (res : ArithResult) (s : State) :
    guarded (Res.state (arith g res s)) = guarded s := by
  cases res <;> rfl

theorem guarded_arithDiv (res : DivResult) (s : State) : guarded (Res.state (arithDiv res s)) = guarded s := by
  cases res <;> rfl

theorem guarded_logical (res : Word × Word) (s : State) : guarded (logical res s) = guarded s := rfl

/-- A logical result whose RMR was a free value (R253). -/
theorem guarded_logical_draws (res : Word × Word) (n : Nat) (s : State) :
    guarded { logical res s with draws := n } = guarded s := rfl

/-- ACC replaced and the group set. -/
theorem guarded_accGroup (g : Group) (w : Word) (s : State) : guarded (setGroup g { s with acc := w }) = guarded s :=
  rfl

theorem guarded_jumpIf (c : Bool) (a : Addr) (s : State) : guarded (jumpIf c a s) = guarded s := by
  unfold jumpIf; split <;> rfl

/-- In user mode a transfer instruction reaches the general registers alone (R33). -/
theorem selector_user {s : State} (hs : supervisor s = false) (x : Addr) : (selector x s).toNat < 16 := by
  simp only [selector, hs]
  simp
  omega

theorem guarded_writeM_general {j : BitVec 5} (hj : j.toNat < 16) (v : Key) (s : State) :
    guarded (writeM j v s) = guarded s := by
  rw [writeM_general hj]; exact guarded_setIdx _ _ s

/-- Outside supervisor mode a literal never reaches PSW (R286, R287). -/
theorem literalToPsw_user {s : State} (hs : supervisor s = false) (r : Idx) (v : Addr) : literalToPsw r v s = s := by
  simp [literalToPsw, hs]

/-! #### The engine -/

theorem guarded_commit (op : Op) (t : State) : guarded (commit op t) = guarded t := by
  simp only [commit, advance_eq, installMod_eq]
  split
  · rfl
  · split <;> rfl

/-- The revert keeps the pc and the protected state of the half's start (R186). -/
theorem revert_guarded (f : Trap) (s t : State) : guarded (revert f s t) = guarded s ∧ (revert f s t).pc = s.pc := by
  unfold revert; dsimp only
  split <;> exact ⟨rfl, rfl⟩

theorem sealedPart_internalEntry (f : Trap) (s : State) : sealedPart (internalEntry f s) = sealedPart s := rfl

/-- A fault halts the processor or takes the internal entry, whose saved address is the half's (R410, R411). -/
theorem recover_confined {f : Trap} {s u : State} (hu : guarded u = guarded s) (hpc : u.pc = s.pc) :
    Confined s (recover f u) := by
  unfold recover
  split
  · exact .of_guarded hu
  · split
    · exact .of_guarded hu
    · exact ⟨(sealedPart_internalEntry f u).trans (sealedPart_congr hu), .inr (.inl ⟨rfl, rfl, hpc, rfl⟩)⟩

/-! #### The outcome of a half -/

/-- If the outcome is a next state, the half that led to it was confined. -/
def OutcomeConfined (s : State) (o : Host.Outcome State Fault Refusal) : Prop := ∀ t, o = .next t → Confined s t

theorem outcomeConfined_next {s t : State} (h : Confined s t) : OutcomeConfined s (.next t) := by
  rintro u ⟨⟩; exact h

/-- A half whose effect keeps the protected state is confined, whether it completes or raises. -/
theorem run_confined {op : Op} {s : State} {e : State → Res Unit}
    (he : guarded (Res.state (e (beginHalf s))) = guarded (beginHalf s)) : OutcomeConfined s (run op s e) := by
  refine outcomeConfined_next ?_
  unfold runHalf
  cases hr : e (beginHalf s) with
  | ok a t => rw [hr] at he; exact .of_guarded ((guarded_commit op t).trans he)
  | raised f t => exact recover_confined (revert_guarded f s t).1 (revert_guarded f s t).2

theorem runPure_confined {op : Op} {s : State} {e : State → State}
    (he : guarded (e (beginHalf s)) = guarded (beginHalf s)) : OutcomeConfined s (runPure op s e) := run_confined he

theorem runOperand_confined {op : Op} {r : Idx} {addr : Addr} {s : State} {f : Word → State → Res Unit}
    (hf : ∀ x t, guarded (Res.state (f x t)) = guarded t) :
    OutcomeConfined s (run op s fun t => (operandX r addr t).bind f) :=
  run_confined (guarded_bind (guarded_operandX r addr _) fun x t h => (hf x t).trans h)

theorem runWithX_confined {op : Op} {r : Idx} {addr : Addr} {s : State} {f : Word → State → State}
    (hf : ∀ x t, guarded (f x t) = guarded t) : OutcomeConfined s (runWithX op r addr s f) :=
  runOperand_confined hf

/-- A half that stores ACC and goes on (R110). -/
theorem runStore_confined {op : Op} (a : Addr) {b : State → Addr} {s : State} {f : State → Unit → State → Res Unit}
    (hf : ∀ t x u, guarded (Res.state (f t x u)) = guarded u) :
    OutcomeConfined s (runStoring op a s fun t => (store (b t) t.acc t).bind (f t)) := by
  rw [runStoring_eq]
  exact run_confined (guarded_bind (guarded_store _ _ _) fun x u h => (hf _ x u).trans h)

/-- A privileged half traps with PRIVILEGE (R191). -/
theorem runPrivileged_confined {op : Op} {s : State} (hs : supervisor s = false) (e : State → Res Unit) :
    OutcomeConfined s (runPrivileged op s e) := by
  rw [runPrivileged_user hs]; exact outcomeConfined_next (recover_confined rfl rfl)

theorem sealedPart_xcEntry (x : Extracode) (ea : Addr) (s : State) : sealedPart (xcEntry x ea s) = sealedPart s := by
  unfold xcEntry setIdx; rfl

theorem xcEntry_grp (x : Extracode) (ea : Addr) (s : State) : (xcEntry x ea s).grp = s.grp := by
  unfold xcEntry setIdx; rfl

/-- An extracode enters at its vector with the return address saved (R380). -/
theorem runExtracode_confined {op : Op} {x : Extracode} {r : Idx} {addr : Addr} {s : State} :
    OutcomeConfined s (runExtracode op x r addr s) := by
  refine outcomeConfined_next ?_
  have hc := guarded_commit op (xcEntry x (effective r addr (beginHalf s)) (beginHalf s))
  have hpc := (commit_jumped op (t := xcEntry x (effective r addr (beginHalf s)) (beginHalf s)) rfl).1
  obtain ⟨hk, hx, -, -, -, he, -, hg⟩ := guarded_eq_iff.1 hc
  exact ⟨hk.trans (sealedPart_xcEntry x _ _), .inr (.inr ⟨⟨x, hpc⟩, hx, he, hg.trans (xcEntry_grp x _ _)⟩)⟩

theorem deviceCommand_confined {op : Op} {s : State} (hs : supervisor s = false) :
    OutcomeConfined s (deviceCommand op s) := by
  rw [deviceCommand, if_neg (by simp [hs])]
  exact runPrivileged_confined hs _

/-! #### Instructions with an effect of their own -/

theorem execYta_confined {r : Idx} {addr : Addr} {s : State} : OutcomeConfined s (execYta r addr s) := by
  refine run_confined ?_
  split
  · rfl
  · split <;> rfl

theorem execAtx_confined {r : Idx} {addr : Addr} {s : State} : OutcomeConfined s (execAtx r addr s) := by
  refine runStore_confined (effective r addr s) fun t _ u => ?_
  split
  · exact guarded_setIdx spIdx (sp u + 1) u
  · rfl

theorem execSti_confined {r : Idx} {addr : Addr} {s : State} (hs : supervisor s = false) :
    OutcomeConfined s (execSti r addr s) := by
  refine run_confined ?_
  have hj := selector_user (s := beginHalf s) hs (effective r addr (beginHalf s))
  have hpop : guarded (if selector (effective r addr (beginHalf s)) (beginHalf s) == 0o17 then beginHalf s
      else popSp (beginHalf s)) = guarded (beginHalf s) := by
    split
    · rfl
    · exact guarded_popSp _
  exact guarded_bind ((guarded_load _ _).trans hpop) fun x w h => (guarded_writeM_general hj _ _).trans h

theorem execVlm_confined {r : Idx} {addr : Addr} {s : State} : OutcomeConfined s (execVlm r addr s) := by
  refine runPure_confined ?_
  split
  · exact guarded_setIdx r _ _
  · rfl

theorem execStop_confined {r : Idx} {addr : Addr} {s : State} (hs : supervisor s = false) :
    OutcomeConfined s (execStop r addr s) := by
  rw [execStop, if_neg (by simp [hs])]
  exact runExtracode_confined

theorem execMod_confined {r : Idx} {addr : Addr} {s : State} (hs : supervisor s = false) :
    OutcomeConfined s (execMod r addr s) := by
  unfold execMod; dsimp only
  rw [if_neg (by simp [hs])]
  exact runPrivileged_confined hs _

/-- In user mode a literal half writes its index register alone (R286, R287). -/
theorem literal_guarded {s : State} (hs : supervisor s = false) (r : Idx) (v : Addr) :
    guarded (literalToPsw r v (setIdx r v s)) = guarded s := by
  have h := guarded_setIdx r v s
  rw [literalToPsw_user ((supervisor_congr h).trans hs)]
  exact h

/-- Every instruction is confined in user mode, whether it completes, traps or enters an extracode. -/
theorem exec_confined (i : Instr) {s : State} (hs : supervisor s = false) : OutcomeConfined s (exec i s) := by
  cases i with
  | addX | subX | rsubX | amx | avx | mulX | eaddX | esubX =>
    exact runOperand_confined fun _ _ => guarded_arith _ _ _
  | divX => exact runOperand_confined fun _ _ => guarded_arithDiv _ _
  | eaddN | esubN => exact run_confined (guarded_arith _ _ _)
  | arx | wtc => exact runOperand_confined fun _ _ => rfl
  | aax | aex | aox | anx | apx | aux | asx => exact runWithX_confined fun _ _ => guarded_logical _ _
  | acx => exact runWithX_confined fun _ _ => guarded_logical_draws _ _ _
  | xtr => exact runWithX_confined fun _ _ => rfl
  | asn => exact runPure_confined (guarded_logical _ _)
  | rte | ita => exact runPure_confined (guarded_accGroup _ _ _)
  | ntr | utc | uj => exact runPure_confined rfl
  | yta => exact execYta_confined
  | xta r addr => exact run_confined ((guarded_loadAcc _ _).trans (guarded_popped r addr _))
  | atx => exact execAtx_confined
  | stx r addr =>
    exact runStore_confined (effective r addr s) fun _ _ u => (guarded_loadAcc _ _).trans (guarded_popSp u)
  | xts => exact runStore_confined (sp s) fun _ _ u => (guarded_loadAcc _ _).trans (guarded_pushSp u)
  | its => exact runStore_confined (sp s) fun _ _ u => guarded_pushSp u
  | sti => exact execSti_confined hs
  | ati | mtj | jaddM => exact runPure_confined (guarded_writeM_general (selector_user hs _) _ _)
  | vtm r | utm r => exact runPure_confined (literal_guarded (s := beginHalf s) hs r _)
  | uza | u1a | vzm | v1m => exact runPure_confined (guarded_jumpIf _ _ _)
  | vjm r => exact runPure_confined (guarded_setIdx r _ _)
  | vlm => exact execVlm_confined
  | ij => exact runPrivileged_confined hs _
  | stop => exact execStop_confined hs
  | mod => exact execMod_confined hs
  | ext32 | ext33 => exact deviceCommand_confined hs
  | e46 | e47 | e50 | e51 | e52 | e53 | e54 | e55 | e56 | e57 | e60 | e61 | e62 | e63 | e64 | e65 | e66 | e67 | e70
  | e71 | e72 | e73 | e74 | e75 | e76 | e77 | e20 | e21 | e36 => exact runExtracode_confined

/-- The fields that no user half changes. -/
theorem Confined.fields {s t : State} (h : Confined s t) :
    t.rpU = s.rpU ∧ t.rpS = s.rpS ∧ t.rz = s.rz ∧ t.mgrp = s.mgrp ∧ t.mprp = s.mprp ∧ t.prp = s.prp ∧
      t.ibp = s.ibp ∧ t.dwp = s.dwp ∧ t.ret0 = s.ret0 ∧ t.ret1 = s.ret1 ∧ t.timer = s.timer ∧ t.mbox = s.mbox ∧
      t.chan = s.chan ∧ t.ruu.avostDisable = s.ruu.avostDisable ∧ t.ruu.convolLeft = s.ruu.convolLeft ∧
      t.ruu.convolRight = s.ruu.convolRight := by
  have hk := h.kept
  simpa only [sealedPart, Prod.mk.injEq] using hk

/-- Settles O59: a user half is confined; supervisor mode tells its entries from the halves that stay. -/
theorem userModeIsConfined : Obligations.UserModeIsConfined := by
  intro i s t hs ht
  have h : Confined s t := exec_confined i hs t ht
  refine ⟨h.fields, fun hsup => ?_, fun huser => ?_⟩
  · rcases h.exit with hg | hint | hxc
    · rw [supervisor_congr hg, hs] at hsup; cases hsup
    · exact .inl hint
    · exact .inr hxc
  · rcases h.exit with hg | ⟨-, hi, -⟩ | ⟨-, hx, -⟩
    · obtain ⟨-, -, -, hkept⟩ := guarded_eq_iff.1 hg
      exact hkept
    · simp [supervisor, hi] at huser
    · simp [supervisor, hx] at huser

end Sys2Proof.Machine
end

section
/-!
PROOFS. The statements about memory: the page-table layout, the checks of loads, stores and fetches, and what each
access does to the write buffer, the prefetch cache and memory.
-/

namespace Sys2Proof.Machine

/-! ### The packed page-table layout -/

/-- A low bit of two joined fields is one of the second. -/
theorem getLsbD_append_of_lt {m n i : Nat} {x : BitVec m} {y : BitVec n} (h : i < n) :
    (x ++ y).getLsbD i = y.getLsbD i := by rw [BitVec.getLsbD_append, if_pos h]

/-- A high bit of two joined fields is one of the first. -/
theorem getLsbD_append_of_le {m n i : Nat} {x : BitVec m} {y : BitVec n} (h : n ≤ i) :
    (x ++ y).getLsbD i = x.getLsbD (i - n) := by rw [BitVec.getLsbD_append, if_neg (by omega)]

/-- A bit of a field, in the word it is cut from. -/
theorem getLsbD_extract_of_lt {m n i : Nat} (k : Nat) {x : BitVec m} (h : i < n) :
    (x.extractLsb' k n).getLsbD i = x.getLsbD (k + i) := by
  rw [BitVec.getLsbD_extractLsb', decide_eq_true h, Bool.true_and]

/-- The low bits of entry `e` of a packed register (R90). -/
theorem pageEntry_lowBit (R : Word) (e : Nat) {b : Nat} (hb : b < 5) :
    (pageEntry R e).getLsbD b = R.getLsbD (5 * e + b) := by
  rw [pageEntry, getLsbD_append_of_lt hb, getLsbD_extract_of_lt _ hb]

/-- The high bits of entry `e` of a packed register (R90). -/
theorem pageEntry_highBit (R : Word) (e : Nat) {h : Nat} (hh : h < 6) :
    (pageEntry R e).getLsbD (5 + h) = R.getLsbD (24 + 4 * h + e) := by
  rw [pageEntry]
  interval_cases h <;> simp (disch := omega) only [getLsbD_append_of_lt, getLsbD_append_of_le] <;> simp

/-- Nibble `h` holds high bit `h` of entry `e` in bit `e` (R92). -/
theorem packNibble_bit (p : Nat → BitVec 11) (h : Nat) {e : Nat} (he : e < 4) :
    (packNibble (p 0) (p 1) (p 2) (p 3) h).getLsbD e = (p e).getLsbD (5 + h) := by
  rw [packNibble]
  interval_cases e <;> simp (disch := omega) only [getLsbD_append_of_lt, getLsbD_append_of_le] <;> simp

/-- The low bits of four packed entries (R92). -/
theorem packEntries_lowBit (p : Nat → BitVec 11) {e b : Nat} (he : e < 4) (hb : b < 5) :
    (packEntries (p 0) (p 1) (p 2) (p 3)).getLsbD (5 * e + b) = (p e).getLsbD b := by
  rw [packEntries]
  interval_cases e <;>
    simp (disch := omega) only [getLsbD_append_of_lt, getLsbD_append_of_le, getLsbD_extract_of_lt] <;> congr 1 <;> omega

/-- The high bits of four packed entries (R92). -/
theorem packEntries_highBit (p : Nat → BitVec 11) {e h : Nat} (he : e < 4) (hh : h < 6) :
    (packEntries (p 0) (p 1) (p 2) (p 3)).getLsbD (24 + 4 * h + e) = (p e).getLsbD (5 + h) := by
  rw [← packNibble_bit p h he, packEntries]
  interval_cases h <;> simp (disch := omega) only [getLsbD_append_of_lt, getLsbD_append_of_le] <;> congr 1 <;> omega

/-- Packing loses none of its four entries (R90, R92). -/
theorem pageEntry_packEntries (p : Nat → BitVec 11) {e : Nat} (he : e < 4) :
    pageEntry (packEntries (p 0) (p 1) (p 2) (p 3)) e = p e := by
  refine BitVec.eq_of_getLsbD_eq fun n hn => ?_
  rcases Nat.lt_or_ge n 5 with hb | hb
  · rw [pageEntry_lowBit _ _ hb, packEntries_lowBit p he hb]
  · obtain ⟨h, rfl⟩ := Nat.exists_eq_add_of_le hb
    rw [pageEntry_highBit _ _ (by omega), packEntries_highBit p he (by omega)]

/-- Settles O8: the two bit ranges of the layout, and the four entries of `R` packed again. -/
theorem pageEntriesRepack : Obligations.PageEntriesRepack := by
  intro R s e he
  refine ⟨fun b hb => pageEntry_lowBit R e hb, fun h hh => pageEntry_highBit R e hh, ?_⟩
  rw [pageEntry_packEntries (pageEntry R) he]

/-! ### The checks of an access -/

/-- The logical page of an address as a number (R83). -/
theorem addrPage_toNat (a : Addr) : (a.extractLsb' 10 5).toNat = a.toNat / 1024 := by
  rw [BitVec.extractLsb'_toNat, Nat.shiftRight_eq_div_pow]
  exact Nat.mod_eq_of_lt (by omega)

/-- Resolution keeps the logical page of an address (R82, R83). -/
theorem pageOf_resolve_toNat (a : Addr) (s : State) : (pageOf (resolve a s)).toNat = a.toNat / 1024 := by
  have h := resolve_toNat a s
  rw [pageOf, BitVec.extractLsb'_toNat, Nat.shiftRight_eq_div_pow]
  split at h <;> omega

/-- The protection check faults on a protected page, unless it is off or the address exempt (R100, R101, R102). -/
theorem protFault_eq (a : Addr) (s : State) :
    protFault a s =
      if s.psw.getLsbD 1 = false ∧ ¬(supervisor s ∧ s.psw.getLsbD 0 ∧ a.toNat < Config.exemptLimit) ∧
          s.rz.getLsbD (a.toNat / 1024) then some ⟨.operandProt, some (a.toNat / 1024)⟩
      else none := by
  have hx : exempt a s = true ↔ supervisor s ∧ s.psw.getLsbD 0 ∧ a.toNat < Config.exemptLimit := by
    simp [exempt, mmapDisable, and_assoc]
  simp only [protFault, protDisable, protIndex, Params.protIndex, addrPage_toNat, hx]
  split_ifs <;> simp_all

/-- The watchpoint check faults on the watched address (R103). -/
theorem watchFault_eq (k : Key) (s : State) :
    watchFault k s = if s.psw.getLsbD 4 ∧ s.dwp = k then some ⟨.watchpoint, none⟩ else none := by
  simp [watchFault, writeWatch]

theorem storeFault_eq_or {a : Addr} (ha : a ≠ 0) (s : State) :
    storeFault a s = (protFault a s).or (watchFault (resolve a s) s) := by
  rw [storeFault, if_neg ha]
  cases protFault a s <;> rfl

/-- The checks of a store are protection, then the watchpoint (R110, R403). -/
theorem storeFault_eq {a : Addr} (ha : a ≠ 0) (s : State) :
    storeFault a s =
      (if s.psw.getLsbD 1 = false ∧ ¬(supervisor s ∧ s.psw.getLsbD 0 ∧ a.toNat < Config.exemptLimit) ∧
          s.rz.getLsbD (a.toNat / 1024) then some ⟨.operandProt, some (a.toNat / 1024)⟩
      else if s.psw.getLsbD 4 ∧ s.dwp = resolve a s then some ⟨.watchpoint, none⟩ else none) := by
  rw [storeFault_eq_or ha, protFault_eq, watchFault_eq]
  split <;> rfl

/-- A load makes the checks of a store, then looks at the tag it finds (R106, R115). -/
theorem loadFault_eq_storeFault_or {a : Addr} (ha : a ≠ 0) (s : State) :
    loadFault a s = (storeFault a s).or
      (if (loadCell (resolve a s) s).1.tag = 2 ∨ (loadCell (resolve a s) s).1.tag = 0 then none
      else some ⟨.ramCheck, some (loadCell (resolve a s) s).2⟩) := by
  simp only [loadFault, storeFault, if_neg ha, Params.loadWatch, if_true, Params.acceptedLoadTag, tagNumber,
    Bool.or_eq_true, beq_iff_eq]
  cases protFault a s with
  | some f => rfl
  | none => cases watchFault (resolve a s) s <;> rfl

/-- A load that hits a buffer line finds its word and tag (R115). -/
theorem loadCell_hit {k : Key} {i : Fin 8} {s : State} (h : wbHits k i s) :
    loadCell k s = (⟨s.wb.lines[i.val].word, s.wb.lines[i.val].tag⟩, i.val) := by
  rw [loadCell, wbFind_some.2 h]

/-- A load that misses finds the memory cell (R115). -/
theorem loadCell_miss {k : Key} {s : State} (h : wbMisses k s) :
    loadCell k s = (memRead (translate k s) s, (translate k s).toNat / 1024) := by
  rw [loadCell, wbFind_none.2 h]; rfl

theorem loadWord_eq {a : Addr} (ha : a ≠ 0) (s : State) : loadWord a s = (loadCell (resolve a s) s).1.word :=
  if_neg ha

/-- Settles O9: the checks of a store, then the tag; what is found by the hit and the miss of a load. -/
theorem loadChecksAndFinds : Obligations.LoadChecksAndFinds := by
  intro a s
  refine ⟨fun ha => ⟨if_pos ha, if_pos ha⟩, fun ha => ?_⟩
  refine ⟨?_, loadWord_eq ha s, fun i h => loadCell_hit h, loadCell_miss⟩
  rw [loadFault_eq_storeFault_or ha, storeFault_eq ha]
  split
  · rfl
  · split <;> rfl

/-! ### Faults of a store -/

/-- A store raises none of the arithmetic causes (R110). -/
theorem storeFault_not_arith {a : Addr} {s : State} {f : Trap} (h : storeFault a s = some f) :
    Cause.isArith f.cause = false := by
  by_cases ha : a = 0
  · rw [storeFault, if_pos ha] at h; cases h
  · exact loadFault_not_arith (a := a) (s := s) (by rw [loadFault_eq_storeFault_or ha, h]; rfl)

/-- A half that changed nothing before its fault reverts to the state it began in (R186). -/
theorem revert_beginHalf {f : Trap} (hf : Cause.isArith f.cause = false) (s : State) : revert f s (beginHalf s) = s :=
  revert_popped hf 0 0 s

/-- A half whose first effect is a store of ACC that faults is undone whole (R110, R186). -/
theorem runStore_faults {op : Op} (a : Addr) {b : State → Addr} {s : State} {f : Trap}
    {g : State → Unit → State → Res Unit} (h : storeFault (b (beginHalf s)) s = some f) :
    runStoring op a s (fun t => (store (b t) t.acc t).bind (g t)) = .next (recover f s) := by
  have he : (store (b (beginHalf s)) (beginHalf s).acc (beginHalf s)).bind (g (beginHalf s)) =
      .raised f (beginHalf s) := by
    rw [store_eq, storeFault_beginHalf, h]; rfl
  rw [runStoring_eq, run, runHalf, he]
  exact congrArg (fun t => Host.Outcome.next (recover f t)) (revert_beginHalf (storeFault_not_arith h) s)

/-- Settles O13: the two checks of a store, and the four instructions that begin with one. -/
theorem storeFaultsAreTaken : Obligations.StoreFaultsAreTaken :=
  ⟨fun _ s ha => storeFault_eq ha s, fun r addr s _ =>
    ⟨fun h => ⟨runStore_faults (effective r addr s) h, runStore_faults (effective r addr s) h⟩,
     fun h => ⟨runStore_faults (sp s) h, runStore_faults (sp s) h⟩⟩⟩

/-! ### Stores -/

/-- A store that hits the oldest line leaves recency alone, one that hits another line makes it most recent (R111). -/
theorem storeAt_hit_recency {k : Key} {i : Fin 8} {s : State} (h : wbHits k i s) (w : Word) :
    (storeAt k w s).wb.newer = (if i = s.wb.oldest then s.wb.newer else touchBits 8 s.wb.newer i.val) ∧
      (storeAt k w s).wb.oldest = (if i = s.wb.oldest then s.wb.oldest else (wbTouch i s.wb).oldest) := by
  rw [storeAt_hit (wbFind_some.2 h), storeHit]
  split <;> exact ⟨rfl, rfl⟩

/-- A store that hits writes no memory (R111). -/
theorem storeAt_hit_frame {k : Key} {i : Fin 8} {s : State} (h : wbHits k i s) (w : Word) :
    { storeAt k w s with wb := s.wb } = s := by
  rw [storeAt_hit (wbFind_some.2 h), storeHit]
  split <;> rfl

/-- The lines after a store that hits line `i` (R111). -/
theorem storeAt_hit_lines {k : Key} {i : Fin 8} {s : State} (h : wbHits k i s) (w : Word) (j : Fin 8) :
    (storeAt k w s).wb.lines[j.val] =
      if j = i then { s.wb.lines[i.val] with word := w, tag := storeTag s } else s.wb.lines[j.val] := by
  have hf := wbFind_some.2 h
  obtain ⟨l, hl, hlines⟩ := storeAt_lines k w s
  obtain rfl : i = l := by simpa [hf] using hl
  simpa [hf] using hlines j

/-- The lines after a store that misses: the new line in the place of the oldest (R112). -/
theorem storeAt_miss_lines {k : Key} {s : State} (h : wbMisses k s) (w : Word) (j : Fin 8) :
    (storeAt k w s).wb.lines[j.val] =
      if j = s.wb.oldest then ⟨true, k, translate k s, w, storeTag s⟩ else s.wb.lines[j.val] := by
  have hf := wbFind_none.2 h
  obtain ⟨l, hl, hlines⟩ := storeAt_lines k w s
  obtain rfl : l = s.wb.oldest := by simpa [hf] using hl
  simpa [hf] using hlines j

/-- A store that misses makes its line the most recent (R112). -/
theorem storeAt_miss_recency {k : Key} {s : State} (h : wbMisses k s) (w : Word) :
    (storeAt k w s).wb.newer = touchBits 8 s.wb.newer s.wb.oldest.val ∧
      (storeAt k w s).wb.oldest = (wbTouch s.wb.oldest s.wb).oldest := by
  rw [storeAt_miss (wbFind_none.2 h), storeMiss, writeBack]
  split <;> exact ⟨rfl, rfl⟩

/-- Memory after a store that misses: the evicted line is written back (R112). -/
theorem memRead_storeAt_miss {k : Key} {s : State} (hm : Memory.wf s.mem) (h : wbMisses k s) (w : Word) (p : Phys) :
    memRead p (storeAt k w s) =
      if s.wb.lines[s.wb.oldest.val].valid = true ∧ p = s.wb.lines[s.wb.oldest.val].phys then
        ⟨s.wb.lines[s.wb.oldest.val].word, s.wb.lines[s.wb.oldest.val].tag⟩
      else memRead p s := by
  have he : (storeAt k w s).mem = (writeBack s.wb.oldest s).mem := by rw [storeAt_mem, wbFind_none.2 h]
  rw [memRead_congr he, memRead_writeBack hm]

/-- Settles O11: the lines, the recency and the frame of a hit and of a miss, and the write-back of a miss. -/
theorem storesUpdateTheBuffer : Obligations.StoresUpdateTheBuffer := by
  intro k w s hm
  refine ⟨fun i h => ?_, fun h => ?_⟩
  · obtain ⟨hn, ho⟩ := storeAt_hit_recency h w
    exact ⟨storeAt_hit_frame h w, (storeAt_hit_lines h w i).trans (if_pos rfl),
      fun j hj => (storeAt_hit_lines h w j).trans (if_neg hj), hn, ho⟩
  · obtain ⟨hn, ho⟩ := storeAt_miss_recency h w
    exact ⟨storeAt_frame k w s, (storeAt_miss_lines h w _).trans (if_pos rfl),
      fun j hj => (storeAt_miss_lines h w j).trans (if_neg hj), hn, ho, memRead_storeAt_miss hm h w⟩

/-! ### A load after a store -/

theorem wbHits_or_misses (k : Key) (s : State) : (∃ i, wbHits k i s) ∨ wbMisses k s := by
  cases h : wbFind k s with
  | some i => exact .inl ⟨i, wbFind_some.1 h⟩
  | none => exact .inr (wbFind_none.1 h)

/-- A stored address is in the buffer, with the stored word and tag (R110, R111, R112). -/
theorem storeAt_buffers (k : Key) (w : Word) (s : State) :
    ∃ i : Fin 8, wbHits k i (storeAt k w s) ∧ (storeAt k w s).wb.lines[i.val].word = w ∧
      (storeAt k w s).wb.lines[i.val].tag = storeTag s := by
  rcases wbHits_or_misses k s with ⟨i, h⟩ | h
  · have hl := storeAt_hit_lines h w
    obtain ⟨hi, hbefore⟩ := h
    refine ⟨i, ⟨?_, fun j hj => ?_⟩, ?_, ?_⟩
    · rw [hl, if_pos rfl]; exact hi
    · rw [hl, if_neg hj.ne]; exact hbefore j hj
    all_goals rw [hl, if_pos rfl]
  · have hl := storeAt_miss_lines h w
    refine ⟨s.wb.oldest, ⟨?_, fun j hj => ?_⟩, ?_, ?_⟩
    · rw [hl, if_pos rfl]; exact ⟨rfl, rfl⟩
    · rw [hl, if_neg hj.ne]; exact h j
    all_goals rw [hl, if_pos rfl]

/-- A store changes no resolution (R82). -/
theorem resolve_stored (a b : Addr) (w : Word) (s : State) : resolve b (stored a w s) = resolve b s := by
  have h := congrArg (resolve b) (stored_frame a w s)
  exact h

/-- A store changes no check of a later one (R110). -/
theorem storeFault_stored (a b : Addr) (w : Word) (s : State) : storeFault b (stored a w s) = storeFault b s := by
  have h := congrArg (storeFault b) (stored_frame a w s)
  exact h

/-- The cell that a load finds after a store to its address (R107, R115). -/
theorem loadCell_stored {a : Addr} (ha : a ≠ 0) (w : Word) (s : State) :
    ∃ i : Fin 8, wbHits (resolve a s) i (stored a w s) ∧
      loadCell (resolve a s) (stored a w s) = (⟨w, storeTag s⟩, i.val) := by
  obtain ⟨i, hi, hw, ht⟩ := storeAt_buffers (resolve a s) w s
  have hs : stored a w s = storeAt (resolve a s) w s := if_neg ha
  rw [hs]
  exact ⟨i, hi, by rw [loadCell_hit hi, hw, ht]⟩

/-- A store writes a tag that loads accept just when CONVOL_RIGHT is clear (R106, R107). -/
theorem storeTag_accepted (s : State) : (storeTag s = 2 ∨ storeTag s = 0) ↔ s.ruu.convolRight = false := by
  have h : ∀ l r : Bool, (tagNumber ^^^ (BitVec.ofBool l ++ BitVec.ofBool r) = 2 ∨
      tagNumber ^^^ (BitVec.ofBool l ++ BitVec.ofBool r) = 0) ↔ r = false := by decide
  exact h _ _

/-- The fault of a load after a store whose checks pass: of the checks only the tag can fail (R106, R140). -/
theorem loadFault_stored {a : Addr} (ha : a ≠ 0) {s : State} (hf : storeFault a s = none) (w : Word) :
    ∃ i : Fin 8, wbHits (resolve a s) i (stored a w s) ∧
      loadFault a (stored a w s) = if s.ruu.convolRight = false then none else some ⟨.ramCheck, some i.val⟩ := by
  obtain ⟨i, hi, hc⟩ := loadCell_stored ha w s
  refine ⟨i, hi, ?_⟩
  rw [loadFault_eq_storeFault_or ha, storeFault_stored, hf, resolve_stored, hc]
  simp only [storeTag_accepted, Option.none_or]

/-- Settles O12: the load hits the line of the store, whose tag alone its checks can refuse. -/
theorem loadSeesOwnStore : Obligations.LoadSeesOwnStore := by
  intro a w s ha hf
  obtain ⟨i, hi, hfault⟩ := loadFault_stored ha hf w
  refine ⟨?_, fun hc => ?_, fun hc => ⟨i, hi, ?_⟩⟩
  · obtain ⟨_, -, hcell⟩ := loadCell_stored ha w s
    rw [loadWord_eq ha, resolve_stored, hcell]
  · rw [hfault, if_pos hc]
  · rw [hfault, hc]; rfl

/-! ### The flush -/

/-- The last element that satisfies a test, in a rising list. -/
theorem find_reverse_last {n : Nat} {L : List (Fin n)} (hp : L.Pairwise (· < ·)) {q : Fin n → Bool} {i : Fin n}
    (hi : i ∈ L) (hq : q i = true) (hlast : ∀ j, i < j → ¬q j = true) : L.reverse.find? q = some i := by
  induction L with
  | nil => cases hi
  | cons x L ih =>
    obtain ⟨hx, hp'⟩ := List.pairwise_cons.1 hp
    rw [List.reverse_cons, List.find?_append]
    rcases List.mem_cons.1 hi with rfl | hi'
    · have hnone : L.reverse.find? q = none :=
        List.find?_eq_none.2 fun j hj => hlast j (hx j (List.mem_reverse.1 hj))
      rw [hnone, List.find?_cons_of_pos hq]; rfl
    · rw [ih hp' hi']; rfl

/-- Memory after the flush, at the address of a valid line that no later line shares (R113). -/
theorem memRead_flushAll_last {s : State} (hm : Memory.wf s.mem) {p : Phys} {i : Fin 8}
    (hi : s.wb.lines[i.val].valid = true ∧ s.wb.lines[i.val].phys = p)
    (hlast : ∀ j : Fin 8, i < j → ¬(s.wb.lines[j.val].valid = true ∧ s.wb.lines[j.val].phys = p)) :
    memRead p (flushAll s) = ⟨s.wb.lines[i.val].word, s.wb.lines[i.val].tag⟩ := by
  have hall : ∀ i, i ∈ wbLines := by decide
  have hfind : wbLines.reverse.find? (fun i => s.wb.lines[i.val].valid && s.wb.lines[i.val].phys == p) = some i :=
    find_reverse_last (by decide) (hall i) (by simpa using hi) fun j hj => by simpa using hlast j hj
  rw [flushAll, memRead_flushList wbLines (by decide) s hm, hfind]

/-- Memory after the flush, at an address of no valid line (R113). -/
theorem memRead_flushAll_other {s : State} (hm : Memory.wf s.mem) {p : Phys}
    (h : ∀ i : Fin 8, ¬(s.wb.lines[i.val].valid = true ∧ s.wb.lines[i.val].phys = p)) :
    memRead p (flushAll s) = memRead p s := by
  have hfind : wbLines.reverse.find? (fun i => s.wb.lines[i.val].valid && s.wb.lines[i.val].phys == p) = none :=
    List.find?_eq_none.2 fun i _ => by simpa using h i
  rw [flushAll, memRead_flushList wbLines (by decide) s hm, hfind]

/-- Settles O14: the frame and the lines of the flush, and memory by the last line at each address. -/
theorem flushWritesEveryLine : Obligations.FlushWritesEveryLine := by
  intro s hm
  obtain ⟨hframe, hnewer, holdest, -, hlines⟩ := flushAll_spec hm
  exact ⟨hframe, hnewer, holdest, hlines, fun p i hv hp hlast => memRead_flushAll_last hm ⟨hv, hp⟩ hlast,
    fun p h => memRead_flushAll_other hm h⟩

/-! ### Recency -/

/-- Settles O15: each pair by the pair lemma of a touch, the order and the pointer by the total-order lemma. -/
theorem touchKeepsATotalOrder : Obligations.TouchKeepsATotalOrder := by
  refine ⟨fun b i h => ?_, fun b i h => ?_⟩
  · obtain ⟨ht, ho⟩ := wbTouch_total h i
    refine ⟨rfl, ht, fun j hj hne => ?_, fun j hj k hk hjk hji hki => ?_, isOldest_iff.1 ho⟩
    · exact (newer_touch_8 b.newer i.isLt i.isLt hj hne.symm).trans (if_pos rfl)
    · exact (newer_touch_8 b.newer i.isLt hj hk hjk).trans (by rw [if_neg hji, if_neg hki])
  · obtain ⟨ht, ho⟩ := pfTouch_total h i
    refine ⟨rfl, ht, fun j hj hne => ?_, fun j hj k hk hjk hji hki => ?_, isOldest_iff.1 ho⟩
    · exact (newer_touch_4 b.newer i.isLt i.isLt hj hne.symm).trans (if_pos rfl)
    · exact (newer_touch_4 b.newer i.isLt hj hk hjk).trans (by rw [if_neg hji, if_neg hki])

/-! ### Fetches -/

/-- The checks of a fetch in order (R120, R122, R403). -/
theorem fetchFault_eq (a : Addr) (s : State) :
    fetchFault a s =
      (if a = 0 then some ⟨.insnCheck, some 0⟩
      else if supervisor s = false ∧
          tlbEntry (if (resolve a s).getLsbD 15 then s.rpS else s.rpU) ((resolve a s).extractLsb' 10 5) s = 0 then
        some ⟨.insnProt, some (a.toNat / 1024)⟩
      else if s.ibp = resolve a s then some ⟨.breakpoint, none⟩
      else if (fetchCell (resolve a s) s).tag = 1 then none
      else some ⟨.insnCheck, some 0⟩) := by
  simp only [fetchFault, pageOf_resolve_toNat, Bool.and_eq_true, Bool.not_eq_true', beq_iff_eq]
  rfl

/-- A step with the processor's turn and no interrupt to take runs the live half, then looks at the timer (R181,
R432). -/
theorem step_readyToFetch {s u : State} (h : readyToFetch s u) : step s = endStep (halfStep u) := by
  obtain ⟨⟨hmark, hturn⟩, hhalt, hpend⟩ := h
  have hproc : processorStep u = endStep (halfStep u) := by
    rw [processorStep, hhalt]; simp only [hpend]; rfl
  rw [step_unmarked hmark, ← hproc]
  rcases hturn with ⟨hin, rfl⟩ | ⟨l, hin, rfl⟩ <;> rw [agentStep, hin]

/-- A fault of the fetch is recovered in the state before the half (R120, R186). -/
theorem halfStep_fetchFault {s : State} {f : Trap} (h : fetchFault s.pc s = some f) :
    halfStep s = .next (recover f s) := by
  rw [halfStep, fetch, h]

/-- Settles O10: the checks in order, and the step of a half whose fetch faults. -/
theorem fetchFaultsAreTaken : Obligations.FetchFaultsAreTaken :=
  ⟨fetchFault_eq, fun _ _ _ hr hf => by rw [step_readyToFetch hr, halfStep_fetchFault hf]⟩

/-- A fetch that hits a prefetch line finds its word and tag (R121). -/
theorem fetchCell_hit {k : Key} {i : Fin 4} {s : State} (h : pfHits k i s) :
    fetchCell k s = ⟨s.pf.lines[i.val].word, s.pf.lines[i.val].tag⟩ := by
  rw [fetchCell, pfFind_some.2 h]

/-- A fetch that misses finds the memory cell (R121). -/
theorem fetchCell_miss {k : Key} {s : State} (h : pfMisses k s) : fetchCell k s = memRead (translate k s) s := by
  rw [fetchCell, pfFind_none.2 h]; rfl

/-- A fetch that hits touches its line (R121). -/
theorem fetchCommit_hit {k : Key} {i : Fin 4} {s : State} (h : pfHits k i s) : fetchCommit k s = touchPf i s := by
  rw [fetchCommit, pfFind_some.2 h]; rfl

/-- A fetch that misses installs the memory cell in the oldest line and touches that line (R121). -/
theorem fetchCommit_miss {k : Key} {s : State} (h : pfMisses k s) :
    fetchCommit k s = touchPf s.pf.oldest
      (setPfLine s.pf.oldest ⟨true, k, (memRead (translate k s) s).word, (memRead (translate k s) s).tag⟩ s) := by
  rw [fetchCommit, pfFind_none.2 h, fetchCell_miss h]

/-- The lines after a fetch that misses (R121). -/
theorem fetchCommit_miss_lines {k : Key} {s : State} (h : pfMisses k s) (j : Fin 4) :
    (fetchCommit k s).pf.lines[j.val] =
      if j = s.pf.oldest then ⟨true, k, (memRead (translate k s) s).word, (memRead (translate k s) s).tag⟩
      else s.pf.lines[j.val] := by
  rw [fetchCommit_miss h]
  exact setPfLine_get _ j _ s

/-- Settles O60: the cell found and the line touched or installed, for a hit and for a miss. -/
theorem fetchFindsAndInstalls : Obligations.FetchFindsAndInstalls := by
  intro k s
  refine ⟨fun i h => ⟨fetchCell_hit h, fetchCommit_hit h⟩, fun h => ?_⟩
  exact ⟨fetchCell_miss h, by rw [fetchCommit_miss h]; rfl, (fetchCommit_miss_lines h _).trans (if_pos rfl),
    fun j hj => (fetchCommit_miss_lines h j).trans (if_neg hj), by rw [fetchCommit_miss h]; rfl,
    by rw [fetchCommit_miss h]; rfl⟩

end Sys2Proof.Machine
end

section
/-!
PROOFS. The statements about the encoding: decoding and encoding are inverse to each other, a half selects one row, and
the addresses of an operand.
-/

namespace Sys2Proof

/-! ### Instructions by operation and fields -/

@[simp] theorem op_ofOp (r : Idx) (a : Addr) (o : Op) : (Instr.ofOp r a o).op = o := by cases o <;> rfl

@[simp] theorem r_ofOp (r : Idx) (a : Addr) (o : Op) : (Instr.ofOp r a o).r = r := by cases o <;> rfl

@[simp] theorem addr_ofOp (r : Idx) (a : Addr) (o : Op) : (Instr.ofOp r a o).addr = a := by cases o <;> rfl

/-- An instruction is its operation with its two fields. -/
theorem ofOp_op (i : Instr) : Instr.ofOp i.r i.addr i.op = i := by cases i <;> rfl

/-! ### The opcode tables -/

/-- The operation that the decoder's tables give an opcode (R157, R158). -/
def Opcode.op : Opcode → Op
  | .short S => shortOp S
  | .long L => longOp L

/-- The opcode belongs to the long form (R158). -/
def Opcode.isLong : Opcode → Bool
  | .short _ => false
  | .long _ => true

/-- The tables of the decoder undo the table of the encoder. -/
theorem op_opcode (o : Op) : o.opcode.op = o := by cases o <;> rfl

theorem opcode_shortOp (S : BitVec 6) : (shortOp S).opcode = .short S := by
  revert S; decide

theorem opcode_longOp (L : BitVec 4) : (longOp L).opcode = .long L := by
  revert L; decide

/-- The table of the encoder undoes the tables of the decoder. -/
@[simp] theorem opcode_op (c : Opcode) : c.op.opcode = c := by
  cases c with
  | short S => exact opcode_shortOp S
  | long L => exact opcode_longOp L

theorem isLong_opcode (o : Op) : o.opcode.isLong = o.isLong := by cases o <;> rfl

@[simp] theorem isLong_op (c : Opcode) : c.op.isLong = c.isLong := by rw [← isLong_opcode, opcode_op]

/-! ### The fields of a half -/

/-- The opcode that a half holds (R152, R153). -/
def opcodeField (h : Half) : Opcode := if formatBit h then .long (longField h) else .short (shortField h)

/-- The address field that a half holds (R152, R153). -/
def addrField (h : Half) : Addr := if formatBit h then longAddr h else shortAddr h

/-- A half decodes to the operation of its opcode field, with its register and address fields. -/
theorem decode_eq_ofOp (h : Half) : decode h = Instr.ofOp (idxField h) (addrField h) (opcodeField h).op := by
  unfold decode addrField opcodeField
  split <;> rfl

@[simp] theorem op_decode (h : Half) : (decode h).op = (opcodeField h).op := by rw [decode_eq_ofOp, op_ofOp]

@[simp] theorem r_decode (h : Half) : (decode h).r = idxField h := by rw [decode_eq_ofOp, r_ofOp]

@[simp] theorem addr_decode (h : Half) : (decode h).addr = addrField h := by rw [decode_eq_ofOp, addr_ofOp]

/-- The short form's address: three copies of `E` above the literal (R153). -/
theorem shortAddr_eq_append (h : Half) :
    shortAddr h = (if h.getLsbD 18 then 7#3 else 0#3) ++ h.extractLsb' 0 12 := by
  have hlow : (h.extractLsb' 0 12).setWidth 15 = 0#3 ++ h.extractLsb' 0 12 :=
    BitVec.setWidth_eq_append (by decide)
  have hhigh : 0o70000#15 = 7#3 ++ 0#12 := rfl
  simp only [shortAddr, hlow, hhigh]
  split
  · calc
      _ = (7#3 ||| 0#3) ++ (0#12 ||| h.extractLsb' 0 12) := BitVec.or_append
      _ = _ := by rw [BitVec.or_zero, BitVec.zero_or]
  · rfl

/-- A field of one bit. -/
theorem extractLsb'_bit (h : Half) (i : Nat) : h.extractLsb' i 1 = BitVec.ofBool (h.getLsbD i) := by
  apply BitVec.eq_of_getLsbD_eq
  intro j hj
  obtain rfl : j = 0 := by omega
  simp

/-- Every address of the short form is one that the short form reaches (R153). -/
theorem shortAddressOk_shortAddr (h : Half) : shortAddressOk (shortAddr h) = true := by
  rw [shortAddressOk, shortAddr_eq_append, BitVec.extractLsb'_append_eq_left]
  split <;> rfl

/-! ### A half is the encoding of its fields -/

/-- A short half is made of its fields (R153). -/
theorem encodeShort_fields {h : Half} (hf : formatBit h = false) :
    encodeShort (idxField h) (shortField h) (shortAddr h) = h := by
  have hF : 0#1 = h.extractLsb' 19 1 := by rw [extractLsb'_bit, ← formatBit, hf]; rfl
  have hE : (shortAddr h).extractLsb' 12 1 = h.extractLsb' 18 1 := by
    rw [shortAddr_eq_append, BitVec.extractLsb'_append_eq_of_le (by decide), extractLsb'_bit]
    cases h.getLsbD 18 <;> rfl
  have hlow : (shortAddr h).extractLsb' 0 12 = h.extractLsb' 0 12 := by
    rw [shortAddr_eq_append, BitVec.extractLsb'_append_eq_right]
  rw [encodeShort, hF, hE, hlow, idxField, shortField]
  rw [BitVec.extractLsb'_append_extractLsb'_eq_extractLsb' (show 20 = 19 + 1 from rfl),
    BitVec.extractLsb'_append_extractLsb'_eq_extractLsb' (show 19 = 18 + 1 from rfl),
    BitVec.extractLsb'_append_extractLsb'_eq_extractLsb' (show 18 = 12 + 6 from rfl),
    BitVec.extractLsb'_append_extractLsb'_eq_extractLsb' (show 12 = 0 + 12 from rfl)]
  exact BitVec.extractLsb'_eq_self

/-- A long half is made of its fields (R152). -/
theorem encodeLong_fields {h : Half} (hf : formatBit h = true) :
    encodeLong (idxField h) (longField h) (longAddr h) = h := by
  have hF : 1#1 = h.extractLsb' 19 1 := by rw [extractLsb'_bit, ← formatBit, hf]; rfl
  rw [encodeLong, hF, idxField, longField, longAddr]
  rw [BitVec.extractLsb'_append_extractLsb'_eq_extractLsb' (show 20 = 19 + 1 from rfl),
    BitVec.extractLsb'_append_extractLsb'_eq_extractLsb' (show 19 = 15 + 4 from rfl),
    BitVec.extractLsb'_append_extractLsb'_eq_extractLsb' (show 15 = 0 + 15 from rfl)]
  exact BitVec.extractLsb'_eq_self

/-- A half decodes to an instruction that encodes to the half (R151, R152, R153). -/
theorem encode_decode (h : Half) : encode (decode h) = h := by
  simp only [encode, op_decode, opcode_op, r_decode, addr_decode, opcodeField, addrField]
  cases hf : formatBit h with
  | true => exact encodeLong_fields hf
  | false => exact encodeShort_fields hf

/-- A half decodes to an instruction whose form can hold its address (R152, R153). -/
theorem wf_decode (h : Half) : (decode h).wf = true := by
  simp only [Instr.wf, op_decode, isLong_op, addr_decode, opcodeField, addrField]
  cases formatBit h with
  | true => rfl
  | false => exact shortAddressOk_shortAddr h

/-- Settles O2: the decoded fields are well formed, and the half is made of them. -/
theorem encodeOfDecode : Obligations.EncodeOfDecode := fun h => ⟨wf_decode h, encode_decode h⟩

/-! ### Mask and match -/

/-- The fields of the short match (R159). -/
theorem fields_shortMatch (S : BitVec 6) :
    formatBit (S.setWidth 24 <<< 12) = false ∧ shortField (S.setWidth 24 <<< 12) = S := by
  revert S; decide

/-- The fields of the long match (R159). -/
theorem fields_longMatch (L : BitVec 4) :
    formatBit (0x080000#24 ||| (L.setWidth 24 <<< 15)) = true ∧
      longField (0x080000#24 ||| (L.setWidth 24 <<< 15)) = L := by
  revert L; decide

/-- A half with a short row's selecting bits holds its opcode (R159). -/
theorem short_selected {h : Half} {S : BitVec 6} (e : h &&& 0x0BF000#24 = S.setWidth 24 <<< 12) :
    opcodeField h = .short S := by
  obtain ⟨hF, hS⟩ := fields_shortMatch S
  have hformat : formatBit (h &&& 0x0BF000#24) = formatBit h :=
    BitVec.getLsbD_and.trans (Bool.and_true _)
  have hopcode : shortField (h &&& 0x0BF000#24) = shortField h :=
    BitVec.extractLsb'_and.trans BitVec.and_allOnes
  rw [e] at hformat hopcode
  rw [opcodeField, ← hformat, ← hopcode, hF, hS]; rfl

/-- A half with a long row's selecting bits holds its opcode (R159). -/
theorem long_selected {h : Half} {L : BitVec 4}
    (e : h &&& 0x0F8000#24 = 0x080000#24 ||| (L.setWidth 24 <<< 15)) : opcodeField h = .long L := by
  obtain ⟨hF, hL⟩ := fields_longMatch L
  have hformat : formatBit (h &&& 0x0F8000#24) = formatBit h :=
    BitVec.getLsbD_and.trans (Bool.and_true _)
  have hopcode : longField (h &&& 0x0F8000#24) = longField h :=
    BitVec.extractLsb'_and.trans BitVec.and_allOnes
  rw [e] at hformat hopcode
  rw [opcodeField, ← hformat, ← hopcode, hF, hL]; rfl

/-- A half that selects an operation holds its opcode (R159). -/
theorem opcodeField_of_selectedBy {o : Op} {h : Half} (hs : o.selectedBy h = true) : opcodeField h = o.opcode := by
  have e := beq_iff_eq.1 hs
  cases ho : o.opcode with
  | short S => rw [ho] at e; exact short_selected e
  | long L => rw [ho] at e; exact long_selected e

/-- The encoding of every instruction has the selecting bits of its row and holds its fields. -/
theorem encodingMatchesRow (i : Instr) : Laws.EncodingMatchesRow.Statement i := by
  have hl := isLong_opcode i.op
  cases ho : i.op.opcode with
  | short S => exact Laws.EncodingMatchesRow.of_short ho (by rw [← hl, ho]; rfl)
  | long L => exact Laws.EncodingMatchesRow.of_long ho (by rw [← hl, ho]; rfl)

/-- The decoder finds the one operation that a half selects (R159). -/
theorem op_decode_eq_iff {o : Op} {h : Half} : o = (decode h).op ↔ o.selectedBy h = true := by
  constructor
  · rintro rfl
    obtain ⟨hs, -⟩ := encodingMatchesRow (decode h)
    rwa [encode_decode] at hs
  · intro hs
    rw [op_decode, opcodeField_of_selectedBy hs, op_opcode]

/-- Settles O3: the decoded operation is the one selected, and selecting is the row's mask and match. -/
theorem everyHalfSelectsOneRow : Obligations.EveryHalfSelectsOneRow := by
  intro h o
  rw [op_decode_eq_iff, Op.selectedBy, beq_iff_eq]
  cases o.opcode <;> rfl

/-! ### The decoding of an encoding -/

/-- Decoding finds the three parts of a well-formed instruction in its encoding (R151, R152, R153). -/
theorem decode_encode {i : Instr} (hw : i.wf = true) : decode (encode i) = i := by
  obtain ⟨hs, hr, hf, ha⟩ := encodingMatchesRow i
  have hop : (opcodeField (encode i)).op = i.op := by rw [opcodeField_of_selectedBy hs, op_opcode]
  have haddr : addrField (encode i) = i.addr := by rw [addrField, hf]; exact ha hw
  rw [decode_eq_ofOp, hr, haddr, hop, ofOp_op]

/-- Settles O1, by the opcode, the register and the address that the encoding holds. -/
theorem decodeOfEncode : Obligations.DecodeOfEncode := fun _ => decode_encode

/-- Settles O4: each word is evaluated by the decoder. -/
theorem sampleWordsDecode : Obligations.SampleWordsDecode :=
  ⟨rfl, rfl, rfl, rfl, rfl, rfl, rfl, rfl, rfl, rfl, rfl, rfl, rfl⟩

end Sys2Proof

namespace Sys2Proof.Machine

/-! ### The addresses of an operand -/

/-- A pending modification is added to the address field modulo 2^15 (R154). -/
theorem modified_toNat (addr : Addr) (s : State) :
    (modified addr s).toNat = (addr.toNat + if s.ruu.modPending then s.mod.toNat else 0) % 2 ^ 15 := by
  rw [modified, BitVec.toNat_add]
  split <;> rfl

/-- The index register is added to the modified literal modulo 2^15 (R154). -/
theorem effective_toNat (r : Idx) (addr : Addr) (s : State) :
    (effective r addr s).toNat = ((modified addr s).toNat + (idx r s).toNat) % 2 ^ 15 :=
  BitVec.toNat_add _ _

/-- The stack is addressed by register 017 with the modified literal 0 (R270). -/
theorem addressesStack_iff {r : Idx} {addr : Addr} {s : State} :
    addressesStack r addr s = true ↔ r = 15 ∧ modified addr s = 0 := by
  simp [addressesStack, spIdx]

/-- An operand on the stack is loaded from below the stack pointer, which is popped (R270). -/
theorem operandAddr_stack {r : Idx} {addr : Addr} {s : State} (h : r = 15 ∧ modified addr s = 0) :
    operandAddr r addr s = sp s - 1 ∧ popped r addr s = popSp s := by
  have hp : popped r addr s = popSp s := if_pos (addressesStack_iff.2 h)
  obtain ⟨rfl, hm⟩ := h
  have hm' : modified addr (popSp s) = 0 := hm
  have hsp : idx 15 (popSp s) = sp s - 1 := sp_setSp (sp s - 1) s
  refine ⟨?_, hp⟩
  rw [operandAddr, hp, effective, hm', hsp]
  exact BitVec.zero_add _

/-- Any other operand is loaded from its effective address, with nothing changed (R270). -/
theorem operandAddr_direct {r : Idx} {addr : Addr} {s : State} (h : ¬(r = 15 ∧ modified addr s = 0)) :
    operandAddr r addr s = effective r addr s ∧ popped r addr s = s := by
  have hp : popped r addr s = s := if_neg (mt addressesStack_iff.1 h)
  exact ⟨by rw [operandAddr, hp], hp⟩

/-- Settles O5: the two sums, and the operand on the stack and elsewhere. -/
theorem operandAddresses : Obligations.OperandAddresses := by
  intro r addr s
  refine ⟨modified_toNat addr s, effective_toNat r addr s, ?_⟩
  split
  · next h => exact operandAddr_stack h
  · next h => exact operandAddr_direct h

end Sys2Proof.Machine
end

section
/-!
PROOFS. The statements about the engine: the step of a half, the external interrupt, the interval timer, the fault of
a memory operand, and the privileged opcodes.
-/

namespace Sys2Proof.Machine

/-! ### The processor's turn -/

/-- A step at the processor's turn is a step of the processor (R180, R442). -/
theorem step_ourTurn {s u : State} (h : ourTurn s u) : step s = processorStep u := by
  obtain ⟨hmark, hturn⟩ := h
  rw [step_unmarked hmark]
  rcases hturn with ⟨hin, rfl⟩ | ⟨l, hin, rfl⟩ <;> rw [agentStep, hin]

/-- A running processor takes the pending interrupt or runs a half, then looks at the timer (R180, R181, R432). -/
theorem processorStep_running {s : State} (h : s.halted = none) :
    processorStep s = endStep (if externalPending s then .next (externalEntry s) else halfStep s) := by
  rw [processorStep, h]

/-- A step of the processor that answers a next state has looked at the timer last (R432). -/
theorem processorStep_next {s t : State} (h : processorStep s = .next t) : ∃ v, t = expireTimer v := by
  cases hh : s.halted with
  | some c => rw [processorStep_halted hh] at h; cases h
  | none =>
    rw [processorStep_running hh] at h
    generalize (if externalPending s then .next (externalEntry s) else halfStep s) = o at h
    cases o with
    | next v => cases h; exact ⟨v, rfl⟩
    | fault | refused => cases h

/-! ### The step of a half -/

/-- A fetch changes the prefetch cache alone (R121). -/
theorem fetchCommit_frame (k : Key) (s : State) : { fetchCommit k s with pf := s.pf } = s := by
  unfold fetchCommit; split
  · split <;> rfl
  · rfl

/-- A half whose fetch passes is the decoded one, run in the state the fetch leaves (R182, R183). -/
theorem halfStep_fetched {s : State} (h : fetchFault s.pc s = none) :
    halfStep s = exec (decode (halfOf (fetchCell (resolve s.pc s) s).word s.ruu.right))
      (fetchCommit (resolve s.pc s) s) := by
  rw [halfStep, fetch, h]

/-- Settles O16: the decoded half is well formed, the step is `halfStep`, and the fetch keeps to its frame. -/
theorem stepRunsDecodedHalf : Obligations.StepRunsDecodedHalf := by
  rintro s u i hready hfetch rfl
  exact ⟨wf_decode _, by rw [step_readyToFetch hready, halfStep_fetched hfetch], fetchCommit_frame _ u⟩

/-! ### The external interrupt -/

/-- An interrupt register has an unmasked bit set (R181, R414). -/
theorem masked_ne_zero_iff (g m : Word) :
    (g &&& m != 0) = true ↔ ∃ b < 48, g.getLsbD b = true ∧ m.getLsbD b = true := by
  rw [bne_iff_ne, ne_eq, BitVec.eq_of_getLsbD_eq_iff]
  simp

/-- The interrupt boundary (R181, R414). -/
theorem externalPending_iff (s : State) :
    externalPending s = true ↔
      s.ruu.right = false ∧ s.trapping = false ∧ s.psw.getLsbD 10 = false ∧
        ((∃ b < 48, s.grp.getLsbD b = true ∧ s.mgrp.getLsbD b = true) ∨
          ∃ b < 48, s.prp.getLsbD b = true ∧ s.mprp.getLsbD b = true) := by
  simp only [externalPending, intrDisable, Bool.and_eq_true, Bool.or_eq_true, Bool.not_eq_true', masked_ne_zero_iff,
    and_assoc]

/-- At a word boundary the entry saves no right half (R413). -/
theorem externalEntry_left {s : State} (h : s.ruu.right = false) :
    externalEntry s =
      { s with
        spsw := (s.psw &&& 0o2003) ||| flagBit 15 2 s.ruu.extracode ||| flagBit 15 3 s.ruu.interrupt |||
          flagBit 15 4 s.ruu.modPending
        iret := s.pc
        psw := s.psw ||| 0o2003
        ruu := { s.ruu with extracode := false, interrupt := true, right := false, modPending := false }
        pc := Config.vecExt } := by
  have hright : flagBit 15 8 s.ruu.right = 0#15 := by rw [h]; rfl
  rw [externalEntry, interruptEntry, hright, BitVec.or_zero]
  rfl

/-- Settles O17: the boundary condition bit by bit, and the step that takes the entry. -/
theorem externalInterruptIsTaken : Obligations.ExternalInterruptIsTaken := by
  intro s u hturn hrun
  refine ⟨externalPending_iff u, fun hpend => ?_⟩
  obtain ⟨hleft, -⟩ := (externalPending_iff u).1 hpend
  rw [step_ourTurn hturn, processorStep_running hrun, if_pos hpend, externalEntry_left hleft]

/-! ### The interval timer -/

/-- The timer at the end of a step (R432). -/
theorem expireTimer_eq (s : State) :
    expireTimer s =
      if s.timer.armed = true ∧ s.timer.deadline ≤ s.clock then
        { s with timer := { s.timer with armed := false }, grp := s.grp ||| Config.causeBit .timer }
      else s := by
  simp only [expireTimer, Bool.and_eq_true, decide_eq_true_iff]

/-- A timer that is still armed after the check has its deadline ahead (R432). -/
theorem expireTimer_armed {s : State} (h : (expireTimer s).timer.armed = true) :
    (expireTimer s).clock < (expireTimer s).timer.deadline := by
  rw [expireTimer_eq] at h ⊢
  split at h
  · cases h
  · next hdue =>
    rw [if_neg hdue]
    exact Nat.lt_of_not_le fun hle => hdue ⟨h, hle⟩

/-- Two sources share no bit of GRP (R401, R432). -/
theorem causeBit_disjoint {x y : GrpSource} (h : x ≠ y) : Config.causeBit x &&& Config.causeBit y = 0 := by
  have hbit : (Config.grpLayout.bit x).val ≠ (Config.grpLayout.bit y).val :=
    fun e => h (Config.grpLayout.bitInjective x y (Fin.ext e))
  rw [Config.causeBit, Config.causeBit, BitVec.and_twoPow, BitVec.getLsbD_twoPow]
  simp [hbit]

/-- Settles O18: the delay by its definition, the deadline by the check that ends the step, the bits by the layout. -/
theorem timerExpires : Obligations.TimerExpires := by
  refine ⟨fun _ _ => rfl, fun s u t hturn hstep harmed => ?_, fun t => ?_, fun _ => causeBit_disjoint (by simp)⟩
  · rw [step_ourTurn hturn] at hstep
    obtain ⟨v, rfl⟩ := processorStep_next hstep
    exact expireTimer_armed harmed
  · rw [endStep, expireTimer_eq]
    split <;> rfl

/-! ### The fault of a memory operand -/

/-- The half begins with its memory operand and goes on with the loaded word (R222). -/
def LoadsOperandFirst (i : Idx → Addr → Instr) : Prop :=
  ∀ (r : Idx) (addr : Addr) (s : State), ∃ g : Word → State → Res Unit,
    exec (i r addr) s = run (i r addr).op s fun t => (operandX r addr t).bind g

/-- Such a half is undone whole when the load faults (R186, R272). -/
theorem LoadsOperandFirst.faults {i : Idx → Addr → Instr} (hi : LoadsOperandFirst i) {r : Idx} {addr : Addr}
    {s : State} {f : Trap} (hf : loadFault (operandAddr r addr s) (popped r addr s) = some f) :
    exec (i r addr) s = .next (recover f s) := by
  obtain ⟨g, hg⟩ := hi r addr s
  exact runX_faults hg hf

/-- Settles O21: the meaning of each of the 21 instructions is, by definition, a half that begins with its operand. -/
theorem operandFaultsAreTaken : Obligations.OperandFaultsAreTaken := by
  intro i hi r addr s f hf
  have hload : LoadsOperandFirst i := by
    fin_cases hi <;> exact fun _ _ _ => ⟨_, rfl⟩
  exact hload.faults hf

/-! ### Privileged opcodes -/

/-- Outside supervisor mode a device command raises PRIVILEGE (R191, R358). -/
theorem deviceCommand_user {s : State} (h : supervisor s = false) (op : Op) :
    deviceCommand op s = .next (recover ⟨.privilege, none⟩ s) := by
  rw [deviceCommand, if_neg (by simp [h]), runPrivileged_user h]

/-- In supervisor mode it is refused (R358). -/
theorem deviceCommand_supervisor {s : State} (h : supervisor s = true) (op : Op) :
    deviceCommand op s = .refused .deviceCommand := by
  rw [deviceCommand, if_pos h]

/-- Outside supervisor mode `MOD` raises PRIVILEGE whatever its selector (R191, R340). -/
theorem execMod_user {s : State} (h : supervisor s = false) (r : Idx) (addr : Addr) :
    execMod r addr s = .next (recover ⟨.privilege, none⟩ s) := by
  simp only [execMod, h, Bool.false_and, Bool.false_eq_true, if_false]
  exact runPrivileged_user h _

/-- Settles O22: the four opcodes outside supervisor mode, and the device commands inside it. -/
theorem privilegedOpcodes : Obligations.PrivilegedOpcodes := by
  intro r addr s
  refine ⟨fun huser => ?_,
    fun hsup => ⟨deviceCommand_supervisor hsup .ext32, deviceCommand_supervisor hsup .ext33⟩⟩
  simp only [List.forall_mem_cons]
  exact ⟨execMod_user huser r addr, deviceCommand_user huser .ext32, deviceCommand_user huser .ext33,
    runPrivileged_user huser _, List.forall_mem_nil _⟩

end Sys2Proof.Machine
end

section
/-!
PROOFS. The statements about arithmetic and logic: the additive and multiplicative groups, division, the end-around
sums, the logical group, the arithmetic mode and the remainder.
-/

namespace Sys2Proof.Machine

/-! ### Halves that end in a result -/

/-- What a half of this family writes: ACC, RMR, RAU, and the count of the free values used (R221, R223). -/
def setResult (a m : Word) (rau : BitVec 6) (draws : Nat) (s : State) : State :=
  { s with acc := a, rmr := m, rau := rau, draws := draws }

/-- A result touches no sequencing field. -/
theorem settled_setResult (a m : Word) (rau : BitVec 6) (draws : Nat) (s : State) :
    settled (setResult a m rau draws s) = setResult a m rau draws (settled s) := rfl

/-- CORR is a sequencing field (R49). -/
theorem settled_corr (s : State) (c : Corr) : settled { s with corr := c } = settled s := rfl

/-- The state in which a half that began in `s` goes on with its operand: the stack popped, CORR saying so
(R222, R270). -/
def operandRead (r : Idx) (addr : Addr) (s : State) : State :=
  { beginHalf (popped r addr s) with corr := if addressesStack r addr s then .plusOne else .zero }

section
variable (r : Idx) (addr : Addr) (s : State)

@[simp] theorem operandRead_acc : (operandRead r addr s).acc = s.acc := by simp [operandRead]
@[simp] theorem operandRead_rmr : (operandRead r addr s).rmr = s.rmr := by simp [operandRead]
@[simp] theorem operandRead_rau : (operandRead r addr s).rau = s.rau := by simp [operandRead]
@[simp] theorem operandRead_draws : (operandRead r addr s).draws = s.draws := by simp [operandRead]

@[simp] theorem operandRead_pc : (operandRead r addr s).pc = s.pc := by simp [operandRead]
@[simp] theorem operandRead_ruu : (operandRead r addr s).ruu = s.ruu := by simp [operandRead]
@[simp] theorem operandRead_halted : (operandRead r addr s).halted = s.halted := by simp [operandRead]
@[simp] theorem operandRead_clock : (operandRead r addr s).clock = s.clock := by simp [operandRead]

/-- But for the sequencing fields, reading an operand only pops the stack (R222). -/
theorem settled_operandRead : settled (operandRead r addr s) = settled (popped r addr s) := by
  rw [operandRead, settled_corr, settled_beginHalf]

end

section
variable {i : Instr} {r : Idx} {addr : Addr} {s : State} {a m : Word} {rau : BitVec 6} {draws : Nat}

/-- A half without an operand that writes a result. -/
theorem run_completes_result {effect : State → Res Unit} (hi : exec i s = run i.op s effect)
    (he : effect (beginHalf s) = .ok () (setResult a m rau draws (beginHalf s))) :
    completesAs i s (setResult a m rau draws s) :=
  run_completesAs hi he rfl rfl rfl rfl rfl rfl rfl

/-- A half without an operand that raises an arithmetic fault: free values in ACC and RMR (R186). -/
theorem run_raises_arith {effect : State → Res Unit} {f : Trap} (hi : exec i s = run i.op s effect)
    (he : effect (beginHalf s) = .raised f (beginHalf s)) (hf : Cause.isArith f.cause = true) :
    exec i s = .next (recover f (arithFaulted s)) := by
  -- A half without an operand reverts as one whose operand is not on the stack.
  have hrevert : revert f s (beginHalf s) = arithFaulted s := revert_arith hf 0 0 s
  rw [run_raises hi he, hrevert]

/-- A half with a readable operand goes on from `operandRead` with the loaded word (R222). -/
theorem operandX_bind (h : operandReadable r addr s) (g : Word → State → Res Unit) :
    (operandX r addr (beginHalf s)).bind g = g (operandWord r addr s) (operandRead r addr s) := by
  rw [operandX_popped h]; rfl

/-- A half with a readable operand that writes a result: nothing else changes but the stack pop (R222). -/
theorem runX_completes_result {g : Word → State → Res Unit}
    (hi : exec i s = run i.op s fun t => (operandX r addr t).bind g) (h : operandReadable r addr s)
    (hg : g (operandWord r addr s) (operandRead r addr s) = .ok () (setResult a m rau draws (operandRead r addr s))) :
    completesAs i s (setResult a m rau draws (popped r addr s)) :=
  run_completesAs (t := setResult a m rau draws (operandRead r addr s)) hi ((operandX_bind h g).trans hg) rfl rfl
    (operandRead_pc r addr s) (congrArg Ruu.right (operandRead_ruu r addr s)) (operandRead_halted r addr s)
    (operandRead_clock r addr s) (by rw [settled_setResult, settled_operandRead, settled_setResult])

/-- A half with a readable operand that raises an arithmetic fault: the stack pop undone, free values in ACC and RMR
(R186). -/
theorem runX_raises_arith {g : Word → State → Res Unit} {f : Trap}
    (hi : exec i s = run i.op s fun t => (operandX r addr t).bind g) (h : operandReadable r addr s)
    (hg : g (operandWord r addr s) (operandRead r addr s) = .raised f (operandRead r addr s))
    (hf : Cause.isArith f.cause = true) : exec i s = .next (recover f (arithFaulted s)) := by
  have hrevert : revert f s (operandRead r addr s) = arithFaulted s := revert_arith hf r addr s
  rw [run_raises hi ((operandX_bind h g).trans hg), hrevert]

/-! ### The additive and multiplicative groups -/

/-- A primitive's answer as a result (R221, R223). -/
theorem arith_ok (g : Group) (a m : Word) (t : State) :
    arith g (.ok a m) t = .ok () (setResult a m (rauWithGroup g t.rau) t.draws t) := rfl

/-- A primitive's overflow is raised where it occurs (R221). -/
theorem arith_overflow (g : Group) (t : State) : arith g .overflow t = .raised ⟨.overflow, none⟩ t := rfl

/-- `X <- OperandX(); Arith(f, X); SET_GROUP(g)` where the primitive answers (R221, R223). -/
theorem runArith_ok {g : Group} {f : BitVec 6 → Word → Word → Word → ArithResult}
    (hi : exec i s = runArith i.op g f r addr s) (h : operandReadable r addr s)
    (hf : f s.rau s.acc s.rmr (operandWord r addr s) = .ok a m) :
    completesAs i s { popped r addr s with acc := a, rmr := m, rau := rauWithGroup g s.rau } :=
  runX_completes_result hi h (by simp [hf, arith_ok])

/-- `X <- OperandX(); Arith(f, X)` where the primitive overflows (R186, R221). -/
theorem runArith_overflow {g : Group} {f : BitVec 6 → Word → Word → Word → ArithResult}
    (hi : exec i s = runArith i.op g f r addr s) (h : operandReadable r addr s)
    (hf : f s.rau s.acc s.rmr (operandWord r addr s) = .overflow) :
    exec i s = .next (recover ⟨.overflow, none⟩ (arithFaulted s)) :=
  runX_raises_arith hi h (by simp [hf, arith_overflow]) rfl

/-- The literal forms `Arith(f, lit7(EA)); SET_GROUP(g)` where the primitive answers (R221, R223, R224). -/
theorem runLiteral_ok {g : Group} {res : State → ArithResult} (hi : exec i s = run i.op s fun t => arith g (res t) t)
    (hres : res (beginHalf s) = .ok a m) :
    completesAs i s { s with acc := a, rmr := m, rau := rauWithGroup g s.rau } :=
  run_completes_result hi (by rw [hres]; rfl)

/-- The literal forms where the primitive overflows (R186, R221). -/
theorem runLiteral_overflow {g : Group} {res : State → ArithResult}
    (hi : exec i s = run i.op s fun t => arith g (res t) t) (hres : res (beginHalf s) = .overflow) :
    exec i s = .next (recover ⟨.overflow, none⟩ (arithFaulted s)) :=
  run_raises_arith hi (by rw [hres]; rfl) rfl

end

/-- Settles O31: each of the five runs its primitive in the additive group, and the primitive answers or overflows. -/
theorem additiveInstructions : Obligations.AdditiveInstructions := by
  intro e he r addr s hread
  have hexec : exec (e.1 r addr) s = runArith (e.1 r addr).op .additive e.2 r addr s := by
    fin_cases he <;> rfl
  split
  · next hres => exact runArith_ok hexec hread hres
  · next hres => exact runArith_overflow hexec hread hres

/-- `-expo(X)` as a number (R224, R243). -/
theorem neg_expo_eq (x : Word) : -expo x = 64 - (x.toNat / 2 ^ 41 % 128 : Nat) := by
  rw [expo_eq, Int.neg_sub]

/-- Settles O32: the word forms run their primitive on the operand or its exponent, the literal forms on the literal,
in the multiplicative group. -/
theorem multiplicativeInstructions : Obligations.MultiplicativeInstructions := by
  constructor
  · intro e he r addr s hread
    have hexec : exec (e.1 r addr) s = runArith (e.1 r addr).op .multiplicative e.2 r addr s := by
      simp only [← expo_eq, ← neg_expo_eq] at he
      fin_cases he <;> rfl
    split
    · next hres => exact runArith_ok hexec hread hres
    · next hres => exact runArith_overflow hexec hread hres
  · intro e he r addr s
    have hexec : exec (e.1 r addr) s = run (e.1 r addr).op s fun t =>
        arith .multiplicative (Config.fEadd t.rau t.acc t.rmr (e.2 * lit7 (effective r addr t))) t := by
      fin_cases he
      · simp only [Int.one_mul]; rfl
      · simp only [Int.neg_one_mul]; rfl
    rw [← lit7_eq]
    split
    · next hres => exact runLiteral_ok hexec hres
    · next hres => exact runLiteral_overflow hexec hres

/-! ### Division -/

/-- A zero divisor is a fault before the primitive is asked (R241). -/
theorem divide_zero (rau : BitVec 6) (acc rmr : Word) : divide rau acc rmr 0 = .divZero := if_pos rfl

/-- On another divisor the primitive decides (R241). -/
theorem divide_nonzero {x : Word} (h : x ≠ 0) (rau : BitVec 6) (acc rmr : Word) :
    divide rau acc rmr x = Config.fDiv rau acc rmr x := if_neg h

/-- A quotient as a result (R221, R223). -/
theorem arithDiv_ok (a m : Word) (t : State) :
    arithDiv (.ok a m) t = .ok () (setResult a m (rauWithGroup .multiplicative t.rau) t.draws t) := rfl

/-- `A/X` on the operand: the quotient, or the fault of the division (R221, R241). -/
theorem divX_operand {r : Idx} {addr : Addr} {s : State} (h : operandReadable r addr s) :
    (∀ a m, divide s.rau s.acc s.rmr (operandWord r addr s) = .ok a m →
      completesAs (.divX r addr) s
        { popped r addr s with acc := a, rmr := m, rau := rauWithGroup .multiplicative s.rau }) ∧
    (divide s.rau s.acc s.rmr (operandWord r addr s) = .overflow →
      exec (.divX r addr) s = .next (recover ⟨.overflow, none⟩ (arithFaulted s))) ∧
    (divide s.rau s.acc s.rmr (operandWord r addr s) = .divZero →
      exec (.divX r addr) s = .next (recover ⟨.divZero, none⟩ (arithFaulted s))) := by
  have hi : exec (.divX r addr) s = run .divX s fun t =>
    (operandX r addr t).bind fun x u => arithDiv (divide u.rau u.acc u.rmr x) u := rfl
  refine ⟨fun a m hres => ?_, fun hres => ?_, fun hres => ?_⟩
  · exact runX_completes_result hi h (by simp [hres, arithDiv_ok])
  · exact runX_raises_arith hi h (by simp [hres, arithDiv]) rfl
  · exact runX_raises_arith hi h (by simp [hres, arithDiv]) rfl

/-- Settles O33: `F_DIV` of a zero operand is the zero divisor, of any other what the primitive answers. -/
theorem divideInstruction : Obligations.DivideInstruction := by
  intro r addr s hread
  obtain ⟨hok, hoverflow, hzero⟩ := divX_operand hread
  constructor
  · intro hx
    rw [hx, divide_zero] at hzero
    exact hzero rfl
  · intro hx
    simp only [divide_nonzero hx] at hok hoverflow hzero
    split
    · next hres => exact hok _ _ hres
    · next hres => exact hoverflow hres
    · next hres => exact hzero hres

/-! ### The end-around sums -/

/-- The number of ones of a word fits into a word (R253). -/
theorem popcount_toNat (w : Word) : (BitVec.ofNat 48 (popcount w)).toNat = popcount w := by
  have hle : popcount w ≤ 48 := List.countP_le_length.trans_eq List.length_range
  rw [BitVec.toNat_ofNat]
  exact Nat.mod_eq_of_lt (by omega)

/-- Settles O34: both are the end-around sum, of ACC as an answer of the multiplicative group, of the count of its ones
as a logical result with a free value. -/
theorem endAroundSums : Obligations.EndAroundSums := by
  intro r addr s hread
  refine ⟨⟨endAroundAdd s.acc (operandWord r addr s), endAroundAdd_toNat .., ?_⟩,
    ⟨endAroundAdd (BitVec.ofNat 48 (popcount s.acc)) (operandWord r addr s), ?_, ?_⟩⟩
  · exact runArith_ok (i := .arx r addr) (g := .multiplicative)
      (f := fun _ acc _ x => .ok (endAroundAdd acc x) 0) rfl hread rfl
  · rw [endAroundAdd_toNat, popcount_toNat, popcount]
  · have hexec : exec (.acx r addr) s = runWithX .acx r addr s fun x t =>
        setResult (endAroundAdd (BitVec.ofNat 48 (popcount t.acc)) x) (Config.draw t.draws)
          (rauWithGroup .logical t.rau) (t.draws + 1) t := rfl
    exact runX_completes_result hexec hread (by simp [rauWithGroup, groupBits])

/-! ### The logical group -/

/-- A logical result (R221, R223). -/
theorem logical_eq (res : Word × Word) (t : State) :
    logical res t = setResult res.1 res.2 (rauWithGroup .logical t.rau) t.draws t := rfl

/-- `X <- OperandX()`, a primitive that cannot fault, `SET_GROUP(LOG)` (R221, R222, R223). -/
theorem runWithX_logical {i : Instr} {r : Idx} {addr : Addr} {s : State}
    {f : BitVec 6 → Word → Word → Word → Word × Word}
    (hi : exec i s = runWithX i.op r addr s fun x t => logical (f t.rau t.acc t.rmr x) t)
    (h : operandReadable r addr s) :
    completesAs i s
      { popped r addr s with
        acc := (f s.rau s.acc s.rmr (operandWord r addr s)).1
        rmr := (f s.rau s.acc s.rmr (operandWord r addr s)).2
        rau := rauWithGroup .logical s.rau } :=
  runX_completes_result hi h (by simp [logical_eq])

/-- Settles O35: each is a logical result of ACC and the operand. -/
theorem bitwiseInstructions : Obligations.BitwiseInstructions := by
  intro r addr s hread
  refine ⟨?_, ?_, ?_⟩
  · exact runWithX_logical (f := fun _ acc _ x => (acc &&& x, 0)) rfl hread
  · exact runWithX_logical (f := fun _ acc _ x => (acc ^^^ x, acc)) rfl hread
  · exact runWithX_logical (f := fun _ acc _ x => (acc ||| x, 0)) rfl hread

/-- Settles O36: each is a logical result of its primitive, the shift count being the exponent or the literal. -/
theorem shiftAndPackInstructions : Obligations.ShiftAndPackInstructions := by
  constructor
  · intro e he r addr s hread
    have hexec : exec (e.1 r addr) s =
        runWithX (e.1 r addr).op r addr s fun x t => logical (e.2 t.rau t.acc t.rmr x) t := by
      simp only [← expo_eq] at he
      fin_cases he <;> rfl
    exact runWithX_logical hexec hread
  · intro r addr s
    rw [← lit7_eq]
    exact run_completes_result (i := .asn r addr) rfl rfl

/-! ### The arithmetic mode and the remainder -/

/-- The mode under the literal's mask, moved to the exponent field, bit by bit (R259). -/
theorem modeField_getLsbD (rau : BitVec 6) (ea : Addr) (b : Nat) (hb : b < 48) :
    ((rau.setWidth 7 &&& ea.setWidth 7).setWidth 48 <<< 41).getLsbD b =
      (decide (41 ≤ b ∧ b < 47) && rau.getLsbD (b - 41) && ea.getLsbD (b - 41)) := by
  by_cases hlow : 41 ≤ b
  · by_cases hhigh : b < 47
    · simp [hb, hlow, hhigh, show b - 41 < 7 by omega]
    · have hrau : rau.getLsbD (b - 41) = false := BitVec.getLsbD_of_ge _ _ (by omega)
      simp [hhigh, hrau]
  · simp [hlow]

/-- Settles O37: the field `RTE` writes bit by bit, and the bits that `XTR` and `NTR` load. -/
theorem modeInstructions : Obligations.ModeInstructions := by
  intro r addr s
  refine ⟨⟨_, modeField_getLsbD s.rau (effective r addr s), ?_⟩, fun hread => ?_, ?_⟩
  · exact run_completes_result (i := .rte r addr) rfl rfl
  · have hexec : exec (.xtr r addr) s = runWithX .xtr r addr s fun x t =>
        setResult t.acc t.rmr (x.extractLsb' 41 6) t.draws t := rfl
    exact runX_completes_result (a := (popped r addr s).acc) (m := (popped r addr s).rmr)
      (draws := (popped r addr s).draws) hexec hread (by simp)
  · exact run_completes_result (i := .ntr r addr) rfl rfl

/-- The current group is the logical one when of the group bits LOG is the highest (R35). -/
theorem groupOf_eq_logical_iff (rau : BitVec 6) :
    groupOf rau = .logical ↔ rau.getLsbD 4 = false ∧ rau.getLsbD 3 = false ∧ rau.getLsbD 2 = true := by
  unfold groupOf
  split_ifs <;> simp_all

/-- Settles O38: by the current group, the copy of RMR or the primitive's answer. -/
theorem readRemainder : Obligations.ReadRemainder := by
  intro r addr s
  constructor
  · intro hlog
    have hgroup : groupOf (beginHalf s).rau = .logical := (groupOf_eq_logical_iff _).2 hlog
    exact run_completes_result (i := .yta r addr) rfl (by rw [if_pos hgroup]; rfl)
  · intro hother
    have hgroup : groupOf (beginHalf s).rau ≠ .logical := by
      rw [ne_eq, groupOf_eq_logical_iff, beginHalf_rau]
      rintro ⟨hadd, hmult, hlog⟩
      rw [hadd, hmult, hlog] at hother
      simp at hother
    rw [← lit7_eq]
    split
    · next hres => exact run_completes_result (i := .yta r addr) rfl (by rw [if_neg hgroup]; simp [hres]; rfl)
    · next hres => exact run_raises_arith (i := .yta r addr) rfl (by rw [if_neg hgroup]; simp [hres]) rfl

end Sys2Proof.Machine
end

section
/-!
PROOFS. The statements about data movement: the loads and stores of the accumulator, the stack forms, the transfers
between the accumulator and the register file, and the literals.
-/

namespace Sys2Proof.Machine

/-! ### Halves that complete in line -/

/-- What the successor of a half that completes in line is computed from (R184, R188, R189). -/
def sequencing (s : State) : Addr × Bool × Option StopCode × Nat := (s.pc, s.ruu.right, s.halted, s.clock)

/-- The state inside a half that has made of the machine `u`, with the stack correction `c` in flight (R49, R182). -/
def reached (c : Corr) (u : State) : State := { beginHalf u with corr := c }

/-- A half that reaches `u`, at the place where it began, completes as `u` (R184). -/
theorem run_reaches {i : Instr} {s u : State} {c : Corr} {effect : State → Res Unit}
    (hi : exec i s = run i.op s effect) (he : effect (beginHalf s) = .ok () (reached c u))
    (hu : sequencing u = sequencing s) : completesAs i s u := by
  simp only [sequencing, Prod.mk.injEq] at hu
  obtain ⟨hpc, hright, hhalted, hclock⟩ := hu
  exact run_completesAs hi he rfl rfl hpc hright hhalted hclock rfl

/-- A half that raises nothing and reaches `u`. -/
theorem runPure_reaches {i : Instr} {s u : State} {effect : State → State}
    (hi : exec i s = runPure i.op s effect) (he : effect (beginHalf s) = beginHalf u)
    (hu : sequencing u = sequencing s) : completesAs i s u :=
  run_reaches (c := .zero) hi (congrArg (Res.ok ()) he) hu

/-- The logical group as the bits of RAU (R35, R223). -/
theorem setGroup_logical (u : State) : setGroup .logical u = { u with rau := (u.rau &&& 0o43) ||| 0o04 } := rfl

theorem setGroup_reached (g : Group) (c : Corr) (u : State) : setGroup g (reached c u) = reached c (setGroup g u) := rfl

/-- The pop of the stack inside a half (R270, R275, R281). -/
theorem popSp_beginHalf (u : State) : popSp (beginHalf u) = reached .plusOne (setSp (sp u - 1) u) := rfl

/-- The push inside a half (R276, R283). -/
theorem pushSp_beginHalf (u : State) : pushSp (beginHalf u) = reached .minusOne (setSp (sp u + 1) u) := rfl

/-- A load inside a half (R115). -/
theorem load_reached (a : Addr) (c : Corr) (u : State) :
    load a (reached c u) = match loadFault a u with
      | some f => .raised f (reached c u)
      | none => .ok (loadWord a u) (reached c u) := load_eq a (reached c u)

/-! ### The register file inside a half -/

theorem setIdx_beginHalf (r : Idx) (v : Addr) (s : State) : setIdx r v (beginHalf s) = beginHalf (setIdx r v s) := by
  unfold setIdx; split <;> rfl

theorem writeM_corr (j : BitVec 5) (v : Key) (c : Corr) (s : State) :
    writeM j v { s with corr := c } = { writeM j v s with corr := c } := by
  rcases general_or_special j with hj | ⟨k, rfl⟩
  · rw [writeM_general hj, writeM_general hj, setIdx, setIdx]; split <;> rfl
  · fin_cases k <;> rfl

theorem writeM_reached (j : BitVec 5) (v : Key) (c : Corr) (u : State) :
    writeM j v (reached c u) = reached c (writeM j v u) := by
  rw [reached, writeM_corr, writeM_beginHalf]; rfl

theorem sequencing_setIdx (r : Idx) (v : Addr) (s : State) : sequencing (setIdx r v s) = sequencing s := by
  simp [sequencing]

theorem writeM_rau (j : BitVec 5) (v : Key) (s : State) : (writeM j v s).rau = s.rau := by
  obtain ⟨-, -, -, -, -, -, hrau⟩ := writeM_keeps j v s
  exact hrau

theorem sequencing_writeM (j : BitVec 5) (v : Key) (s : State) : sequencing (writeM j v s) = sequencing s := by
  obtain ⟨-, -, hpc, hruu, hhalted, hclock, -⟩ := writeM_keeps j v s
  rw [sequencing, hpc, hruu, hhalted, hclock, sequencing]

/-! ### Stores inside a half -/

/-- A store changes none of the fields that place the half (R110). -/
theorem sequencing_stored (a : Addr) (w : Word) (s : State) : sequencing (stored a w s) = sequencing s := by
  have h := congrArg sequencing (stored_frame a w s)
  exact h

theorem stored_rau (a : Addr) (w : Word) (s : State) : (stored a w s).rau = s.rau := by
  have h := congrArg State.rau (stored_frame a w s)
  exact h

theorem sp_stored (a : Addr) (w : Word) (s : State) : sp (stored a w s) = sp s := by
  have h := congrArg sp (stored_frame a w s)
  exact h

/-- A half that begins with a store of ACC whose checks pass goes on from the stored state (R110). -/
theorem store_bind {a : Addr} {s : State} (h : storeFault a s = none) (g : Unit → State → Res Unit) :
    (store a (beginHalf s).acc (beginHalf s)).bind g = g () (beginHalf (stored a s.acc s)) := by
  rw [store_eq, storeFault_beginHalf, h, stored_beginHalf]; rfl

/-! ### Memory after a half -/

theorem completesAs_mem {i : Instr} {s t u : State} (h : completesAs i s u) (ht : exec i s = .next t) :
    t.mem = u.mem := by
  obtain ⟨t', ht', -, hsettled⟩ := h
  obtain rfl : t' = t := by simpa [ht'] using ht
  have hmem := congrArg State.mem hsettled
  exact hmem

theorem recover_mem (f : Trap) (s : State) : (recover f s).mem = s.mem := by
  unfold recover
  split
  · rfl
  · split <;> rfl

/-- A half that leaves memory as a store does changes no cell but that of the evicted line (R112). -/
theorem memRead_of_stored {a : Addr} {w : Word} {s t : State} {p : Phys} (hm : Memory.wf s.mem)
    (ht : t.mem = (stored a w s).mem) (hp : cellWritten a s ≠ some p) : memRead p t = memRead p s :=
  (memRead_congr ht p).trans (memRead_stored hm hp)

/-! ### The revert of a half that moved the stack -/

/-- A load fault after the stack was moved: SP by the stack correction, and what a store before it did to the buffer
and memory remains (R186). -/
theorem revert_reached {f : Trap} {s u : State} {n : Addr} {c : Corr} (hf : Cause.isArith f.cause = false)
    (hu : { u with wb := s.wb, mem := s.mem } = s) (hn : n + c.offset = sp s) :
    revert f s (reached c (setSp n u)) = u := by
  have hback : { s with mem := u.mem, wb := u.wb, pf := u.pf, draws := u.draws } = u :=
    (congrArg (fun x : State => { x with mem := u.mem, wb := u.wb, pf := u.pf, draws := u.draws }) hu).symm
  have hsp : sp (setSp n u) + c.offset = sp u := by
    have h := congrArg sp hu
    rw [sp_setSp, hn]
    exact h.symm
  have hrevert : revert f s (reached c (setSp n u)) =
      setSp (sp (setSp n u) + c.offset) { s with mem := u.mem, wb := u.wb, pf := u.pf, draws := u.draws } := by
    simp only [revert, hf]; rfl
  rw [hrevert, hback, hsp, setSp_sp]

/-! ### The accumulator -/

/-- Settles O39: the half begins with its operand and writes ACC and the group. -/
theorem loadAccumulator : Obligations.LoadAccumulator := by
  intro r addr s hread
  have hexec : exec (.xta r addr) s = run .xta s fun t => (operandX r addr t).bind fun x u =>
      .ok () (setResult x u.rmr (rauWithGroup .logical u.rau) u.draws u) := rfl
  exact runX_completes_result (m := (popped r addr s).rmr) (draws := (popped r addr s).draws) hexec hread
    (by simp [rauWithGroup, groupBits])

/-- What `ATX` makes of the machine where the checks of its store pass (R271, R274). -/
theorem atx_completes {r : Idx} {addr : Addr} {s : State} (h : storeFault (effective r addr s) s = none) :
    completesAs (.atx r addr) s
      (if r = 15 ∧ modified addr s = 0 then setSp (sp s + 1) (stored (effective r addr s) s.acc s)
      else stored (effective r addr s) s.acc s) := by
  have hseq := sequencing_stored (effective r addr s) s.acc s
  have hstack : addressesStack r addr (beginHalf s) = true ↔ r = 15 ∧ modified addr s = 0 := addressesStack_iff
  refine run_reaches (c := .zero) (runStoring_eq .atx (effective r addr s) s _) ((store_bind h _).trans ?_) ?_
  · simp only [hstack, sp_beginHalf, sp_stored]
    split <;> rfl
  · split <;> exact hseq

/-- Settles O40: the store, the increment when it pushes, and the memory of the store. -/
theorem storeAccumulator : Obligations.StoreAccumulator := by
  intro r addr s hm h
  refine ⟨atx_completes h, fun t ht p hp => memRead_of_stored (w := s.acc) hm ?_ hp⟩
  rw [completesAs_mem (atx_completes h) ht]
  split <;> rfl

/-! ### A store, the stack, a load -/

/-- The half `i` at `s` stores ACC at `b`, moves SP to `n` with the correction `c` that undoes the move, and loads ACC
from `a` (R275, R276). -/
structure StoresMovesLoads (i : Instr) (s : State) (b n : Addr) (c : Corr) (a : Addr) : Prop where
  runs : ∃ effect, exec i s = run i.op s effect ∧
    effect (beginHalf s) = loadAcc a (reached c (setSp n (stored b s.acc s)))
  undone : n + c.offset = sp s

section
variable {i : Instr} {s : State} {b n a : Addr} {c : Corr} (hi : StoresMovesLoads i s b n c a)
include hi

/-- Where the load passes, the half completes (R275, R276). -/
theorem StoresMovesLoads.completes (h : loadFault a (setSp n (stored b s.acc s)) = none) :
    completesAs i s
      { setSp n (stored b s.acc s) with
        acc := loadWord a (setSp n (stored b s.acc s)), rau := (s.rau &&& 0o43) ||| 0o04 } := by
  obtain ⟨⟨effect, hrun, he⟩, -⟩ := hi
  refine run_reaches (c := c) hrun (he.trans ?_) (sequencing_stored b s.acc s)
  rw [loadAcc, load_reached, h, ← stored_rau b s.acc s]; rfl

/-- Where the load faults, the stored word remains and SP is restored (R186). -/
theorem StoresMovesLoads.faults {f : Trap} (h : loadFault a (setSp n (stored b s.acc s)) = some f) :
    exec i s = .next (recover f (stored b s.acc s)) := by
  obtain ⟨⟨effect, hrun, he⟩, hn⟩ := hi
  have hraise : effect (beginHalf s) = .raised f (reached c (setSp n (stored b s.acc s))) := by
    rw [he, loadAcc, load_reached, h]; rfl
  rw [run_raises hrun hraise, revert_reached (loadFault_not_arith h) (stored_frame b s.acc s) hn]

/-- Either way the half leaves memory as its store does (R112). -/
theorem StoresMovesLoads.mem {t : State} (ht : exec i s = .next t) : t.mem = (stored b s.acc s).mem := by
  cases h : loadFault a (setSp n (stored b s.acc s)) with
  | none =>
    have hmem := completesAs_mem (hi.completes h) ht
    exact hmem
  | some f =>
    rw [hi.faults h] at ht
    cases ht
    exact recover_mem f _

end

/-- `STX` loads from the new SP, one below the old (R275). -/
theorem stx_storesMovesLoads {r : Idx} {addr : Addr} {s : State} (h : storeFault (effective r addr s) s = none) :
    StoresMovesLoads (.stx r addr) s (effective r addr s) (sp s - 1) .plusOne (sp s - 1) where
  runs := by
    refine ⟨_, runStoring_eq .stx (effective r addr s) s _, (store_bind h _).trans ?_⟩
    rw [popSp_beginHalf, sp_stored]
    exact congrArg (loadAcc · _) (sp_setSp (sp s - 1) _)
  undone := BitVec.sub_add_cancel _ _

/-- Settles O41: the store, the pop, the load from the new SP. -/
theorem storeAndPop : Obligations.StoreAndPop := by
  intro r addr s hm h
  have hi := stx_storesMovesLoads h
  exact ⟨hi.completes, fun _ => hi.faults, fun _ ht _ => memRead_of_stored hm (hi.mem ht)⟩

/-- `XTS` reads the index register after the push (R276). -/
theorem xts_storesMovesLoads {r : Idx} {addr : Addr} {s : State} (h : storeFault (sp s) s = none) :
    StoresMovesLoads (.xts r addr) s (sp s) (sp s + 1) .minusOne
      (modified addr s + idx r (setSp (sp s + 1) (stored (sp s) s.acc s))) where
  runs := by
    have hmod : modified addr (stored (sp s) s.acc s) = modified addr s := by
      have hframe := congrArg (modified addr) (stored_frame (sp s) s.acc s)
      exact hframe
    refine ⟨_, runStoring_eq .xts (sp s) s _, (store_bind h _).trans ?_⟩
    rw [pushSp_beginHalf, sp_stored, ← hmod]; rfl
  undone := add_neg_cancel_right _ _

/-- Settles O42: the store, the push, the load with the index register read after it. -/
theorem pushAndLoad : Obligations.PushAndLoad := by
  intro r addr s hm h
  have hi := xts_storesMovesLoads (r := r) (addr := addr) h
  exact ⟨hi.completes, fun _ => hi.faults, fun _ ht _ => memRead_of_stored hm (hi.mem ht)⟩

/-- What `ITS` makes of the machine where the checks of its store pass (R283). -/
theorem its_completes {r : Idx} {addr : Addr} {s : State} (h : storeFault (sp s) s = none) :
    completesAs (.its r addr) s
      { setSp (sp s + 1) (stored (sp s) s.acc s) with
        acc := (readM (selector (effective r addr s) s) (setSp (sp s + 1) (stored (sp s) s.acc s))).setWidth 48
        rau := (s.rau &&& 0o43) ||| 0o04 } := by
  refine run_reaches (c := .minusOne) (runStoring_eq .its (sp s) s _) ((store_bind h _).trans ?_)
    (sequencing_stored (sp s) s.acc s)
  rw [pushSp_beginHalf, sp_stored, ← stored_rau (sp s) s.acc s]; rfl

/-- Settles O45: the store, the push, the register selected before it and read after it. -/
theorem pushThenIndexToAcc : Obligations.PushThenIndexToAcc := by
  intro r addr s hm h
  refine ⟨its_completes h, fun t ht p hp => ?_⟩
  have hmem := completesAs_mem (its_completes (r := r) (addr := addr) h) ht
  exact memRead_of_stored (w := s.acc) hm hmem hp

/-! ### The accumulator and the register file -/

/-- The value `ATI` writes (R280). -/
theorem atiValue_eq (j : BitVec 5) (s : State) :
    atiValue j s =
      if supervisor s = true ∧ s.psw.getLsbD 0 = true ∧ (j = 0o34 ∨ j = 0o35) then
        (s.acc.extractLsb' 0 15).setWidth 16 ||| 0o100000
      else (s.acc.extractLsb' 0 15).setWidth 16 := by
  simp only [atiValue, mmapDisable, BitVec.setWidth_eq_extractLsb' (show 15 ≤ 48 by decide), Bool.and_eq_true,
    Bool.or_eq_true, beq_iff_eq, and_assoc]

/-- Settles O43: one write of the register file, and one read into ACC with the group. -/
theorem indexTransfers : Obligations.IndexTransfers := by
  intro r addr s j
  rw [← atiValue_eq]
  exact ⟨run_writeM (i := .ati r addr) rfl, runPure_reaches (i := .ita r addr) rfl rfl rfl⟩

/-- Settles O46: one write of the register file each. -/
theorem registerToRegister : Obligations.RegisterToRegister := by
  intro r addr s j
  have hsum : BitVec.ofNat 16 (((readM j s).toNat + (idx r s).toNat) % 2 ^ 15) =
      ((readM j s).setWidth 15 + idx r s).setWidth 16 := by
    apply BitVec.eq_of_toNat_eq
    simp
  rw [hsum]
  exact ⟨run_writeM (i := .mtj r addr) rfl, run_writeM (i := .jaddM r addr) rfl⟩

/-- The state `STI` loads in: SP popped, unless the register it names is SP itself (R281). -/
def stiPopped (j : BitVec 5) (s : State) : State := if j = 0o17 then s else setSp (sp s - 1) s

/-- The address `STI` loads from: the new SP either way (R281). -/
def stiAddr (j : BitVec 5) (s : State) : Addr := if j = 0o17 then s.acc.extractLsb' 0 15 else sp s - 1

/-- The stack correction of `STI` (R49, R281). -/
def stiCorr (j : BitVec 5) : Corr := if j = 0o17 then .zero else .plusOne

/-- The register and the logical group after the load of `STI` (R281). -/
theorem setGroup_writeM_reached (j : BitVec 5) (v : Key) (c : Corr) (u : State) :
    setGroup .logical (writeM j v (reached c u)) =
      reached c { writeM j v u with rau := (u.rau &&& 0o43) ||| 0o04 } := by
  rw [writeM_reached, setGroup_reached, setGroup_logical, writeM_rau]

/-- `STI` is the pop, the load, then the register and the group (R281). -/
theorem sti_effect (r : Idx) (addr : Addr) (s : State) :
    ∃ effect : State → Res Unit, exec (.sti r addr) s = run .sti s effect ∧
      effect (beginHalf s) =
        (load (stiAddr (selector (effective r addr s) s) s)
          (reached (stiCorr (selector (effective r addr s) s)) (stiPopped (selector (effective r addr s) s) s))).bind
          fun x w => .ok () (setGroup .logical
            (writeM (selector (effective r addr s) s) ((s.acc.extractLsb' 0 15).setWidth 16) { w with acc := x })) := by
  refine ⟨_, rfl, ?_⟩
  simp only [selector_beginHalf, effective_beginHalf, beginHalf_acc, stiAddr, stiPopped, stiCorr, beq_iff_eq,
    BitVec.setWidth_eq_extractLsb' (show 15 ≤ 48 by decide)]
  split
  · rfl
  · rw [popSp_beginHalf]
    exact congrArg (fun a => (load a _).bind _) (sp_setSp (sp s - 1) s)

/-- A load fault of `STI` restores the state the half began in (R186, R281). -/
theorem revert_stiPopped {f : Trap} (hf : Cause.isArith f.cause = false) (j : BitVec 5) (s : State) :
    revert f s (reached (stiCorr j) (stiPopped j s)) = s := by
  unfold stiCorr stiPopped
  split
  · exact revert_beginHalf hf s
  · exact revert_reached hf rfl (BitVec.sub_add_cancel _ _)

theorem sequencing_stiPopped (j : BitVec 5) (s : State) : sequencing (stiPopped j s) = sequencing s := by
  unfold stiPopped; split <;> rfl

theorem stiPopped_rau (j : BitVec 5) (s : State) : (stiPopped j s).rau = s.rau := by
  unfold stiPopped; split <;> rfl

section
variable {r : Idx} {addr : Addr} {s : State} {j : BitVec 5} (hj : selector (effective r addr s) s = j)
include hj

/-- What `STI` makes of the machine where its load passes (R281). -/
theorem sti_completes (h : loadFault (stiAddr j s) (stiPopped j s) = none) :
    completesAs (.sti r addr) s
      { writeM j ((s.acc.extractLsb' 0 15).setWidth 16)
          { stiPopped j s with acc := loadWord (stiAddr j s) (stiPopped j s) } with
        rau := (s.rau &&& 0o43) ||| 0o04 } := by
  obtain ⟨effect, hi, he⟩ := sti_effect r addr s
  rw [hj, load_reached, h] at he
  refine run_reaches (c := stiCorr j) hi (he.trans ?_)
    ((sequencing_writeM j _ _).trans (sequencing_stiPopped j s))
  rw [← stiPopped_rau j s]
  exact congrArg (Res.ok ()) (setGroup_writeM_reached j _ _ { stiPopped j s with acc := _ })

/-- Where its load faults, the pop is undone and no register written (R186, R281). -/
theorem sti_faults {f : Trap} (h : loadFault (stiAddr j s) (stiPopped j s) = some f) :
    exec (.sti r addr) s = .next (recover f s) := by
  obtain ⟨effect, hi, he⟩ := sti_effect r addr s
  rw [hj, load_reached, h] at he
  rw [run_raises hi he, revert_stiPopped (loadFault_not_arith h)]

end

/-- Settles O44: the load in the popped state, then the register and the group, or the revert of the pop. -/
theorem registerFromAccPops : Obligations.RegisterFromAccPops :=
  fun _ _ _ => ⟨sti_completes rfl, fun _ => sti_faults rfl⟩

/-! ### Literals -/

/-- The bits of a flag word with one bit written. -/
theorem getLsbD_putBit {w : Nat} (v : BitVec w) {i : Nat} (hi : i < w) (b : Bool) (k : Nat) :
    (putBit v i b).getLsbD k = if k = i then b else v.getLsbD k := by
  unfold putBit
  by_cases hk : k = i
  · cases b <;> simp [hk, hi]
  · have hne : i ≠ k := Ne.symm hk
    cases b with
    | true => simp [hk, hne]
    | false => simpa [hk, hne] using BitVec.lt_of_getLsbD (x := v)

/-- PSW with its disable bits from a literal: bits 0, 1 and 10, and the others as they were (R36, R286). -/
theorem getLsbD_pswWithDisables (psw v : Addr) (b : Nat) :
    (pswWithDisables psw (v.getLsbD 0) (v.getLsbD 1) (v.getLsbD 10)).getLsbD b =
      if b = 0 ∨ b = 1 ∨ b = 10 then v.getLsbD b else psw.getLsbD b := by
  rw [pswWithDisables, getLsbD_putBit _ (by decide), getLsbD_putBit _ (by decide), getLsbD_putBit _ (by decide)]
  split_ifs <;> simp_all

/-- What `VTM` and `UTM` make of the machine with the literal `v` (R286, R287). -/
def literalWritten (r : Idx) (v : Addr) (s : State) : State := literalToPsw r v (setIdx r v s)

theorem literalWritten_beginHalf (r : Idx) (v : Addr) (s : State) :
    literalWritten r v (beginHalf s) = beginHalf (literalWritten r v s) := by
  rw [literalWritten, setIdx_beginHalf, literalWritten]
  unfold literalToPsw
  rw [supervisor_beginHalf]
  split <;> rfl

theorem sequencing_literalWritten (r : Idx) (v : Addr) (s : State) :
    sequencing (literalWritten r v s) = sequencing s := by
  refine Eq.trans ?_ (sequencing_setIdx r v s)
  unfold literalWritten literalToPsw
  split <;> rfl

/-- With a register other than 0 the literal goes to that register alone. -/
theorem literalWritten_register {r : Idx} (hr : r ≠ 0) (v : Addr) (s : State) :
    literalWritten r v s = setIdx r v s := by
  have hzero : ¬(supervisor (setIdx r v s) && r == 0) = true := fun h => hr (beq_iff_eq.1 (Bool.and_eq_true_iff.1 h).2)
  rw [literalWritten, literalToPsw, if_neg hzero]

/-- With register 0 in supervisor mode it goes to the disable bits of PSW. -/
theorem literalWritten_psw {s : State} (hs : supervisor s = true) (v : Addr) :
    literalWritten 0 v s =
      { s with psw := pswWithDisables s.psw (v.getLsbD 0) (v.getLsbD 1) (v.getLsbD 10) } := by
  simp [literalWritten, literalToPsw, hs]

/-- With register 0 outside supervisor mode it goes nowhere. -/
theorem literalWritten_user {s : State} (hs : supervisor s = false) (v : Addr) : literalWritten 0 v s = s :=
  literalToPsw_user hs 0 v

/-- Settles O47: both write their literal, to the register, to PSW, or nowhere. -/
theorem literalToIndex : Obligations.LiteralToIndex := by
  intro r addr s e he
  have hcompletes : completesAs (e.1 r addr) s (literalWritten r e.2 s) := by
    have hexec : exec (e.1 r addr) s = runPure (e.1 r addr).op s (literalWritten r e.2) := by
      fin_cases he <;> rfl
    exact runPure_reaches hexec (literalWritten_beginHalf r e.2 s) (sequencing_literalWritten r e.2 s)
  refine ⟨?_, ?_, fun hr => ?_⟩
  · rintro ⟨rfl, hs⟩
    rw [literalWritten_psw hs] at hcompletes
    exact ⟨_, hcompletes, fun b _ => getLsbD_pswWithDisables s.psw e.2 b⟩
  · rintro ⟨rfl, hs⟩
    rwa [literalWritten_user hs] at hcompletes
  · rwa [literalWritten_register hr] at hcompletes

end Sys2Proof.Machine
end

section
/-!
PROOFS. The statements about branches: the conditional branches on the accumulator, the jumps, the branches on an index
register, and the loop.
-/

namespace Sys2Proof.Machine

/-! ### Halves that transfer control -/

section
variable {i : Instr} {s u : State} {target : Addr} {effect : State → State}

/-- A half that raises nothing and transfers control once it has made `u` of the machine (R184, R185). -/
theorem runPure_jumpsAs (hi : exec i s = runPure i.op s effect) (he : effect (beginHalf s) = jump target (beginHalf u))
    (hu : sequencing u = sequencing s) : jumpsAs i target s u := by
  simp only [sequencing, Prod.mk.injEq] at hu
  obtain ⟨-, -, hhalted, hclock⟩ := hu
  exact run_jumpsAs hi (congrArg (Res.ok ()) he) rfl rfl rfl rfl hhalted hclock rfl

/-- A half that raises nothing and ends in a transfer on a condition: the condition decides how it completes
(R184, R185). -/
theorem runPure_jumpIf {c : Bool} {p : Prop} [Decidable p] (hi : exec i s = runPure i.op s effect)
    (he : effect (beginHalf s) = jumpIf c target (beginHalf u)) (hc : c = true ↔ p)
    (hu : sequencing u = sequencing s) : if p then jumpsAs i target s u else completesAs i s u := by
  split
  · next hp => exact runPure_jumpsAs hi (he.trans (if_pos (hc.2 hp))) hu
  · next hp => exact runPure_reaches hi (he.trans (if_neg (mt hc.1 hp))) hu

end

/-! ### Branches on the accumulator -/

/-- The branch condition, read from the bits of RAU that give the group (R35, R310). -/
theorem uzaCond_groupOf (rau : BitVec 6) (acc : Word) :
    uzaCond (groupOf rau) acc =
      if rau.getLsbD 4 then !acc.getLsbD 40
      else if rau.getLsbD 3 then acc.getLsbD 47
      else if rau.getLsbD 2 then decide (acc = 0)
      else false := by
  unfold groupOf
  split_ifs <;> rfl

/-- Settles O48: one condition, computed from the state the half began in; `UZA` jumps on it, `U1A` on its negation. -/
theorem conditionalBranches : Obligations.ConditionalBranches := by
  intro r addr s
  rw [← uzaCond_groupOf]
  refine ⟨runPure_jumpIf (i := .uza r addr) rfl rfl Iff.rfl rfl, ?_⟩
  rw [← ite_not]
  exact runPure_jumpIf (i := .u1a r addr) rfl rfl (by simp) rfl

/-! ### Jumps, and branches on an index register -/

theorem vjm_jumps (r : Idx) (addr : Addr) (s : State) :
    jumpsAs (.vjm r addr) (modified addr s) s (setIdx r (s.pc + 1) s) :=
  runPure_jumpsAs (i := .vjm r addr) rfl (congrArg (jump _) (setIdx_beginHalf r (s.pc + 1) s))
    (sequencing_setIdx r (s.pc + 1) s)

theorem vlm_jumps {r : Idx} {s : State} (h : idx r s ≠ 0) (addr : Addr) :
    jumpsAs (.vlm r addr) (modified addr s) s (setIdx r (idx r s + 1) s) := by
  have hcond : (idx r (beginHalf s) != 0) = true := bne_iff_ne.2 h
  refine runPure_jumpsAs (i := .vlm r addr) rfl ((if_pos hcond).trans ?_) (sequencing_setIdx r (idx r s + 1) s)
  exact congrArg (jump _) (setIdx_beginHalf r (idx r s + 1) s)

theorem vlm_completes {r : Idx} {s : State} (h : idx r s = 0) (addr : Addr) : completesAs (.vlm r addr) s s := by
  have hcond : ¬(idx r (beginHalf s) != 0) = true := fun hne => bne_iff_ne.1 hne h
  exact runPure_reaches (i := .vlm r addr) rfl (if_neg hcond) rfl

/-- Settles O49: two jumps, two branches on the index register being 0 or not, and the loop, which counts only where it
jumps. -/
theorem jumpsAndLoops : Obligations.JumpsAndLoops := by
  intro r addr s
  refine ⟨runPure_jumpsAs (i := .uj r addr) rfl rfl rfl, vjm_jumps r addr s, ?vzm, ?v1m, ?vlm⟩
  case vzm => exact runPure_jumpIf (i := .vzm r addr) rfl rfl beq_iff_eq rfl
  case v1m =>
    rw [← ite_not]
    exact runPure_jumpIf (i := .v1m r addr) rfl rfl bne_iff_ne rfl
  case vlm =>
    split
    · next h => exact vlm_completes h addr
    · next h => exact vlm_jumps h addr

end Sys2Proof.Machine
end

section
/-!
PROOFS. The statements about address modification: the two instructions that install a modification, and how far it
reaches.
-/

namespace Sys2Proof.Machine

/-! ### The two instructions -/

/-- The modification set up inside a half is a sequencing field until the commit installs it (R49, R184). -/
theorem settled_nextMod (m : Option Addr) (u : State) : settled { u with nextMod := m } = settled u := rfl

/-- `UTC` for every operand: its effective address is the modification of the next half (R330). -/
theorem utc_modifiesNext (r : Idx) (addr : Addr) (s : State) : modifiesNext (.utc r addr) (effective r addr s) s s :=
  run_modifiesNext (i := .utc r addr) (t := { beginHalf s with nextMod := some (effective r addr s) })
    rfl rfl rfl rfl rfl rfl rfl rfl rfl

/-- `WTC` with a readable operand: the low bits of the loaded word are the modification of the next half, and the pop
of the stack is all that reading the operand leaves (R222, R331). -/
theorem wtc_modifiesNext {r : Idx} {addr : Addr} {s : State} (h : operandReadable r addr s) :
    modifiesNext (.wtc r addr) ((operandWord r addr s).extractLsb' 0 15) s (popped r addr s) := by
  rw [← BitVec.setWidth_eq_extractLsb' (by decide)]
  refine run_modifiesNext (i := .wtc r addr)
    (t := { operandRead r addr s with nextMod := some ((operandWord r addr s).setWidth 15) })
    rfl (operandX_bind h _) rfl rfl ?pc ?right ?halted ?clock ?settled
  case pc => exact operandRead_pc r addr s
  case right => exact congrArg Ruu.right (operandRead_ruu r addr s)
  case halted => exact operandRead_halted r addr s
  case clock => exact operandRead_clock r addr s
  case settled => rw [settled_nextMod, settled_operandRead]

/-- Settles O50: both install what they computed, and only the operand of `WTC` can pop the stack. -/
theorem addressModifiers : Obligations.AddressModifiers :=
  fun r addr s => ⟨utc_modifiesNext r addr s, wtc_modifiesNext⟩

/-! ### The reach of a modification -/

/-- With a modification pending, the effective address adds it to the literal (R154). -/
theorem effective_pending {t : State} (h : t.ruu.modPending = true) (q : Idx) (b : Addr) :
    effective q b t = b + t.mod + idx q t := by
  simp [effective, modified, h]

/-- The index registers are no sequencing fields. -/
theorem idx_settled (q : Idx) (s : State) : idx q (settled s) = idx q s := rfl

/-- A half that installs the modification `v` leaves it in MOD (R184). -/
theorem mod_of_settled {s t : State} {v : Addr} (h : settled t = settled { s with mod := v }) : t.mod = v :=
  congrArg State.mod h

/-- After a half that installs `v` and changes no index register, every effective address of the next half is `v` more
than its fields give (R154, R330). -/
theorem effective_after_modification {t s : State} {v : Addr} (hp : t.ruu.modPending = true)
    (h : settled t = settled { s with mod := v }) (q : Idx) (b : Addr) : effective q b t = b + v + idx q s := by
  have hidx : idx q t = idx q s := by
    rw [← idx_settled q t, h, idx_settled]; rfl
  rw [effective_pending hp, mod_of_settled h, hidx]

/-- Settles O51: the half after a `UTC` computes its effective address with the modification; a jump goes there and
uses the modification up, another `UTC` installs that address in its place. The premise that the first half does not
run out is not needed: `exec` is the meaning of a half whether or not the machine goes on to it. -/
theorem modificationLastsOneHalf : Obligations.ModificationLastsOneHalf := by
  intro r q a b s t ht _
  obtain ⟨t', ht', hpending, -, hsettled⟩ := utc_modifiesNext r a s
  obtain rfl : t = t' := Host.Outcome.next.inj (ht.symm.trans ht')
  rw [← effective_after_modification hpending hsettled q b]
  constructor
  · obtain ⟨u, hu, ⟨hpc, -, hused, -⟩, -⟩ := (jumpsAndLoops q b t).1
    exact ⟨u, hu, hpc, hused⟩
  · obtain ⟨u, hu, hinstalled, -, hmod⟩ := utc_modifiesNext q b t
    exact ⟨u, hu, mod_of_settled hmod, hinstalled⟩

end Sys2Proof.Machine
end

section
/-!
PROOFS. The statements about the special-register instruction `MOD`: its numbered and its OPEN sub-operations, the
atomic claim, the selectors that do nothing and those that are declined.
-/

namespace Sys2Proof.Machine

/-! ### The sub-operation of a selector -/

/-- The selector `sel` is not declined, and the sub-operation `o` is the one it selects (R341, R347). -/
abbrev decodesTo (sel : BitVec 8) (o : Subop) : Prop := unimplementedSelector sel = false ∧ subopOf sel = o

section
variable (k : Fin 8)

theorem decodesTo_wbWrite : decodesTo (BitVec.ofNat 8 k.val) (.wbWrite k) := by
  revert k; decide

theorem decodesTo_wbRead : decodesTo (BitVec.ofNat 8 (0o200 + k.val)) (.wbRead k) := by
  revert k; decide

theorem decodesTo_ptrWriteU : decodesTo (BitVec.ofNat 8 (0o20 + k.val)) (.ptrWriteU k) := by
  revert k; decide

end

theorem decodesTo_protWrite (k : Fin 4) : decodesTo (BitVec.ofNat 8 (0o30 + k.val)) (.protWrite k) := by
  revert k; decide

theorem decodesTo_control : ∀ c < 32,
    decodesTo (BitVec.ofNat 8 (0o100 + c)) (.control (c.testBit 0) (c.testBit 1) (c.testBit 2)) := by
  decide

/-- A selector outside the numbered rows is not declined and is looked up among the OPEN ones (R341). -/
theorem decodesTo_openSubop {sel : BitVec 8} (h : knownSelector sel = false) : decodesTo sel (openSubop sel) := by
  simp only [knownSelector, Bool.or_eq_false_iff, Bool.and_eq_false_iff, decide_eq_false_iff_not, beq_eq_false_iff_ne,
    ne_eq, ← BitVec.toNat_inj, BitVec.reduceToNat] at h
  obtain ⟨⟨⟨hlow, hmiddle⟩, hhigh⟩, hread⟩ := h
  constructor
  · simp only [unimplementedSelector, Bool.and_eq_false_iff, decide_eq_false_iff_not]; omega
  · unfold subopOf
    dsimp only
    repeat rw [if_neg (by omega)]

theorem openSubop_ptrWriteS (k : Fin 8) :
    openSubop (BitVec.ofNat 8 (Config.subopCodes.ptrWriteS.toNat + k.val)) = .ptrWriteS k := by
  have hrange := Config.subopCodes.ptrInRange
  have hsel : (BitVec.ofNat 8 (Config.subopCodes.ptrWriteS.toNat + k.val)).toNat =
      Config.subopCodes.ptrWriteS.toNat + k.val := by
    rw [BitVec.toNat_ofNat, Nat.mod_eq_of_lt (by omega)]
  simp only [openSubop, hsel]
  rw [if_pos (by omega)]
  exact congrArg Subop.ptrWriteS (Fin.ext (by simp only; omega))

/-- An OPEN selector other than those of PTR_WRITE_S selects its own sub-operation: the selectors are distinct (R341). -/
theorem openSubop_code (o : OpenSubop) : openSubop (Config.subopCodes.code o) = .openOp o := by
  have hsame : (fun x => Config.subopCodes.code x == Config.subopCodes.code o) = (· == o) := by
    funext x
    by_cases hx : x = o
    · simp [hx]
    · have hcode : Config.subopCodes.code x ≠ Config.subopCodes.code o :=
        fun h => hx (Config.subopCodes.codeInjective x o h)
      simp [hx, hcode]
  have hfind : openSubops.find? (fun x => Config.subopCodes.code x == Config.subopCodes.code o) = some o := by
    rw [hsame]; cases o <;> rfl
  have hptr := Config.subopCodes.codeNotPtr o
  simp only [openSubop, hfind]
  rw [if_neg (by omega)]

theorem openSubop_unassigned {sel : BitVec 8} (hptr : ∀ i < 8, sel.toNat ≠ Config.subopCodes.ptrWriteS.toNat + i)
    (hcode : ∀ o, sel ≠ Config.subopCodes.code o) : openSubop sel = .noOp := by
  have hfind : openSubops.find? (fun x => Config.subopCodes.code x == sel) = none :=
    List.find?_eq_none.2 fun o _ h => hcode o (beq_iff_eq.1 h).symm
  have hout : ¬(Config.subopCodes.ptrWriteS.toNat ≤ sel.toNat ∧ sel.toNat < Config.subopCodes.ptrWriteS.toNat + 8) :=
    fun h => hptr (sel.toNat - Config.subopCodes.ptrWriteS.toNat) (by omega) (by omega)
  simp only [openSubop, hfind]
  rw [if_neg hout]

theorem decodesTo_ptrWriteS (k : Fin 8) :
    decodesTo (BitVec.ofNat 8 (Config.subopCodes.ptrWriteS.toNat + k.val)) (.ptrWriteS k) :=
  openSubop_ptrWriteS k ▸ decodesTo_openSubop (Config.subopCodes.ptrFree k)

theorem decodesTo_openOp (o : OpenSubop) :
    decodesTo (BitVec.ofNat 8 (Config.subopCodes.code o).toNat) (.openOp o) := by
  rw [BitVec.ofNat_toNat, BitVec.setWidth_eq]
  exact openSubop_code o ▸ decodesTo_openSubop (Config.subopCodes.codeFree o)

/-! ### The flush and the claim -/

/-- The flush changes the write buffer and memory alone (R113). -/
theorem flushAll_frame (s : State) : { flushAll s with wb := s.wb, mem := s.mem } = s := by
  have hlines : ∀ (L : List (Fin 8)) (t : State), { t with wb := s.wb, mem := s.mem } = s →
      { L.foldl (fun t i => flushLine i t) t with wb := s.wb, mem := s.mem } = s := by
    intro L
    induction L with
    | nil => exact fun _ h => h
    | cons i L ih =>
      refine fun t h => ih _ (Eq.trans ?_ h)
      exact congrArg (fun x : State => { x with wb := s.wb, mem := s.mem }) (flushLine_frame i t)
  exact hlines wbLines s rfl

/-- "Make memory current" changes the write buffer and memory alone (R357). -/
theorem flushKey_frame (k : Key) (s : State) : { flushKey k s with wb := s.wb, mem := s.mem } = s := by
  unfold flushKey
  split
  · exact flushLine_frame _ s
  · rfl

/-- The test and set changes memory alone (R357). -/
theorem setClaimed_frame (p : Phys) (s : State) : { setClaimed p s with mem := s.mem } = s := by
  simp only [setClaimed]
  split <;> rfl

theorem flushKey_hit {k : Key} {i : Fin 8} {s : State} (h : wbHits k i s) : flushKey k s = flushLine i s := by
  rw [flushKey, wbFind_some.2 h]

theorem flushKey_miss {k : Key} {s : State} (h : wbMisses k s) : flushKey k s = s := by
  rw [flushKey, wbFind_none.2 h]

theorem flushLine_wb (i : Fin 8) (s : State) :
    (flushLine i s).wb =
      { s.wb with lines := s.wb.lines.set i.val { s.wb.lines[i.val] with valid := false } } := by
  simp only [flushLine, setWbLine, writeBack_wb]

/-- Memory after the flush of a valid line (R113). -/
theorem memRead_flushLine {s : State} (hm : Memory.wf s.mem) {i : Fin 8} (hv : s.wb.lines[i.val].valid = true)
    (q : Phys) :
    memRead q (flushLine i s) =
      if q = s.wb.lines[i.val].phys then ⟨s.wb.lines[i.val].word, s.wb.lines[i.val].tag⟩ else memRead q s := by
  rw [memRead_congr (flushLine_mem i s), memRead_writeBack hm]
  simp only [hv, true_and]

theorem flushKey_wf {s : State} (hm : Memory.wf s.mem) (k : Key) : Memory.wf (flushKey k s).mem := by
  unfold flushKey
  split
  · exact writeBack_wf hm _
  · exact hm

theorem or_twoPow_of_getLsbD {w i : Nat} {x : BitVec w} (h : x.getLsbD i = true) : x ||| BitVec.twoPow w i = x := by
  refine BitVec.eq_of_getLsbD_eq fun j hj => ?_
  rw [BitVec.getLsbD_or, BitVec.getLsbD_twoPow]
  by_cases hij : i = j
  · subst hij; simp [h]
  · simp [hij]

/-- Memory after the test and set: the claimed bit is set, whether or not it was (R357). -/
theorem memRead_setClaimed {s : State} (hm : Memory.wf s.mem) (p q : Phys) :
    memRead q (setClaimed p s) =
      if q = p then ⟨(memRead p s).word ||| BitVec.twoPow 48 Config.claimBit.val, (memRead p s).tag⟩
      else memRead q s := by
  simp only [setClaimed]
  split
  · next h =>
    rw [or_twoPow_of_getLsbD h]
    split
    · next hq => rw [hq]
    · rfl
  · exact memRead_memWrite hm p q _

/-- The claim changes ACC, the write buffer and memory alone (R357). -/
theorem claim_frame (s : State) : { claim s with acc := s.acc, wb := s.wb, mem := s.mem } = s := by
  let k := resolve (s.acc.setWidth 15) s
  have hset := congrArg (fun x : State => { x with acc := s.acc, wb := s.wb, mem := s.mem })
    (setClaimed_frame (translate k s) (flushKey k s))
  have hflush := congrArg (fun x : State => { x with acc := s.acc }) (flushKey_frame k s)
  exact hset.trans hflush

theorem setClaimed_wb (p : Phys) (s : State) : (setClaimed p s).wb = s.wb := by
  simp only [setClaimed]
  split <;> rfl

/-- The claim field by field: the old word in ACC, the buffer and memory after the flush and the test and set (R357;
log 44). -/
theorem claim_eq (s : State) :
    let k := resolve (s.acc.extractLsb' 0 15) s
    claim s = { s with
      acc := (memRead (translate k s) (flushKey k s)).word
      wb := (flushKey k s).wb
      mem := (setClaimed (translate k s) (flushKey k s)).mem } := by
  rw [← BitVec.setWidth_eq_extractLsb' (show 15 ≤ 48 by decide)]
  intro k
  have hframe : claim s = { s with acc := (claim s).acc, wb := (claim s).wb, mem := (claim s).mem } :=
    congrArg (fun x : State => { x with acc := (claim s).acc, wb := (claim s).wb, mem := (claim s).mem }) (claim_frame s)
  have hwb : (claim s).wb = (flushKey k s).wb := setClaimed_wb (translate k s) (flushKey k s)
  refine hframe.trans ?_
  rw [hwb]
  rfl

/-! ### The sub-operations inside a half -/

theorem flushLine_beginHalf (i : Fin 8) (s : State) : flushLine i (beginHalf s) = beginHalf (flushLine i s) := by
  have hwrite : writeBack i (beginHalf s) = beginHalf (writeBack i s) := by
    simp only [writeBack, apply_ite beginHalf]
    rfl
  rw [flushLine, hwrite]
  rfl

theorem flushAll_beginHalf (s : State) : flushAll (beginHalf s) = beginHalf (flushAll s) :=
  List.foldl_hom beginHalf fun t i => flushLine_beginHalf i t

theorem flushKey_beginHalf (k : Key) (s : State) : flushKey k (beginHalf s) = beginHalf (flushKey k s) := by
  have hfind : wbFind k (beginHalf s) = wbFind k s := rfl
  rw [flushKey, hfind, flushKey]
  split
  · exact flushLine_beginHalf _ s
  · rfl

theorem setClaimed_beginHalf (p : Phys) (s : State) : setClaimed p (beginHalf s) = beginHalf (setClaimed p s) := by
  simp only [setClaimed, apply_ite beginHalf]
  rfl

theorem claim_beginHalf (s : State) : claim (beginHalf s) = beginHalf (claim s) := by
  have htranslate : ∀ k, translate k (beginHalf s) = translate k s := fun _ => rfl
  simp only [claim, beginHalf_acc, resolve_beginHalf, htranslate, flushKey_beginHalf, setClaimed_beginHalf]
  rfl

theorem sendByte_beginHalf (k : MsgKind) (ea : Addr) (s : State) :
    sendByte k ea (beginHalf s) = beginHalf (sendByte k ea s) := by
  simp only [sendByte, apply_ite beginHalf]
  rfl

theorem recvByte_beginHalf (k : MsgKind) (ea : Addr) (s : State) :
    recvByte k ea (beginHalf s) = beginHalf (recvByte k ea s) := by
  simp only [recvByte, apply_ite beginHalf]
  rfl

theorem programTimer_beginHalf (s : State) : programTimer (beginHalf s) = beginHalf (programTimer s) := by
  simp only [programTimer, apply_ite beginHalf]
  rfl

theorem runOpenSubop_beginHalf (ea : Addr) (s : State) (o : OpenSubop) :
    runOpenSubop ea (beginHalf s) o = beginHalf (runOpenSubop ea s o) := by
  cases o with
  | prpRead | cpuId => rfl
  | flush => exact flushAll_beginHalf s
  | claim => exact claim_beginHalf s
  | sendReq | sendRsp => exact sendByte_beginHalf _ ea s
  | recvReq | recvRsp => exact recvByte_beginHalf _ ea s
  | timer => exact programTimer_beginHalf s

/-- No sub-operation reads or writes the engine's scratch fields, which the start of a half clears (R182). -/
theorem runSubop_beginHalf (ea : Addr) (s : State) (o : Subop) :
    runSubop ea (beginHalf s) o = beginHalf (runSubop ea s o) := by
  cases o with
  | openOp o => exact runOpenSubop_beginHalf ea s o
  | wbWrite | wbRead | ptrWriteU | ptrWriteS | protWrite | mprpWrite | prpClear | mgrpWrite | grpClear | grpRead
  | control | noOp => rfl

theorem sequencing_flushAll (s : State) : sequencing (flushAll s) = sequencing s := by
  have h := congrArg sequencing (flushAll_frame s)
  generalize flushAll s = t at h ⊢
  exact h

theorem sequencing_claim (s : State) : sequencing (claim s) = sequencing s := by
  rw [claim_eq s]
  rfl

theorem sequencing_sendByte (k : MsgKind) (ea : Addr) (s : State) : sequencing (sendByte k ea s) = sequencing s := by
  simp only [sendByte]
  split <;> rfl

theorem sequencing_recvByte (k : MsgKind) (ea : Addr) (s : State) : sequencing (recvByte k ea s) = sequencing s := by
  simp only [recvByte]
  split <;> rfl

theorem sequencing_programTimer (s : State) : sequencing (programTimer s) = sequencing s := by
  simp only [programTimer]
  split <;> rfl

theorem sequencing_runOpenSubop (ea : Addr) (s : State) (o : OpenSubop) :
    sequencing (runOpenSubop ea s o) = sequencing s := by
  cases o with
  | prpRead | cpuId => rfl
  | flush => exact sequencing_flushAll s
  | claim => exact sequencing_claim s
  | sendReq | sendRsp => exact sequencing_sendByte _ ea s
  | recvReq | recvRsp => exact sequencing_recvByte _ ea s
  | timer => exact sequencing_programTimer s

/-- No sub-operation moves the place of the half (R184). -/
theorem sequencing_runSubop (ea : Addr) (s : State) (o : Subop) : sequencing (runSubop ea s o) = sequencing s := by
  cases o with
  | openOp o => exact sequencing_runOpenSubop ea s o
  | wbWrite | wbRead | ptrWriteU | ptrWriteS | protWrite | mprpWrite | prpClear | mgrpWrite | grpClear | grpRead
  | control | noOp => rfl

/-! ### The half -/

section
variable {r : Idx} {addr : Addr} {s : State} {n : Nat}

theorem toNat_of_selects (h : selects r addr s n) : (BitVec.ofNat 8 n).toNat = n := by
  have hsel : (effective r addr s).toNat % 256 = n := h
  rw [BitVec.toNat_ofNat]
  omega

theorem modSelector_of_selects (h : selects r addr s n) : modSelector (effective r addr s) = BitVec.ofNat 8 n :=
  BitVec.eq_of_toNat_eq ((BitVec.toNat_setWidth 8 _).trans (h.trans (toNat_of_selects h).symm))

/-- In supervisor mode `MOD` completes as the sub-operation its selector selects (R340). -/
theorem mod_completes {o : Subop} (hs : supervisor s = true) (hn : selects r addr s n)
    (ho : decodesTo (BitVec.ofNat 8 n) o) : completesAs (.mod r addr) s (runSubop (effective r addr s) s o) := by
  obtain ⟨himplemented, hsubop⟩ := ho
  have hexec : exec (.mod r addr) s = runPure .mod s fun t => runSubop (effective r addr s) t o := by
    have hmod : exec (.mod r addr) s = execMod r addr s := rfl
    rw [hmod, execMod]
    simp only [modSelector_of_selects hn, himplemented, hsubop, Bool.and_false, Bool.false_eq_true, if_false]
    exact runPrivileged_supervisor hs _
  exact runPure_reaches hexec (runSubop_beginHalf _ s o) (sequencing_runSubop _ s o)

/-- A declined selector is refused (R347). -/
theorem mod_declined (hs : supervisor s = true) (hn : selects r addr s n)
    (hd : unimplementedSelector (BitVec.ofNat 8 n) = true) : exec (.mod r addr) s = .refused .unimplementedSubop := by
  have hmod : exec (.mod r addr) s = execMod r addr s := rfl
  rw [hmod, execMod]
  simp only [modSelector_of_selects hn, hs, hd, Bool.and_self, if_true]

end

/-! ### The numbered sub-operations -/

/-- The bits of RZ after a byte is put there (R344). -/
theorem getLsbD_putByte (rz : BitVec 32) (k : Fin 4) (x : BitVec 8) {b : Nat} (hb : b < 32) :
    (putByte rz k x).getLsbD b = if b / 8 = k.val then x.getLsbD (b % 8) else rz.getLsbD b := by
  have hmask : ∀ i < 32, (0xFF#32).getLsbD i = decide (i < 8) := by decide
  have hin : b - 8 * k.val < 32 := by omega
  simp only [putByte, BitVec.getLsbD_or, BitVec.getLsbD_and, BitVec.getLsbD_not, BitVec.getLsbD_shiftLeft,
    BitVec.getLsbD_setWidth, hmask _ hin, hin, hb, decide_true, Bool.true_and]
  split
  · next hk =>
    have hstart : ¬b < 8 * k.val := by omega
    have hplace : b - 8 * k.val = b % 8 := by omega
    have hbyte : b % 8 < 8 := by omega
    simp [hstart, hplace, hbyte]
  · next hk =>
    by_cases hstart : b < 8 * k.val
    · simp [hstart]
    · have hend : 8 ≤ b - 8 * k.val := by omega
      simp [hend]

/-- Settles O52: each selector decodes to its sub-operation, and the half completes as that. -/
theorem modNumberedSubops : Obligations.ModNumberedSubops := by
  intro r addr s hs
  refine ⟨?wbWrite, ?wbRead, ?ptrWriteU, ?protWrite, ?mprpWrite, ?prpClear, ?mgrpWrite, ?grpClear, ?grpRead, ?control⟩
  case wbWrite => exact fun k hn => mod_completes hs hn (decodesTo_wbWrite k)
  case wbRead => exact fun k hn => mod_completes hs hn (decodesTo_wbRead k)
  case ptrWriteU => exact fun k hn => mod_completes hs hn (decodesTo_ptrWriteU k)
  case protWrite =>
    intro k hn
    refine ⟨putByte s.rz k (s.acc.setWidth 8), mod_completes hs hn (decodesTo_protWrite k), fun b hb => ?_⟩
    rw [getLsbD_putByte s.rz k _ hb, BitVec.getLsbD_setWidth, decide_eq_true (Nat.mod_lt b (by decide)), Bool.true_and]
  case mprpWrite => exact fun hn => mod_completes (o := .mprpWrite) hs hn (by decide)
  case prpClear => exact fun hn => mod_completes (o := .prpClear) hs hn (by decide)
  case mgrpWrite => exact fun hn => mod_completes (o := .mgrpWrite) hs hn (by decide)
  case grpClear => exact fun hn => mod_completes (o := .grpClear) hs hn (by decide)
  case grpRead => exact fun hn => mod_completes (o := .grpRead) hs hn (by decide)
  case control => exact fun c hc hn => mod_completes hs hn (decodesTo_control c hc)

/-! ### The OPEN sub-operations -/

/-- The entry a send puts in its channel (R350, R440). -/
theorem sendByte_eq (k : MsgKind) (ea : Addr) (s : State) :
    sendByte k ea s =
      if Config.ipcDst ea s.acc < Config.topology.nCpus then
        { s with chan := s.chan ++ [⟨Config.topology.self, Config.ipcDst ea s.acc, k, s.acc.extractLsb' 0 8⟩] }
      else s := by
  rw [← BitVec.setWidth_eq_extractLsb' (show 8 ≤ 48 by decide), sendByte]

/-- A byte of a mailbox after a byte of the mailbox of `src` is written (R53). -/
theorem byteOf_setMailbox {s : State} (h : sparseWf Mailbox.empty s.mbox) (src n : Nat) (k j : MsgKind) (v : MailByte) :
    (mailbox n (setMailbox src ((mailbox src s).withByte k v) s)).byteOf j =
      if n = src ∧ j = k then v else (mailbox n s).byteOf j := by
  rw [mailbox_setMailbox h]
  by_cases hn : n = src
  · subst hn; simp [byteOf_withByte]
  · simp [hn]

/-- A send completes as the append of its entry (R350). -/
theorem mod_sends {r : Idx} {addr : Addr} {s : State} (hs : supervisor s = true) {o : OpenSubop} {k : MsgKind}
    (hn : selects r addr s (Config.subopCodes.code o).toNat)
    (ho : runOpenSubop (effective r addr s) s o = sendByte k (effective r addr s) s) :
    completesAs (.mod r addr) s
      (if Config.ipcDst (effective r addr s) s.acc < Config.topology.nCpus then
        { s with chan := s.chan ++
          [⟨Config.topology.self, Config.ipcDst (effective r addr s) s.acc, k, s.acc.extractLsb' 0 8⟩] }
      else s) :=
  sendByte_eq k (effective r addr s) s ▸ ho ▸ mod_completes hs hn (decodesTo_openOp o)

/-- A receive completes with the byte in ACC and its full flag cleared, or with a free value where the processor it
names does not exist (R351; log 15). -/
theorem mod_receives {r : Idx} {addr : Addr} {s : State} (hs : supervisor s = true) {o : OpenSubop} {k : MsgKind}
    (hn : selects r addr s (Config.subopCodes.code o).toNat) (hm : sparseWf Mailbox.empty s.mbox)
    (ho : runOpenSubop (effective r addr s) s o = recvByte k (effective r addr s) s) :
    let src := Config.ipcSrc (effective r addr s) s.acc
    if src < Config.topology.nCpus then
      ∃ m, completesAs (.mod r addr) s { s with acc := ((mailbox src s).byteOf k).byte.setWidth 48, mbox := m } ∧
        ∀ (n : Nat) (j : MsgKind), (sparseGet Mailbox.empty m n).byteOf j =
          if n = src ∧ j = k then { (mailbox src s).byteOf j with full := false } else (mailbox n s).byteOf j
    else completesAs (.mod r addr) s { s with acc := Config.draw s.draws, draws := s.draws + 1 } := by
  intro src
  have hrecv : completesAs (.mod r addr) s (recvByte k (effective r addr s) s) :=
    ho ▸ mod_completes hs hn (decodesTo_openOp o)
  split
  · next hsrc =>
    rw [recvByte, if_pos hsrc] at hrecv
    refine ⟨_, hrecv, fun n j => ?_⟩
    refine (byteOf_setMailbox hm src n k j _).trans ?_
    split
    · next hnj => rw [hnj.2]
    · rfl
  · next hsrc =>
    rw [recvByte, if_neg hsrc] at hrecv
    exact hrecv

/-- Settles O53: each OPEN selector decodes to its sub-operation, and the half completes as that. -/
theorem modOpenSubops : Obligations.ModOpenSubops := by
  intro r addr s hs code dst src
  have hcompletes : ∀ o, selects r addr s (code o) →
      completesAs (.mod r addr) s (runOpenSubop (effective r addr s) s o) :=
    fun o hn => mod_completes hs hn (decodesTo_openOp o)
  refine ⟨fun k hn => mod_completes hs hn (decodesTo_ptrWriteS k), hcompletes .prpRead, hcompletes .flush,
    hcompletes .cpuId, hcompletes .timer, ?sends, ?receives⟩
  case sends =>
    simp only [List.forall_mem_cons]
    exact ⟨fun hn => mod_sends hs hn rfl, fun hn => mod_sends hs hn rfl, List.forall_mem_nil _⟩
  case receives =>
    simp only [List.forall_mem_cons]
    exact ⟨fun hn hm => mod_receives hs hn hm rfl, fun hn hm => mod_receives hs hn hm rfl, List.forall_mem_nil _⟩

/-! ### The claim -/

/-- Settles O54: memory is as the flush of the line found leaves it, but for the claimed bit of the one cell. -/
theorem claimTestsAndSets : Obligations.ClaimTestsAndSets := by
  intro r addr s hs hm hn k p
  have hclaim : completesAs (.mod r addr) s
      { s with
        acc := (memRead p (flushKey k s)).word, wb := (flushKey k s).wb, mem := (setClaimed p (flushKey k s)).mem } :=
    claim_eq s ▸ mod_completes hs hn (decodesTo_openOp .claim)
  have ⟨t, ht, hgoes, hsettled⟩ := hclaim
  have hmem := completesAs_mem hclaim ht
  refine ⟨t, (flushKey k s).wb, _, fun q => memRead q (flushKey k s), ht, hgoes, hsettled, ?memory, ?miss, ?hit⟩
  case memory => exact fun q => (memRead_congr hmem q).trans (memRead_setClaimed (flushKey_wf hm k) p q)
  case miss =>
    intro hmiss
    rw [flushKey_miss hmiss]
    exact ⟨rfl, fun q => rfl⟩
  case hit =>
    intro i hhit
    have ⟨⟨hvalid, _⟩, _⟩ := hhit
    rw [flushKey_hit hhit]
    exact ⟨flushLine_wb i s, memRead_flushLine hm hvalid⟩

/-! ### The other selectors -/

/-- Settles O55: an unassigned selector decodes to the sub-operation without an effect, and the declined ones are a
range. -/
theorem modOtherSelectors : Obligations.ModOtherSelectors := by
  intro r addr s hs
  refine ⟨fun n hn hknown hptr hcode => ?unassigned, fun n hn hlow hhigh => ?declined⟩
  case unassigned =>
    have hsel : (BitVec.ofNat 8 n).toNat = n := toNat_of_selects hn
    have hno : openSubop (BitVec.ofNat 8 n) = .noOp :=
      openSubop_unassigned (by rwa [hsel]) fun o h => hcode o (by rw [← h, hsel])
    exact mod_completes (o := .noOp) hs hn (hno ▸ decodesTo_openSubop hknown)
  case declined =>
    exact mod_declined hs hn (by simp [unimplementedSelector, toNat_of_selects hn, hlow, hhigh])

end Sys2Proof.Machine
end

section
/-!
PROOFS. The statements about the extracodes and the return: the vectors, the entry of an extracode, `STOP`, `IJ`, and
the round trips of an entry and its return.
-/

namespace Sys2Proof.Machine

/-! ### The vectors -/

theorem number_surjective : Function.Surjective Extracode.number := by
  intro i
  fin_cases i
  exacts [⟨.e20, rfl⟩, ⟨.e21, rfl⟩, ⟨.e36, rfl⟩, ⟨.stop, rfl⟩, ⟨.e46, rfl⟩, ⟨.e47, rfl⟩, ⟨.e50, rfl⟩, ⟨.e51, rfl⟩,
    ⟨.e52, rfl⟩, ⟨.e53, rfl⟩, ⟨.e54, rfl⟩, ⟨.e55, rfl⟩, ⟨.e56, rfl⟩, ⟨.e57, rfl⟩, ⟨.e60, rfl⟩, ⟨.e61, rfl⟩,
    ⟨.e62, rfl⟩, ⟨.e63, rfl⟩, ⟨.e64, rfl⟩, ⟨.e65, rfl⟩, ⟨.e66, rfl⟩, ⟨.e67, rfl⟩, ⟨.e70, rfl⟩, ⟨.e71, rfl⟩,
    ⟨.e72, rfl⟩, ⟨.e73, rfl⟩, ⟨.e74, rfl⟩, ⟨.e75, rfl⟩, ⟨.e76, rfl⟩, ⟨.e77, rfl⟩]

/-- There are at least 30 extracodes, so their distinct places in a range of 30 fill it (R387). -/
theorem xcPlace_surjective (v : Vectors) : Function.Surjective v.xcPlace := by
  have hinj : Function.Injective (v.xcPlace ∘ Function.surjInv number_surjective) :=
    Function.Injective.comp (fun x y => v.placeInjective x y) (Function.injective_surjInv number_surjective)
  exact Function.Surjective.of_comp (Finite.surjective_of_injective hinj)

/-- The range of the extracode vectors does not wrap (R387). -/
theorem vecXc_toNat (x : Extracode) :
    (Config.vecXc x).toNat = Config.vectors.xcBase + (Config.vectors.xcPlace x).val := by
  have hspace := Config.vectors.inSpace
  rw [Config.vecXc, BitVec.toNat_ofNat]
  omega

theorem vecXc_injective {x y : Extracode} (h : Config.vecXc x = Config.vecXc y) : x = y := by
  have hsum := congrArg BitVec.toNat h
  rw [vecXc_toNat, vecXc_toNat] at hsum
  exact Config.vectors.placeInjective x y (Fin.ext (Nat.add_left_cancel hsum))

/-- The extracode vectors are the addresses of the range (R387). -/
theorem exists_vecXc_iff (a : Addr) :
    (∃ x, Config.vecXc x = a) ↔
      Config.vectors.xcBase ≤ a.toNat ∧ a.toNat < Config.vectors.xcBase + 30 := by
  constructor
  · rintro ⟨x, rfl⟩
    rw [vecXc_toNat]
    omega
  · rintro ⟨hlow, hhigh⟩
    obtain ⟨x, hx⟩ := xcPlace_surjective Config.vectors ⟨a.toNat - Config.vectors.xcBase, by omega⟩
    refine ⟨x, BitVec.eq_of_toNat_eq ?_⟩
    rw [vecXc_toNat, hx]
    exact Nat.add_sub_of_le hlow

/-- An address outside the range is no extracode vector. -/
theorem vecXc_ne {a : Addr} (h : a.toNat < Config.vectors.xcBase ∨ Config.vectors.xcBase + 30 ≤ a.toNat)
    (x : Extracode) : Config.vecXc x ≠ a := by
  intro hx
  obtain ⟨hlow, hhigh⟩ := (exists_vecXc_iff a).1 ⟨x, hx⟩
  omega

/-- Settles O25: the constraints on the vectors, and the pigeonhole on the 30 places. -/
theorem vectorsAreDistinct : Obligations.VectorsAreDistinct :=
  ⟨Config.vectors.intNeExt, fun _ _ => vecXc_injective,
    fun x => ⟨vecXc_ne Config.vectors.intOutside x, vecXc_ne Config.vectors.extOutside x⟩,
    Config.vectors.xcBase, exists_vecXc_iff⟩

/-! ### The entry of an extracode -/

/-- The half after the current one, part by part (R189). -/
theorem nextHalf_eq (s : State) :
    nextHalf s = (if s.ruu.right then s.pc + 1 else s.pc, !s.ruu.right) := by
  cases h : s.ruu.right <;> simp [nextHalf, h]

/-- What an extracode with the argument `ea` makes of the machine, but for the transfer to its vector (R380). -/
def extracodeEntered (ea : Addr) (s : State) : State :=
  { setIdx 14 ea s with
    eret := if s.ruu.right then s.pc + 1 else s.pc
    spsw := savedMode s ||| flagBit 15 8 (!s.ruu.right)
    psw := s.psw ||| pswDisables
    ruu := { s.ruu with extracode := true, interrupt := false } }

theorem xcEntry_beginHalf (x : Extracode) (ea : Addr) (s : State) :
    xcEntry x ea (beginHalf s) = jump (Config.vecXc x) (beginHalf (extracodeEntered ea s)) := by
  have hnext : nextHalf (beginHalf s) = nextHalf s := rfl
  rw [xcEntry, hnext, nextHalf_eq, setIdx_beginHalf]
  rfl

/-- A half that is an extracode's entry completes as that (R380). -/
theorem runExtracode_enters {i : Instr} {x : Extracode} {r : Idx} {addr : Addr} {s : State}
    (hi : exec i s = runExtracode i.op x r addr s) :
    jumpsAs i (Config.vecXc x) s (extracodeEntered (effective r addr s) s) :=
  runPure_jumpsAs hi (xcEntry_beginHalf x _ s) (by simp [sequencing, extracodeEntered])

/-- Outside supervisor mode `STOP` is an extracode (R386). -/
theorem execStop_user {s : State} (h : supervisor s = false) (r : Idx) (addr : Addr) :
    exec (.stop r addr) s = runExtracode .stop .stop r addr s := if_neg (by simp [h])

/-- Settles O26: the meaning of each of the 29 extracodes is, by definition, its entry; that of `STOP` in user mode. -/
theorem extracodesEnter : Obligations.ExtracodesEnter := by
  intro e he r addr s huser
  have hexec : exec (e.1 r addr) s = runExtracode (e.1 r addr).op e.2 r addr s := by
    fin_cases he
    on_goal 30 => exact execStop_user (huser rfl) r addr
    all_goals rfl
  exact runExtracode_enters hexec

/-- Settles O27: in supervisor mode the meaning of `STOP` is the stop. -/
theorem stopHalts : Obligations.StopHalts := fun _ _ _ hs => if_pos hs

/-! ### The return -/

theorem returnRegister_eq (r : Idx) (s : State) :
    returnRegister r s = if r.toNat % 4 = 0 then s.ret0 else if r.toNat % 4 = 1 then s.ret1
      else if r.toNat % 4 = 2 then s.eret else s.iret := by
  have hlow : (r.setWidth 2).toNat = r.toNat % 4 := BitVec.toNat_setWidth 2 r
  rw [returnRegister, hlow]
  split <;> simp_all

/-- A modification that was pending is set up again with the address in MOD, so that MOD stays (R385). -/
theorem returnFrom_mod (r : Idx) (s : State) :
    (returnFrom r (beginHalf s)).nextMod.getD s.mod = s.mod ∧
      (returnFrom r (beginHalf s)).nextMod.isSome = s.spsw.getLsbD 4 := by
  have hnext : (returnFrom r (beginHalf s)).nextMod = if s.spsw.getLsbD 4 then some s.mod else none := rfl
  rw [hnext]
  cases s.spsw.getLsbD 4 <;> exact ⟨rfl, rfl⟩

/-- A committed return (R184, R385). -/
theorem commit_returnFrom (r : Idx) (s : State) :
    (commit .ij (returnFrom r (beginHalf s))).mod = s.mod ∧
      (commit .ij (returnFrom r (beginHalf s))).ruu =
        { s.ruu with
          right := s.spsw.getLsbD 8, extracode := s.spsw.getLsbD 2, interrupt := s.spsw.getLsbD 3,
          modPending := s.spsw.getLsbD 4 } := by
  obtain ⟨hmod, hruu⟩ := commit_mod .ij (returnFrom r (beginHalf s))
  obtain ⟨-, hright, -⟩ := commit_jumped .ij (t := returnFrom r (beginHalf s)) rfl
  obtain ⟨hkept, hpending⟩ := returnFrom_mod r s
  refine ⟨hmod.trans hkept, hruu.trans ?_⟩
  rw [hright, hpending]
  rfl

theorem commit_returnFrom_settled (r : Idx) (s : State) :
    settled { commit .ij (returnFrom r (beginHalf s)) with psw := s.psw, ruu := s.ruu } = settled s := by
  obtain ⟨hmod, -⟩ := commit_returnFrom r s
  have hframe := congrArg (fun t : State => settled { t with psw := s.psw, ruu := s.ruu, mod := s.mod })
    (commit_frame .ij (returnFrom r (beginHalf s)))
  exact (congrArg (fun m => settled { commit .ij (returnFrom r (beginHalf s)) with
    psw := s.psw, ruu := s.ruu, mod := m }) hmod).trans hframe

/-- The bits of PSW after a return (R36, R385). -/
theorem commit_returnFrom_psw (r : Idx) (s : State) (b : Nat) :
    (commit .ij (returnFrom r (beginHalf s))).psw.getLsbD b =
      if b = 0 ∨ b = 1 ∨ b = 10 then s.spsw.getLsbD b else s.psw.getLsbD b := by
  have hpsw := congrArg State.psw (commit_frame .ij (returnFrom r (beginHalf s)))
  exact (congrArg (BitVec.getLsbD · b) hpsw).trans (getLsbD_pswWithDisables s.psw s.spsw b)

/-- In supervisor mode `IJ` is the committed return (R385). -/
theorem ij_supervisor {s : State} (hs : supervisor s = true) (r : Idx) (addr : Addr) :
    exec (.ij r addr) s = .next (commit .ij (returnFrom r (beginHalf s))) :=
  runPrivileged_supervisor hs _

/-- Settles O28: PRIVILEGE outside supervisor mode; inside it the committed return, field by field. -/
theorem ijReturns : Obligations.IjReturns := by
  intro r addr s
  refine ⟨fun huser => runPrivileged_user huser _, fun hs => ⟨_, ij_supervisor hs r addr, ?_⟩⟩
  obtain ⟨hpc, -, htrapping, hhalted, hclock⟩ := commit_jumped .ij (t := returnFrom r (beginHalf s)) rfl
  obtain ⟨-, hruu⟩ := commit_returnFrom r s
  exact ⟨hpc.trans (returnRegister_eq r s), hruu, fun b _ => commit_returnFrom_psw r s b, htrapping, hhalted, hclock,
    commit_returnFrom_settled r s⟩

/-! ### Round trips -/

/-- SPSW after an entry from `s` whose return goes on with the pending flag `pending` at a half with the flag `right`
(R380, R411, R413). -/
def snapshot (pending right : Bool) (s : State) : Addr :=
  savedMode s ||| flagBit 15 4 pending ||| flagBit 15 8 right

theorem getLsbD_flagBit {w i : Nat} (hi : i < w) (b : Bool) (k : Nat) :
    (flagBit w i b).getLsbD k = (b && decide (i = k)) := by
  cases b <;> simp [flagBit, BitVec.getLsbD_twoPow, hi]

theorem getLsbD_pswDisables {b : Nat} (hb : b < 15) : pswDisables.getLsbD b = decide (b = 0 ∨ b = 1 ∨ b = 10) := by
  revert b; decide

/-- The bits of the snapshot: the PSW disables, and four flags in bits of their own (R38). -/
theorem getLsbD_snapshot (pending right : Bool) (s : State) {b : Nat} (hb : b < 15) :
    (snapshot pending right s).getLsbD b =
      (s.psw.getLsbD b && decide (b = 0 ∨ b = 1 ∨ b = 10) || s.ruu.extracode && decide (2 = b) ||
        s.ruu.interrupt && decide (3 = b) || pending && decide (4 = b) || right && decide (8 = b)) := by
  simp only [snapshot, savedMode, BitVec.getLsbD_or, BitVec.getLsbD_and, getLsbD_pswDisables hb,
    getLsbD_flagBit (w := 15) (i := 2) (by decide), getLsbD_flagBit (w := 15) (i := 3) (by decide),
    getLsbD_flagBit (w := 15) (i := 4) (by decide), getLsbD_flagBit (w := 15) (i := 8) (by decide)]

theorem snapshot_disables (pending right : Bool) (s : State) {b : Nat} (hb : b = 0 ∨ b = 1 ∨ b = 10) :
    (snapshot pending right s).getLsbD b = s.psw.getLsbD b := by
  rw [getLsbD_snapshot pending right s (by omega)]
  rcases hb with rfl | rfl | rfl <;> simp

theorem snapshot_flags (pending right : Bool) (s : State) :
    (snapshot pending right s).getLsbD 2 = s.ruu.extracode ∧ (snapshot pending right s).getLsbD 3 = s.ruu.interrupt ∧
      (snapshot pending right s).getLsbD 4 = pending ∧ (snapshot pending right s).getLsbD 8 = right := by
  refine ⟨?_, ?_, ?_, ?_⟩ <;> exact (getLsbD_snapshot pending right s (by decide)).trans (by simp)

/-- `u` is `s` after an entry: supervisor mode, the snapshot in SPSW, the disables set, and of RUU nothing changed but
the modes, the live half and the pending flag (R380, R411, R413). -/
structure Entered (pending right : Bool) (s u : State) : Prop where
  sup : supervisor u = true
  psw : u.psw = s.psw ||| pswDisables
  spsw : u.spsw = snapshot pending right s
  ruu : ∀ r m, { u.ruu with extracode := s.ruu.extracode, interrupt := s.ruu.interrupt, right := r, modPending := m } =
    { s.ruu with right := r, modPending := m }

theorem entered_externalEntry (s : State) : Entered s.ruu.modPending s.ruu.right s (externalEntry s) :=
  ⟨rfl, rfl, rfl, fun _ _ => rfl⟩

theorem entered_internalEntry (f : Trap) (s : State) :
    Entered s.ruu.modPending s.ruu.right s (internalEntry f s) :=
  ⟨rfl, rfl, rfl, fun _ _ => rfl⟩

theorem entered_extracodeEntered (ea : Addr) (s : State) :
    Entered false (!s.ruu.right) s (extracodeEntered ea s) := by
  refine ⟨rfl, rfl, ?_, fun _ _ => rfl⟩
  have hclear : flagBit 15 4 false = 0#15 := rfl
  rw [snapshot, hclear, BitVec.or_zero]
  rfl

/-- The sequencing fields are no part of it. -/
theorem Entered.congr {p q : Bool} {s u v : State} (h : Entered p q s v) (hu : settled u = settled v) :
    Entered p q s u where
  sup := by
    have hsup := congrArg supervisor hu
    exact hsup.trans h.sup
  psw := by
    have hpsw := congrArg State.psw hu
    exact hpsw.trans h.psw
  spsw := by
    have hspsw := congrArg State.spsw hu
    exact hspsw.trans h.spsw
  ruu r m := by
    have hruu := congrArg (fun x : State => { x.ruu with
      extracode := s.ruu.extracode, interrupt := s.ruu.interrupt, right := r, modPending := m }) hu
    exact hruu.trans (h.ruu r m)

/-- A return restores PSW, the modes, the live half and the pending flag from the snapshot (R388). -/
theorem Entered.returns {p q : Bool} {s u : State} (h : Entered p q s u) (r : Idx) (addr : Addr) :
    ∃ t, exec (.ij r addr) u = .next t ∧ t.pc = returnRegister r u ∧
      t.ruu = { s.ruu with right := q, modPending := p } ∧ t.psw = s.psw ∧ t.mod = u.mod := by
  obtain ⟨hpc, -⟩ := commit_jumped .ij (t := returnFrom r (beginHalf u)) rfl
  obtain ⟨hmod, hruu⟩ := commit_returnFrom r u
  refine ⟨_, ij_supervisor h.sup r addr, hpc, ?ruu, ?psw, hmod⟩
  case ruu =>
    obtain ⟨hextracode, hinterrupt, hpending, hright⟩ := snapshot_flags p q s
    rw [hruu, h.spsw, hextracode, hinterrupt, hpending, hright]
    exact h.ruu q p
  case psw =>
    refine BitVec.eq_of_getLsbD_eq fun b hb => ?_
    rw [commit_returnFrom_psw]
    split
    · next hdisable => rw [h.spsw, snapshot_disables p q s hdisable]
    · next hother => rw [h.psw, BitVec.getLsbD_or, getLsbD_pswDisables hb, decide_eq_false hother, Bool.or_false]

/-- The return right after an interrupt entry, internal or external (R388). -/
theorem interrupt_round_trip {s u : State} (h : Entered s.ruu.modPending s.ruu.right s u) (hpc : u.iret = s.pc)
    (hmod : u.mod = s.mod) (b : Addr) :
    ∃ t, exec (.ij 3 b) u = .next t ∧ t.pc = s.pc ∧ t.ruu = s.ruu ∧ t.psw = s.psw ∧ t.mod = s.mod := by
  obtain ⟨t, ht, htpc, hruu, hpsw, htmod⟩ := h.returns 3 b
  exact ⟨t, ht, htpc.trans hpc, hruu, hpsw, htmod.trans hmod⟩

/-- The return right after an extracode (R388). -/
theorem extracode_round_trip {i : Instr} {x : Extracode} {r : Idx} {a : Addr} {s : State}
    (hi : exec i s = runExtracode i.op x r a s) (b : Addr) :
    ∃ u t, exec i s = .next u ∧ exec (.ij 2 b) u = .next t ∧
      (t.pc, t.ruu.right) = nextHalf s ∧ t.psw = s.psw ∧
      t.ruu = { s.ruu with right := t.ruu.right, modPending := false } := by
  obtain ⟨u, hu, -, hsettled⟩ := runExtracode_enters hi
  have heret := congrArg State.eret hsettled
  obtain ⟨t, ht, hpc, hruu, hpsw, -⟩ := ((entered_extracodeEntered _ s).congr hsettled).returns 2 b
  have hright : t.ruu.right = !s.ruu.right := congrArg Ruu.right hruu
  refine ⟨u, t, hu, ht, ?_, hpsw, ?_⟩
  · rw [nextHalf_eq, hright, hpc]
    exact congrArg (·, !s.ruu.right) heret
  · rw [hright]
    exact hruu

/-- Settles O29: both interrupt entries and each of the 29 extracodes leave what their return restores. -/
theorem returnsUndoEntries : Obligations.ReturnsUndoEntries := by
  refine ⟨?interrupts, ?extracodes⟩
  case interrupts =>
    rintro u s b (⟨f, rfl⟩ | ⟨rfl, -⟩)
    · exact interrupt_round_trip (entered_internalEntry f s) rfl rfl b
    · exact interrupt_round_trip (entered_externalEntry s) rfl rfl b
  case extracodes =>
    intro i hi r a b s
    have hexec : ∃ x, exec (i r a) s = runExtracode (i r a).op x r a s := by
      fin_cases hi <;> exact ⟨_, rfl⟩
    obtain ⟨x, hx⟩ := hexec
    exact extracode_round_trip hx b

end Sys2Proof.Machine
end

section
/-!
PROOFS. The statements about internal interrupts and reset: what the entry leaves in GRP, the recovery point, the modes
right after reset, and the host's reset.
-/

namespace Sys2Proof.Machine

/-! ### The cause and its value in GRP -/

/-- The mask of a range has the bits of the range. -/
theorem getLsbD_mask (f : BitRange) {b : Nat} (hb : b < 48) :
    f.mask.getLsbD b = decide (f.lo ≤ b ∧ b < f.lo + f.width) := by
  have hrange : (f.lo ≤ b ∧ b - f.lo < f.width) ↔ f.lo ≤ b ∧ b < f.lo + f.width := by omega
  rw [BitRange.mask, BitVec.getLsbD_ofNat, Nat.testBit_mul_two_pow, Nat.testBit_two_pow_sub_one]
  simp [hb, ← Bool.decide_and, hrange]

/-- A replaced field holds the low bits of the value; the register keeps its other bits (R411). -/
theorem getLsbD_replaceField (g : Word) (f : BitRange) (v : Nat) {b : Nat} (hb : b < 48) :
    (replaceField g f v).getLsbD b =
      if f.lo ≤ b ∧ b < f.lo + f.width then v.testBit (b - f.lo) else g.getLsbD b := by
  simp only [replaceField, BitVec.getLsbD_or, BitVec.getLsbD_and, BitVec.getLsbD_not, getLsbD_mask f hb, hb,
    BitVec.getLsbD_shiftLeft, BitVec.getLsbD_ofNat]
  split
  · next hin =>
    have hoffset : b - f.lo < 48 := by omega
    simp [hin, hoffset]
  · next hout => simp [hout]

/-- GRP after a cause is recorded, bit by bit (R411, log 23). -/
theorem getLsbD_grpWithCause (f : Trap) (g : Word) {b : Nat} (hb : b < 48) :
    (grpWithCause f g).getLsbD b =
      match Config.auxField f.cause, f.aux with
      | some r, some v =>
        if r.lo ≤ b ∧ b < r.lo + r.width then v.testBit (b - r.lo)
        else g.getLsbD b || (Config.causeBit (.cause f.cause)).getLsbD b
      | _, _ => g.getLsbD b || (Config.causeBit (.cause f.cause)).getLsbD b := by
  unfold grpWithCause
  cases Config.auxField f.cause with
  | none => exact BitVec.getLsbD_or
  | some r =>
    cases f.aux with
    | none => exact BitVec.getLsbD_or
    | some v => simp only [getLsbD_replaceField _ r v hb, BitVec.getLsbD_or]

/-- No field lies over a cause bit, so recording a cause sets its bit (R401, R411). -/
theorem grpWithCause_bit (f : Trap) (g : Word) :
    (grpWithCause f g).getLsbD (Config.grpLayout.bit (.cause f.cause)).val = true := by
  have hcause : (Config.causeBit (.cause f.cause)).getLsbD (Config.grpLayout.bit (.cause f.cause)).val = true := by
    simp [Config.causeBit]
  rw [getLsbD_grpWithCause f g (Config.grpLayout.bit (.cause f.cause)).isLt, hcause]
  split
  · next r _ hr _ =>
    have hdisjoint := Config.grpLayout.auxDisjoint f.cause r (.cause f.cause) hr
    rw [if_neg (by omega), Bool.or_true]
  · exact Bool.or_true _

/-- The same as a mask (R411). -/
theorem grpWithCause_and_causeBit (f : Trap) (g : Word) :
    grpWithCause f g &&& Config.causeBit (.cause f.cause) = Config.causeBit (.cause f.cause) := by
  rw [Config.causeBit, BitVec.and_twoPow, if_pos (grpWithCause_bit f g)]

/-- Settles O19: the frame is the entry's definition; the bits of GRP are those of the recorded cause. -/
theorem internalEntrySaves : Obligations.InternalEntrySaves := fun f s =>
  ⟨rfl, grpWithCause_and_causeBit f s.grp, fun _ hb => getLsbD_grpWithCause f s.grp hb⟩

/-! ### The recovery point -/

/-- A fault while trapping is a double fault (R416). -/
theorem recover_trapping {s : State} (h : s.trapping = true) (f : Trap) : recover f s = stopWith .doubleFault s :=
  if_pos h

/-- A cause for which the halt policy holds stops the processor (R421). -/
theorem recover_halts {f : Trap} {s : State} (h : s.trapping = false) (hhalt : haltOn f.cause s = true) :
    recover f s = stopWith (.haltOn f.cause) s := by
  rw [recover, if_neg (by simp [h]), if_pos hhalt]

/-- Any other cause enters the interrupt (R410, R411). -/
theorem recover_enters {f : Trap} {s : State} (h : s.trapping = false) (hhalt : haltOn f.cause s = false) :
    recover f s = internalEntry f s := by
  rw [recover, if_neg (by simp [h]), if_neg (by simp [hhalt])]

/-- Settles O20: the three outcomes of the recovery point, and the policy cause by cause. -/
theorem recoveryDecides : Obligations.RecoveryDecides := by
  intro f s
  refine ⟨fun h => recover_trapping h f, fun h => ⟨recover_halts h, recover_enters h⟩, ?_⟩
  cases f.cause <;> rfl

/-! ### The modes after reset -/

/-- With INTR_HALT set and arithmetic faults enabled, every cause halts (R421). -/
theorem haltOn_of_intrHalt {s : State} (hintr : intrHalt s = true) (hovf : ovfDisable s = false) (c : Cause) :
    haltOn c s = true := by
  unfold haltOn
  split_ifs <;> simp [hintr, hovf]

/-- With interrupts disabled no external interrupt is pending (R181). -/
theorem externalPending_disabled {s : State} (h : s.psw.getLsbD 10 = true) : externalPending s = false := by
  refine Bool.eq_false_iff.2 fun hpend => ?_
  obtain ⟨-, -, henabled, -⟩ := (externalPending_iff s).1 hpend
  rw [h] at henabled
  cases henabled

/-- In supervisor mode every address is in supervisor space (R82). -/
theorem resolve_supervisor {s : State} (h : supervisor s = true) (a : Addr) : (resolve a s).getLsbD 15 = true := by
  simp [resolve, h]

/-- With protection disabled no access violates it (R100). -/
theorem protFault_disabled {s : State} (h : s.psw.getLsbD 1 = true) (a : Addr) : protFault a s = none := by
  rw [protFault_eq, if_neg (by simp [h])]

/-- Settles O24: each part needs one bit of PSW = 02017, or the extracode mode. -/
theorem resetModesHalt : Obligations.ResetModesHalt := by
  intro s hpsw hext hovf htrap
  have hsup : supervisor s = true := by rw [supervisor, hext, Bool.true_or]
  have hprot : s.psw.getLsbD 1 = true := by rw [hpsw]; rfl
  have hhalt : intrHalt s = true := by rw [intrHalt, hpsw]; rfl
  have hdisabled : s.psw.getLsbD 10 = true := by rw [hpsw]; rfl
  exact ⟨hsup, externalPending_disabled hdisabled, fun a => ⟨resolve_supervisor hsup a, protFault_disabled hprot a⟩,
    fun f => recover_halts htrap (haltOn_of_intrHalt hhalt hovf f.cause)⟩

/-! ### The host's reset -/

/-- A host reset takes its turn whatever the refusal mark says (R194, R460). -/
theorem step_hostReset {s : State} {l : List Input} (h : s.inputs = .hostReset :: l) :
    step s = .next (processorReset { s with inputs := l }) := by
  have hmark : refusedByMark s = none := by rw [refusedByMark, h]
  rw [step, hmark, agentStep, h]
  rfl

/-- A reset leaves the flushed memory (R113, R460). -/
theorem processorReset_mem (s : State) : (processorReset s).mem = (flushAll s).mem := by
  simp only [processorReset, Params.resetFlushes, if_true]

/-- A reset leaves every other field as right after reset, or alone (R460, R461, log 28). -/
theorem processorReset_frame (s : State) :
    processorReset s =
      { State.reset with
        setup := s.setup, mem := (processorReset s).mem, chan := s.chan, draws := s.draws, inputs := s.inputs } := by
  simp only [processorReset]

theorem memRead_processorReset (s : State) (p : Phys) : memRead p (processorReset s) = memRead p (flushAll s) :=
  memRead_congr (processorReset_mem s) p

/-- Settles O30: the reset state field by field, and memory by the laws of the flush. -/
theorem hostResetFlushes : Obligations.HostResetFlushes := by
  intro s l hl hm
  refine ⟨_, step_hostReset hl, processorReset_frame _, fun p i hv hp hlast => ?line, fun p hmiss => ?other⟩
  case line =>
    rw [memRead_processorReset]
    exact memRead_flushAll_last (s := { s with inputs := l }) hm ⟨hv, hp⟩ hlast
  case other =>
    rw [memRead_processorReset]
    exact memRead_flushAll_other (s := { s with inputs := l }) hm hmiss

end Sys2Proof.Machine
end
